-- ==== Sys2Proof/Word.lean ====
section
/-! DEFINITION. The two bit-vector types of the core: a 64-bit register (00_scope R9) and a byte (00_scope R8). -/

namespace Sys2Proof

/-- A host-visible register, a command word or a node weight: 64 bits, unsigned (00_scope R9). -/
abbrev Word := BitVec 64

/-- A symbol or a byte of a stream: 8 bits, 0..255 (00_scope R8). -/
abbrev Byte := BitVec 8

end Sys2Proof
end

