-- ==== Sys2Proof/Syntax.lean ====
section
/-! DEFINITION. The commands of the core: one constructor per row of spec/opcode_table.json (30_encoding R79). An
operand of a constructor is the command word's IMM byte (R76); the other operand, ARG, is a register (R77). -/

namespace Sys2Proof

/-- A command of HUFF-CORE revision 1 (30_encoding R79). -/
inductive Instr where
  /-- NOP (R170) -/
  | nop
  /-- TREE_CLEAR (R171) -/
  | treeClear
  /-- LEAF_PUSH: IMM is the symbol, ARG the weight (R104) -/
  | leafPush (sym : Byte)
  /-- MERGE (R105) -/
  | merge
  /-- BUILD (R106) -/
  | build
  /-- GEN_CODES (R121) -/
  | genCodes
  /-- SER_LEN (R143) -/
  | serLen
  /-- SERIALIZE (R144) -/
  | serialize
  /-- DESERIALIZE: ARG is the tree string's length (R147) -/
  | deserialize
  /-- PACK_BIT: IMM is the bit value; a value above 1 is a legal word that raises an error when run (R152) -/
  | packBit (bit : Byte)
  /-- PACK_SYMBOL: IMM is the symbol (R153) -/
  | packSymbol (sym : Byte)
  /-- PACK_STREAM: ARG is the number of symbols (R154) -/
  | packStream
  /-- FLUSH: IMM is the force flag, 0 or 1 (R155) -/
  | flush (force : Byte)
  /-- READ_BIT (R161) -/
  | readBit
  /-- DECODE: ARG is the number of symbols (R163) -/
  | decode
  /-- EMIT_U64: ARG is the value (R172) -/
  | emitU64
  /-- LOAD_U64 (R173) -/
  | loadU64
  /-- BITS_FROM_PTR (R174) -/
  | bitsFromPtr
deriving DecidableEq, Repr

end Sys2Proof
end

