-- ==== Sys2Proof/WellFormed.lean ====
section
/-! DEFINITION. Which terms of Instr are commands: those some legal word stands for. The one check is R78 step 3
(FLUSH takes force 0 or 1); every other IMM value of the table is legal (30_encoding R76). -/

namespace Sys2Proof

/-- The legal values of a command's IMM operand (30_encoding R76, the column "legal values"). -/
def Instr.wellFormed : Instr → Bool
  | .nop => true
  | .treeClear => true
  | .leafPush _ => true
  | .merge => true
  | .build => true
  | .genCodes => true
  | .serLen => true
  | .serialize => true
  | .deserialize => true
  | .packBit _ => true
  | .packSymbol _ => true
  | .packStream => true
  | .flush force => force ≤ 1#8
  | .readBit => true
  | .decode => true
  | .emitU64 => true
  | .loadU64 => true
  | .bitsFromPtr => true

end Sys2Proof
end

