-- ==== Sys2Proof/Decode.lean ====
section
/-! DEFINITION. Decoding a command word, with the checks of 30_encoding R78 in their order, and after it the encoder,
written from the same table (R79). A command is one 64-bit word (R74); registers are transferred whole, so no byte
order is involved (20_memory R58). -/

namespace Sys2Proof

/-- The opcode numbers of 30_encoding R79. -/
def Opcode.nop : Byte := 0x00#8
def Opcode.treeClear : Byte := 0x01#8
def Opcode.leafPush : Byte := 0x10#8
def Opcode.merge : Byte := 0x11#8
def Opcode.build : Byte := 0x12#8
def Opcode.genCodes : Byte := 0x20#8
def Opcode.serLen : Byte := 0x30#8
def Opcode.serialize : Byte := 0x31#8
def Opcode.deserialize : Byte := 0x32#8
def Opcode.packBit : Byte := 0x40#8
def Opcode.packSymbol : Byte := 0x41#8
def Opcode.packStream : Byte := 0x42#8
def Opcode.flush : Byte := 0x43#8
def Opcode.readBit : Byte := 0x50#8
def Opcode.decode : Byte := 0x51#8
def Opcode.emitU64 : Byte := 0x60#8
def Opcode.loadU64 : Byte := 0x61#8
def Opcode.bitsFromPtr : Byte := 0x62#8

/-- The field OP = w[7:0] (30_encoding R74). -/
def opOf (w : Word) : Byte := w.extractLsb' 0 8

/-- The field IMM = w[15:8] (30_encoding R74). -/
def immOf (w : Word) : Byte := w.extractLsb' 8 8

/-- The field RSV = w[63:16] (30_encoding R74). -/
def rsvOf (w : Word) : BitVec 48 := w.extractLsb' 16 48

/-- Why a word is no legal command: the checks of 30_encoding R78, in order. Each raises ILLEGAL_COMMAND. -/
inductive DecodeError where
  /-- R78 step 1: RSV is not 0 -/
  | reservedBits
  /-- R78 step 2: OP is none of the 18 opcodes -/
  | unknownOpcode
  /-- R78 step 3: FLUSH with IMM above 1 -/
  | flushForce
  /-- R78 step 4: an IMM other than 0 on an opcode that does not use IMM -/
  | unusedImm
deriving DecidableEq, Repr

/-- The command an opcode and an IMM name (30_encoding R79); `none` for the 238 reserved opcodes (R80). -/
def instrOf (op imm : Byte) : Option Instr :=
  if op = Opcode.nop then some .nop
  else if op = Opcode.treeClear then some .treeClear
  else if op = Opcode.leafPush then some (.leafPush imm)
  else if op = Opcode.merge then some .merge
  else if op = Opcode.build then some .build
  else if op = Opcode.genCodes then some .genCodes
  else if op = Opcode.serLen then some .serLen
  else if op = Opcode.serialize then some .serialize
  else if op = Opcode.deserialize then some .deserialize
  else if op = Opcode.packBit then some (.packBit imm)
  else if op = Opcode.packSymbol then some (.packSymbol imm)
  else if op = Opcode.packStream then some .packStream
  else if op = Opcode.flush then some (.flush imm)
  else if op = Opcode.readBit then some .readBit
  else if op = Opcode.decode then some .decode
  else if op = Opcode.emitU64 then some .emitU64
  else if op = Opcode.loadU64 then some .loadU64
  else if op = Opcode.bitsFromPtr then some .bitsFromPtr
  else none

/-- The opcodes whose IMM is an operand (30_encoding R76). -/
def usesImm (op : Byte) : Bool :=
  op = Opcode.leafPush || op = Opcode.packSymbol || op = Opcode.packBit || op = Opcode.flush

/-- Decoding a command word: the checks of 30_encoding R78, in its order, the first failure deciding. -/
def decodeWord (w : Word) : Except DecodeError Instr :=
  if rsvOf w ≠ 0#48 then .error .reservedBits
  else match instrOf (opOf w) (immOf w) with
    | none => .error .unknownOpcode
    | some i =>
      if opOf w = Opcode.flush ∧ 1#8 < immOf w then .error .flushForce
      else if usesImm (opOf w) = false ∧ immOf w ≠ 0#8 then .error .unusedImm
      else .ok i

/-- The opcode of a command (30_encoding R79). -/
def Instr.opcode : Instr → Byte
  | .nop => Opcode.nop
  | .treeClear => Opcode.treeClear
  | .leafPush _ => Opcode.leafPush
  | .merge => Opcode.merge
  | .build => Opcode.build
  | .genCodes => Opcode.genCodes
  | .serLen => Opcode.serLen
  | .serialize => Opcode.serialize
  | .deserialize => Opcode.deserialize
  | .packBit _ => Opcode.packBit
  | .packSymbol _ => Opcode.packSymbol
  | .packStream => Opcode.packStream
  | .flush _ => Opcode.flush
  | .readBit => Opcode.readBit
  | .decode => Opcode.decode
  | .emitU64 => Opcode.emitU64
  | .loadU64 => Opcode.loadU64
  | .bitsFromPtr => Opcode.bitsFromPtr

/-- The IMM byte of a command; 0 where IMM is unused (30_encoding R76). -/
def Instr.imm : Instr → Byte
  | .leafPush sym => sym
  | .packBit bit => bit
  | .packSymbol sym => sym
  | .flush force => force
  | .nop | .treeClear | .merge | .build | .genCodes | .serLen | .serialize | .deserialize | .packStream
  | .readBit | .decode | .emitU64 | .loadU64 | .bitsFromPtr => 0#8

/-- The word with the given IMM and OP and RSV = 0 (30_encoding R74). -/
def commandWord (op imm : Byte) : Word := 0#48 ++ imm ++ op

/-- The word of a command. -/
def encode (i : Instr) : Word := commandWord i.opcode i.imm

/-- The command the decoder reads from a word whose lowest `nbits` bits are `w` and whose other bits are 0, the bits
numbered as spec/opcode_table.json numbers them (bit 0 is OP's lowest). -/
def decodeTableWord (nbits w : Nat) : Option Instr :=
  match decodeWord (BitVec.ofNat 64 (w % 2 ^ nbits)) with
  | .ok i => some i
  | .error _ => none

end Sys2Proof
end

