-- ==== Sys2Proof/Config.lean ====
section
/-! DEFINITION. What an implementation of the core fixes: the OPEN parameters of 00_scope section 4 and 20_memory R57,
and the constants the spec fixes. The parameters reach the machine as the field cfg of State (log 1). -/

namespace Sys2Proof.Config

/-- The OPEN parameters, "which the model takes as parameters" (10_state R17). -/
structure Params where
  /-- NODE_CAP, the capacity of the node arena in entries (00_scope R11). -/
  nodeCap : Nat
  /-- IN_CAP, the capacity of the IN buffer in bytes (00_scope R13). -/
  inCap : Nat
  /-- OUT_CAP, the capacity of the OUT stream in bytes; `none` is UNBOUNDED (00_scope R14). -/
  outCap : Option Nat
  /-- BASE, the host address of register offset 0x00 (20_memory R57). -/
  base : Nat
deriving DecidableEq, Repr

/-- The constraints the spec puts on the parameters: NODE_CAP >= 511 (00_scope R11) and 1 <= IN_CAP <= 2^61
(00_scope R13). -/
abbrev Params.Wf (p : Params) : Prop := 511 ≤ p.nodeCap ∧ 1 ≤ p.inCap ∧ p.inCap ≤ 2 ^ 61

/-- The parameters of `State.reset`: those of the conventions of 95_test_vectors, with the largest IN_CAP the spec
allows and BASE 0. DESIGN CHOICE (log 1), unsafe for a statement that rests on these numbers; a statement over every
state holds for every choice. -/
def defaultParams : Params := { nodeCap := 511, inCap := 2 ^ 61, outCap := none, base := 0 }

/-- LIST_CAP, the capacity of the work list (00_scope R10). -/
def listCap : Nat := 256

/-- MAX_CODE_LEN, the longest code the code table holds (00_scope R12). -/
def maxCodeLen : Nat := 255

/-- The constant the ID register reads (10_state R24). -/
def idValue : Word := 0x0000000748554646#64

/-- What a 64-bit register shows of a number it cannot hold: an index, a length or a bit position of 2^64 or more. The
spec states no value there: a free value, with no body (log 7). -/
opaque tooWide : Nat → Word

end Sys2Proof.Config
end

