-- ==== Sys2Proof/Machine/State.lean ====
section
/-! DEFINITION. The state of the core (10_state R17), the reasons a step can stop, and the state after reset
(70_reset_and_hazards R210). All of it is plain data. -/

namespace Sys2Proof.Machine

/-- The error kinds of 60_exceptions R191 (its NONE is the absence of a latched error). -/
inductive ErrorCode where
  | emptyInput
  /-- reserved: "never raised" (R191) -/
  | ioFailure
  | malformedTreeString
  | unexpectedBitValue
  | capacityExceeded
  | illegalCommand
  | noTree
  | symbolNotInTable
  | truncatedInput
  | weightOverflow
  | duplicateSymbol
  | codeTooLong
deriving DecidableEq, Repr

/-- What `raise` records (10_state R27, 60_exceptions R192): the error and the OP byte of the word that raised it. -/
structure ErrLatch where
  code : ErrorCode
  op : Byte
deriving DecidableEq, Repr

/-- The two kinds of arena entry (10_state R43). -/
inductive NodeKind where
  | leaf
  | internal
deriving DecidableEq, Repr

/-- An allocated arena entry (10_state R43). -/
structure Node where
  kind : NodeKind
  sym : Byte
  weight : Word
  left : Nat
  right : Nat
deriving DecidableEq, Repr

/-- The bits of a code, the edge leaving the root first (10_state R49); its length is the entry's `len`. -/
abbrev Code := List Bool

/-- One turn of the total order of host and core steps (10_state R16, 20_memory R69). A host access names its width in
bits and its host address; 20_memory R57 says which are admitted. -/
inductive Turn where
  /-- the core takes a turn: it executes the pending command, if there is one -/
  | core
  /-- the host reads -/
  | read (width addr : Nat)
  /-- the host writes `v` -/
  | write (width addr : Nat) (v : Word)
deriving DecidableEq, Repr

/-- The state of the core (10_state R17), the parameters it was built with, and the two fields through which the host
acts on it. -/
structure State where
  /-- the OPEN parameters: not state (10_state R17), and no step changes them (log 1) -/
  cfg : Config.Params
  /-- ARG (10_state R19) -/
  arg : Word
  /-- RESULT (10_state R20) -/
  result : Word
  /-- STATUS.ERROR and ERR_CODE in one: `none` is ERROR = 0 with ERR_CODE = 0 (10_state R26, R27; log 8) -/
  err : Option ErrLatch
  /-- STATUS.HOST_DROP (10_state R26) -/
  hostDrop : Bool
  /-- STATUS.ROOT_VALID (10_state R26) -/
  rootValid : Bool
  /-- STATUS.CT_VALID (10_state R26) -/
  ctValid : Bool
  /-- ROOT, a node index (10_state R29) -/
  root : Nat
  /-- CURSOR, a node index (10_state R36) -/
  cursor : Nat
  /-- the allocated entries of the node arena, entry 0 first; NODE_COUNT is its length (10_state R30, R43) -/
  nodes : List Node
  /-- the work list, position 0 first; LIST_LEN is its length (10_state R31, R48) -/
  list : List Nat
  /-- SYM_PRESENT, bit s for symbol s (10_state R48) -/
  symPresent : BitVec 256
  /-- the code table: entry s is `none` where invalid (10_state R49) -/
  ct : Vector (Option Code) 256
  /-- PACK_STATE.ACC (10_state R37) -/
  acc : Byte
  /-- PACK_STATE.CNT, 0 to 7 (10_state R37) -/
  cnt : Fin 8
  /-- the IN buffer, byte 0 first; IN_LEN is its length (20_memory R52, 10_state R33) -/
  inBuf : List Byte
  /-- RD_PTR (10_state R32) -/
  rdPtr : Word
  /-- BIT_IDX (10_state R35), as a natural number: 44_bit_unpacker R163's `BIT_IDX + 1` is on unbounded naturals and
  "cannot wrap", and is 2^64 behind the last bit of an IN of 2^61 bytes (log 7) -/
  bitIdx : Nat
  /-- the OUT stream, head first; OUT_LEVEL is its length (20_memory R53, 10_state R39) -/
  out : List Byte
  /-- NODE_SEL (10_state R40) -/
  nodeSel : Word
  /-- LIST_SEL (10_state R41) -/
  listSel : Word
  /-- CODE_SEL, SYM in bits 7..0 and WORD in bits 9..8 (10_state R42) -/
  codeSel : BitVec 10
  /-- the pending command slot (10_state R50) -/
  pending : Option Word
  /-- the model's own field: the turns still to be taken, next first; when there is none, every turn is the core's
  (log 2) -/
  turns : List Turn
  /-- the model's own field: what the host's reads returned, oldest first (log 3) -/
  seen : List Word
deriving DecidableEq, Repr

/-- Why the machine stops. -/
inductive Fault where
  /-- Raised by the commands that follow node indices (MERGE, BUILD, GEN_CODES, SER_LEN, SERIALIZE, DECODE) in a state
  that breaks 10_state R51: an index at or past NODE_COUNT, or a cycle under ROOT. Safe: no rule of the spec leads to
  such a state and the spec gives no effect in one (log 6). -/
  | brokenTree
deriving DecidableEq, Repr

/-- Why the model has no step. -/
inductive Refusal where
  /-- Raised by the arm of a command that has no meaning yet. Safe. No arm answers with it. -/
  | notModelled (mnemonic : String)
  /-- Raised by a host access the bus does not admit: not 64 bits wide, not aligned, or outside the register space.
  20_memory R57: "A model refuses it (the host has no such step)". Safe (log 5). -/
  | accessNotAdmitted
deriving DecidableEq, Repr

/-- The state after power-on reset of a core built with the parameters `p` (70_reset_and_hazards R210): every register
0, every store empty, the code table invalid, the pending slot empty and the error latch clear. -/
def State.resetWith (p : Config.Params) : State where
  cfg := p
  arg := 0#64
  result := 0#64
  err := none
  hostDrop := false
  rootValid := false
  ctValid := false
  root := 0
  cursor := 0
  nodes := []
  list := []
  symPresent := 0#256
  ct := Vector.replicate 256 none
  acc := 0#8
  cnt := 0
  inBuf := []
  rdPtr := 0#64
  bitIdx := 0
  out := []
  nodeSel := 0#64
  listSel := 0#64
  codeSel := 0#10
  pending := none
  turns := []
  seen := []

/-- The machine right after reset, with the parameters of log 1. -/
def State.reset : State := State.resetWith Config.defaultParams

end Sys2Proof.Machine
end

