-- ==== Sys2Proof/Machine/Ops.lean ====
section
/-! DEFINITION. The named operations every command is built from: how a command ends, raising an error and the return
from one (the core's form of an exception), the arena, the tree, the code table and the OUT stream. -/

namespace Sys2Proof.Machine

/-- How a command, or a part of one, ends. -/
inductive Cmd (α : Type) where
  /-- it ran to its end with the value `a` -/
  | done (a : α) (s : State)
  /-- it stopped at a line `raise e`; `s` holds the effects performed before that line (60_exceptions R192, R195) -/
  | raised (e : ErrorCode) (s : State)
  /-- it met a node index that R51 rules out (log 6) -/
  | broken

/-- Run `c`, and `f` after it if `c` ran to its end. -/
def Cmd.andThen {α β : Type} (c : Cmd α) (f : α → State → Cmd β) : Cmd β :=
  match c with
  | .done a s => f a s
  | .raised e s => .raised e s
  | .broken => .broken

/-- `raise e` in a command whose OP byte is `op`: the error latch (60_exceptions R192). This is the core's one
exception entry; nothing else moves and no handler exists (R190). -/
def raiseError (e : ErrorCode) (op : Byte) (s : State) : State :=
  { s with err := some { code := e, op := op } }

/-- The return from an error: ERR_CLEAR (60_exceptions R196). -/
def clearError (s : State) : State :=
  { s with err := none, hostDrop := false }

/-- The end of a command whose OP byte is `op`: a raised error is latched over the effects left in place. -/
def finish {α : Type} (op : Byte) (c : Cmd α) : Host.Outcome State Fault Refusal :=
  match c with
  | .done _ s => .next s
  | .raised e s => .next (raiseError e op s)
  | .broken => .fault .brokenTree

/-- A number as a 64-bit register shows it (00_scope R15); a free value for a number that does not fit (log 7). -/
def regWord (n : Nat) : Word := if n < 2 ^ 64 then BitVec.ofNat 64 n else Config.tooWide n

/-- AllocNode (10_state R44): one arena entry at the end, whose index it answers. -/
def allocNode (kind : NodeKind) (sym : Byte) (w : Word) (l r : Nat) (s : State) : Cmd Nat :=
  if s.nodes.length = s.cfg.nodeCap then .raised .capacityExceeded s
  else .done s.nodes.length
    { s with nodes := s.nodes ++ [{ kind := kind, sym := sym, weight := w, left := l, right := r }] }

/-- InvalidateCT (10_state R46). -/
def invalidateCT (s : State) : State :=
  { s with ct := Vector.replicate 256 none, ctValid := false }

/-- SetRoot (10_state R47). -/
def setRoot (k : Nat) (s : State) : State :=
  { s with root := k, rootValid := true, cursor := k }

/-- TreeClearState (10_state R45). -/
def treeClearState (s : State) : State :=
  invalidateCT { s with nodes := [], list := [], symPresent := 0#256, rootValid := false, root := 0, cursor := 0 }

/-- SYM_PRESENT[x] = 1 (10_state R48). -/
def isPresent (s : State) (x : Byte) : Bool := s.symPresent.getLsbD x.toNat

/-- SYM_PRESENT[x] <- 1 (10_state R48). -/
def markPresent (x : Byte) (s : State) : State :=
  { s with symPresent := s.symPresent ||| BitVec.twoPow 256 x.toNat }

/-- CT[x] (10_state R49). -/
def codeOf (s : State) (x : Byte) : Option Code := s.ct[x.toNat]'(x.isLt)

/-- CT[x] <- {valid: 1, len: |p|, bits: p} (41_code_table R120). -/
def setCode (x : Byte) (p : Code) (s : State) : State :=
  { s with ct := s.ct.set x.toNat (some p) (x.isLt) }

/-- OutRoom(n): OUT has room for n more bytes (20_memory R55). -/
def outRoom (s : State) (n : Nat) : Bool :=
  match s.cfg.outCap with
  | none => true
  | some cap => s.out.length + n ≤ cap

/-- OutAppend of each byte of `bs` in order, all of them or none (20_memory R55). -/
def outAppend (bs : List Byte) (s : State) : Cmd Unit :=
  if outRoom s bs.length then .done () { s with out := s.out ++ bs }
  else .raised .capacityExceeded s

/-- A read of OUT_DATA removes the head of OUT (10_state R38). -/
def outPop (s : State) : State := { s with out := s.out.tail }

/-- CTRL.OUT_CLEAR (10_state R25). -/
def outClear (s : State) : State := { s with out := [] }

/-- A write of IN_DATA while the core is idle (10_state R34): append, or drop when the buffer is full. -/
def inAppend (b : Byte) (s : State) : State :=
  if s.inBuf.length < s.cfg.inCap then { s with inBuf := s.inBuf ++ [b] }
  else { s with hostDrop := true }

/-- CTRL.IN_CLEAR (10_state R25). -/
def inClear (s : State) : State := { s with inBuf := [], rdPtr := 0#64, bitIdx := 0 }

/-- The form of the two byte stores: IN holds at most IN_CAP bytes and OUT at most OUT_CAP (20_memory R52, R53). Both
are dense lists, so two equal stores are equal data (log 9). -/
def Memory.wf (s : State) : Bool := s.inBuf.length ≤ s.cfg.inCap && outRoom s 0

/-- CTRL.SOFT_RESET (70_reset_and_hazards R211): everything power-on reset does. The parameters, the host's turns and
what the host has read are not the core's state, and stay (log 10). -/
def softReset (s : State) : State :=
  { State.resetWith s.cfg with turns := s.turns, seen := s.seen }

/-- The tree of a node, unfolded from the arena: a leaf's symbol, or the two subtrees of an internal node. -/
inductive CodeTree where
  | leaf (sym : Byte)
  | node (l r : CodeTree)
deriving DecidableEq, Repr

/-- The tree whose root is arena entry `k`, read to a depth of `fuel`; `none` where an index is not allocated or the
depth does not suffice (log 6). -/
def readTree (nodes : List Node) : Nat → Nat → Option CodeTree
  | 0, _ => none
  | fuel + 1, k =>
    match nodes[k]? with
    | none => none
    | some n =>
      match n.kind with
      | .leaf => some (.leaf n.sym)
      | .internal =>
        match readTree nodes fuel n.left, readTree nodes fuel n.right with
        | some l, some r => some (.node l r)
        | _, _ => none

/-- The tree of entry `k`. An acyclic tree in an arena of NODE_COUNT entries is never deeper than NODE_COUNT. -/
def treeOf (s : State) (k : Nat) : Option CodeTree := readTree s.nodes s.nodes.length k

end Sys2Proof.Machine
end

