-- ==== Sys2Proof/Machine/Operands.lean ====
section
/-! DEFINITION. Where a command's operands come from (30_encoding R76, R77; 20_memory R54, R58, R59): the ARG register,
the IN buffer by byte index, the IN buffer by stream-bit index, and the 8-byte little-endian fields. -/

namespace Sys2Proof.Machine

/-- ARG as an unsigned number (30_encoding R77). -/
def argNat (s : State) : Nat := s.arg.toNat

/-- MemRead(IN, a, n) (20_memory R54): the n bytes from index a; `none` where it raises TRUNCATED_INPUT. The range
check is on unbounded naturals. -/
def memRead (s : State) (a n : Nat) : Option (List Byte) :=
  if s.inBuf.length < a + n then none else some ((s.inBuf.drop a).take n)

/-- InByte(a) = MemRead(IN, a, 1) (20_memory R54). -/
def inByte (s : State) (a : Nat) : Option Byte := s.inBuf[a]?

/-- Stream bit `i` of a byte, counted from its 0x80 bit (20_memory R59). -/
def streamBitOf (x : Byte) (i : Nat) : Bool := x.getLsbD (7 - i % 8)

/-- ReadStreamBit(i) (44_bit_unpacker R160); `none` where it raises TRUNCATED_INPUT. -/
def readStreamBit (s : State) (i : Nat) : Option Bool :=
  match inByte s (i / 8) with
  | none => none
  | some x => some (streamBitOf x i)

/-- The 8 bytes of a value, byte k holding bits 8k+7..8k (20_memory R58). -/
def leBytes (v : Word) : List Byte := (List.range 8).map fun k => v.extractLsb' (8 * k) 8

/-- The sum over k of x_k << 8k (45_control_framing R173). -/
def leNat : List Byte → Nat
  | [] => 0
  | x :: xs => x.toNat + 256 * leNat xs

end Sys2Proof.Machine
end

