-- ==== Sys2Proof/Machine/BitPacker.lean ====
section
/-! DEFINITION. The Bit Packer (43_bit_packer): PushBit and the commands PACK_BIT, PACK_SYMBOL, PACK_STREAM, FLUSH. -/

namespace Sys2Proof.Machine

/-- `ACC[i] <- b`: the bit is set or cleared (R151). -/
def writeBit (acc : Byte) (i : Nat) (b : Bool) : Byte :=
  if b then acc ||| (1#8 <<< i) else acc &&& ~~~(1#8 <<< i)

/-- PushBit (R151): the next most-significant unwritten bit of ACC; the eighth bit sends the byte to OUT. -/
def pushBit (b : Bool) (s : State) : Cmd Unit :=
  if s.cnt = 7 ∧ outRoom s 1 = false then .raised .capacityExceeded s
  else if s.cnt = 7 then
    (outAppend [writeBit s.acc (7 - s.cnt.val) b] s).andThen fun _ t => .done () { t with acc := 0#8, cnt := 0 }
  else .done () { s with acc := writeBit s.acc (7 - s.cnt.val) b, cnt := s.cnt + 1 }

/-- PushBit of each bit of a code in order (R153). -/
def pushBits : Code → State → Cmd Unit
  | [], s => .done () s
  | b :: bs, s => (pushBit b s).andThen fun _ t => pushBits bs t

/-- PackSym (R153): all of the symbol's code or none. -/
def packSym (sym : Byte) (s : State) : Cmd Unit :=
  match codeOf s sym with
  | none => .raised .symbolNotInTable s
  | some bits =>
    if outRoom s ((s.cnt.val + bits.length) / 8) = false then .raised .capacityExceeded s
    else pushBits bits s

/-- The loop of PACK_STREAM (R154): `n` symbols remain and `t` are packed. -/
def packLoop : Nat → Nat → State → Cmd Unit
  | 0, _, s => .done () s
  | n + 1, t, s =>
    match inByte s s.rdPtr.toNat with
    | none => .raised .truncatedInput s
    | some sym =>
      (packSym sym s).andThen fun _ u =>
        packLoop n (t + 1) { u with rdPtr := u.rdPtr + 1#64, result := BitVec.ofNat 64 (t + 1) }

/-- PACK_BIT (R152). -/
def execPackBit (bit : Byte) (s : State) : Host.Outcome State Fault Refusal :=
  finish Opcode.packBit <|
    if 1#8 < bit then .raised .unexpectedBitValue s
    else pushBit (bit = 1#8) s

/-- PACK_SYMBOL (R153). -/
def execPackSymbol (sym : Byte) (s : State) : Host.Outcome State Fault Refusal :=
  finish Opcode.packSymbol (packSym sym s)

/-- PACK_STREAM (R154). -/
def execPackStream (s : State) : Host.Outcome State Fault Refusal :=
  finish Opcode.packStream (packLoop (argNat s) 0 { s with result := 0#64 })

/-- FLUSH (R155): a forced flush writes out a partial byte; any other flush has no effect. -/
def execFlush (force : Byte) (s : State) : Host.Outcome State Fault Refusal :=
  finish Opcode.flush <|
    if force = 1#8 ∧ 0 < s.cnt.val then
      (outAppend [s.acc] s).andThen fun _ t => .done () { t with acc := 0#8, cnt := 0 }
    else .done () s

end Sys2Proof.Machine
end

