-- ==== Sys2Proof/Machine/BitUnpacker.lean ====
section
/-! DEFINITION. The Bit Unpacker (44_bit_unpacker): READ_BIT, the decode walk and DECODE. -/

namespace Sys2Proof.Machine

/-- DecodeStep (R162): `c` symbols are emitted so far, and the answer is how many are after the step. Leaf detection
comes before any bit is read. -/
def decodeStep (c : Nat) (s : State) : Cmd Nat :=
  match s.nodes[s.cursor]? with
  | none => .broken
  | some n =>
    match n.kind with
    | .leaf =>
      (outAppend [n.sym] s).andThen fun _ t =>
        .done (c + 1) { t with result := BitVec.ofNat 64 (c + 1), cursor := t.root }
    | .internal =>
      match readStreamBit s s.bitIdx with
      | none => .raised .truncatedInput s
      | some bit =>
        .done c { s with bitIdx := s.bitIdx + 1, cursor := if bit then n.right else n.left }

/-- The loop of DECODE (R163): steps while fewer than `n` symbols are emitted, at most `fuel` of them. -/
def decodeLoop (n : Nat) : Nat → Nat → State → Cmd Unit
  | 0, c, s => if c < n then .broken else .done () s
  | fuel + 1, c, s =>
    if c < n then (decodeStep c s).andThen fun c' t => decodeLoop n fuel c' t
    else .done () s

/-- A number of steps DECODE never exceeds: a step emits one of the n symbols or consumes one of the bits of IN. -/
def decodeFuel (n : Nat) (s : State) : Nat := n + 8 * s.inBuf.length

/-- READ_BIT (R161): BIT_IDX does not advance. -/
def execReadBit (s : State) : Host.Outcome State Fault Refusal :=
  finish Opcode.readBit <|
    match readStreamBit s s.bitIdx with
    | none => .raised .truncatedInput s
    | some bit => .done () { s with result := if bit then 1#64 else 0#64 }

/-- DECODE (R163). -/
def execDecode (s : State) : Host.Outcome State Fault Refusal :=
  finish Opcode.decode <|
    if s.rootValid = false then .raised .noTree s
    else decodeLoop (argNat s) (decodeFuel (argNat s) s) 0 { s with result := 0#64 }

end Sys2Proof.Machine
end

