-- ==== Sys2Proof/Machine/CodeTable.lean ====
section
/-! DEFINITION. The Code Table Generator (41_code_table): the depth-first walk and GEN_CODES. -/

namespace Sys2Proof.Machine

/-- Walk(k, p) (R120) over the tree of node k: `p` is the path to it, `n` the number of entries written so far. At a
leaf the length check comes before the duplicate check, and a failed check leaves the table invalid. -/
def walk : CodeTree → Code → Nat → State → Cmd Nat
  | .leaf x, p, n, s =>
    if Config.maxCodeLen < p.length then .raised .codeTooLong (invalidateCT s)
    else if (codeOf s x).isSome then .raised .duplicateSymbol (invalidateCT s)
    else .done (n + 1) (setCode x p s)
  | .node l r, p, n, s =>
    (walk l (p ++ [false]) n s).andThen fun n' t => walk r (p ++ [true]) n' t

/-- GEN_CODES (R121). -/
def execGenCodes (s : State) : Host.Outcome State Fault Refusal :=
  finish Opcode.genCodes <|
    if s.rootValid = false then .raised .noTree s
    else
      match treeOf s s.root with
      | none => .broken
      | some t =>
        (walk t [] 0 (invalidateCT s)).andThen fun n u =>
          .done () { u with ctValid := true, result := BitVec.ofNat 64 n }

end Sys2Proof.Machine
end

