-- ==== Sys2Proof/Machine/Control.lean ====
section
/-! DEFINITION. The control and container-framing commands (45_control_framing). -/

namespace Sys2Proof.Machine

/-- NOP (R170): no effect. -/
def execNop (s : State) : Host.Outcome State Fault Refusal :=
  finish Opcode.nop (.done () s)

/-- TREE_CLEAR (R171). -/
def execTreeClear (s : State) : Host.Outcome State Fault Refusal :=
  finish Opcode.treeClear (.done () (treeClearState s))

/-- EMIT_U64 (R172): ARG as 8 little-endian bytes, all of them or none. -/
def execEmitU64 (s : State) : Host.Outcome State Fault Refusal :=
  finish Opcode.emitU64 (outAppend (leBytes s.arg) s)

/-- LOAD_U64 (R173): 8 little-endian bytes at RD_PTR. -/
def execLoadU64 (s : State) : Host.Outcome State Fault Refusal :=
  finish Opcode.loadU64 <|
    match memRead s s.rdPtr.toNat 8 with
    | none => .raised .truncatedInput s
    | some xs => .done () { s with result := BitVec.ofNat 64 (leNat xs), rdPtr := s.rdPtr + 8#64 }

/-- BITS_FROM_PTR (R174): BIT_IDX <- (8 * RD_PTR) mod 2^64. -/
def execBitsFromPtr (s : State) : Host.Outcome State Fault Refusal :=
  finish Opcode.bitsFromPtr (.done () { s with bitIdx := 8 * s.rdPtr.toNat % 2 ^ 64 })

end Sys2Proof.Machine
end

