-- ==== Sys2Proof/Machine/TreeBuilder.lean ====
section
/-! DEFINITION. The Tree Builder (40_tree_builder): LEAF_PUSH, MERGE, BUILD and the shared steps Select2 and MergeStep. -/

namespace Sys2Proof.Machine

/-- The weights of the entries of a work list, in list order; `none` where an entry is not allocated. -/
def weightsOf (nodes : List Node) : List Nat → Option (List Nat)
  | [] => some []
  | k :: ks =>
    match nodes[k]?, weightsOf nodes ks with
    | some n, some ws => some (n.weight.toNat :: ws)
    | _, _ => none

/-- The least weight of a list of weights. -/
def leastWeight : List Nat → Nat
  | [] => 0
  | [w] => w
  | w :: ws => min w (leastWeight ws)

/-- The lowest position of the least weight (R100). -/
def firstLeast (ws : List Nat) : Nat := ws.findIdx (· == leastWeight ws)

/-- Select2 (R100): the first-selected position, and the second-selected one, found as the first minimum of what
remains when the first is removed. -/
def select2 (ws : List Nat) : Nat × Nat :=
  let i1 := firstLeast ws
  let j := firstLeast (ws.eraseIdx i1)
  (i1, if j < i1 then j else j + 1)

/-- The list without positions i and j, in increasing order (R102). -/
def eraseTwo (l : List Nat) (i j : Nat) : List Nat := (l.eraseIdx (max i j)).eraseIdx (min i j)

/-- The merge of the entries at positions i1 (first-selected) and i2 (second-selected) (R102, R103): the overflow check,
the allocation, then the new list with the merged node at its tail. -/
def mergeAt (i1 i2 : Nat) (s : State) : Cmd Unit :=
  match s.list[i1]?, s.list[i2]? with
  | some a, some b =>
    match s.nodes[a]?, s.nodes[b]? with
    | some na, some nb =>
      if 2 ^ 64 ≤ na.weight.toNat + nb.weight.toNat then .raised .weightOverflow s
      else
        (allocNode .internal 0#8 (na.weight + nb.weight) a b s).andThen fun k t =>
          .done () (invalidateCT { t with list := eraseTwo t.list i1 i2 ++ [k], rootValid := false })
    | _, _ => .broken
  | _, _ => .broken

/-- MergeStep (R102), for a list of two or more entries. -/
def mergeStep (s : State) : Cmd Unit :=
  match weightsOf s.nodes s.list with
  | none => .broken
  | some ws => mergeAt (select2 ws).1 (select2 ws).2 s

/-- `SetRoot(LIST[0])` where the list holds exactly one entry (R105, R106). -/
def rootFromList (s : State) : State :=
  match s.list with
  | [k] => setRoot k s
  | _ => s

/-- The rounds of BUILD (R106): merge while two or more entries remain. A round shortens the list by one, so LIST_LEN
rounds suffice. -/
def buildRounds : Nat → State → Cmd Unit
  | 0, s => .done () s
  | n + 1, s =>
    if 2 ≤ s.list.length then (mergeStep s).andThen fun _ t => buildRounds n t
    else .done () s

/-- LEAF_PUSH (R104), its checks in R194's order. -/
def execLeafPush (sym : Byte) (s : State) : Host.Outcome State Fault Refusal :=
  finish Opcode.leafPush <|
    if isPresent s sym then .raised .duplicateSymbol s
    else if s.list.length = Config.listCap then .raised .capacityExceeded s
    else
      (allocNode .leaf sym s.arg 0 0 s).andThen fun k t =>
        .done () (invalidateCT { markPresent sym t with list := t.list ++ [k], rootValid := false })

/-- MERGE (R105). -/
def execMerge (s : State) : Host.Outcome State Fault Refusal :=
  finish Opcode.merge <|
    if s.list.length = 0 then .raised .emptyInput s
    else
      (if 2 ≤ s.list.length then mergeStep s else .done () s).andThen fun _ t =>
        .done () (rootFromList t)

/-- BUILD (R106). -/
def execBuild (s : State) : Host.Outcome State Fault Refusal :=
  finish Opcode.build <|
    if s.list.length = 0 then .raised .emptyInput s
    else
      (buildRounds s.list.length s).andThen fun _ t =>
        .done () (rootFromList t)

end Sys2Proof.Machine
end

