-- ==== Sys2Proof/Machine/TreeSerdes.lean ====
section
/-! DEFINITION. The Tree Serializer and Deserializer (42_tree_serdes): the bracket grammar written and read, SER_LEN,
SERIALIZE and DESERIALIZE. -/

namespace Sys2Proof.Machine

/-- '[' (00_scope section 5). -/
def byteLB : Byte := 0x5B#8
/-- '\' (00_scope section 5). -/
def byteBS : Byte := 0x5C#8
/-- ']' (00_scope section 5). -/
def byteRB : Byte := 0x5D#8

/-- A byte is special if it is LB, BS or RB (42_tree_serdes, introduction). -/
def isSpecial (x : Byte) : Bool := x = byteLB || x = byteBS || x = byteRB

/-- SerLen (R141), the length of the tree string. -/
def serLength : CodeTree → Nat
  | .leaf x => if isSpecial x then 2 else 1
  | .node l r => 2 + serLength l + serLength r

/-- Ser (R142), the tree string. -/
def serBytes : CodeTree → List Byte
  | .leaf x => if isSpecial x then [byteBS, x] else [x]
  | .node l r => byteLB :: (serBytes l ++ serBytes r) ++ [byteRB]

/-- The loop of ScanToken (R145): `d` is the bracket depth, and the answer is how many bytes it passes over up to and
with the RB that brings the depth to 0; `none` is MALFORMED. -/
def scanBracket : Nat → List Byte → Option Nat
  | _, [] => none
  | d, c :: cs =>
    if c = byteBS then
      match cs with
      | [] => none
      | _ :: cs' => (scanBracket d cs').map (· + 2)
    else if c = byteLB then (scanBracket (d + 1) cs).map (· + 1)
    else if c = byteRB then
      if d - 1 = 0 then some 1 else (scanBracket (d - 1) cs).map (· + 1)
    else (scanBracket d cs).map (· + 1)

/-- ScanToken (R145) on the bytes IN[p..hi-1]: the length q - p of the token that starts there; `none` is MALFORMED. -/
def scanToken : List Byte → Option Nat
  | [] => none
  | c :: cs =>
    if c = byteBS then
      match cs with
      | [] => none
      | _ :: _ => some 2
    else if c = byteRB then none
    else if c ≠ byteLB then some 1
    else scanBracket 0 (c :: cs)

/-- The loop of Parse that cuts a range into its top-level tokens (R146); every token has a byte, so |r| rounds
suffice. `none` is MALFORMED. -/
def tokenise : Nat → List Byte → Option (List (List Byte))
  | _, [] => some []
  | 0, _ :: _ => none
  | n + 1, c :: cs =>
    match scanToken (c :: cs) with
    | none => none
    | some q => (tokenise n ((c :: cs).drop q)).map ((c :: cs).take q :: ·)

/-- What the checks of Parse find a range to hold (R146). -/
inductive RangeForm where
  | leaf (x : Byte)
  | pair (l r : List Byte)
  | malformed
deriving DecidableEq, Repr

/-- The checks of Parse on one range, in order (R146): its length, its brackets, its tokens. A lone special byte is
malformed (90_conflicts C1); an escape of any byte is a leaf (90_conflicts C2). -/
def rangeForm (r : List Byte) : RangeForm :=
  match r with
  | [] => .malformed
  | [x] => if isSpecial x then .malformed else .leaf x
  | c :: x :: rest =>
    if c = byteBS ∧ rest = [] then .leaf x
    else if c ≠ byteLB ∨ r.getLast? ≠ some byteRB then .malformed
    else
      match tokenise (x :: rest).dropLast.length (x :: rest).dropLast with
      | some [a, b] => .pair a b
      | _ => .malformed

/-- `NODE[k].left <- l; NODE[k].right <- r` (R146). -/
def setChildren (k l r : Nat) (s : State) : State :=
  { s with nodes := s.nodes.modify k fun n => { n with left := l, right := r } }

/-- Parse (R146) on the bytes of a range, nodes allocated in preorder. A child's range is shorter than its parent's, so
|r| levels suffice; at 0 levels the range is empty. -/
def parse : Nat → List Byte → State → Cmd Nat
  | 0, _, s => .raised .malformedTreeString s
  | fuel + 1, r, s =>
    match rangeForm r with
    | .malformed => .raised .malformedTreeString s
    | .leaf x => allocNode .leaf x 0#64 0 0 (markPresent x s)
    | .pair a b =>
      (allocNode .internal 0#8 0#64 0 0 s).andThen fun k t =>
        (parse fuel a t).andThen fun l u =>
          (parse fuel b u).andThen fun r v =>
            .done k (setChildren k l r v)

/-- "on any error: TreeClearState() again, then the error is latched" (R147). -/
def clearOnError (c : Cmd Nat) : Cmd Nat :=
  match c with
  | .done k s => .done k s
  | .raised e s => .raised e (treeClearState s)
  | .broken => .broken

/-- SER_LEN (R143). -/
def execSerLen (s : State) : Host.Outcome State Fault Refusal :=
  finish Opcode.serLen <|
    if s.rootValid = false then .raised .noTree s
    else
      match treeOf s s.root with
      | none => .broken
      | some t => .done () { s with result := regWord (serLength t) }

/-- SERIALIZE (R144): all L bytes or none. -/
def execSerialize (s : State) : Host.Outcome State Fault Refusal :=
  finish Opcode.serialize <|
    if s.rootValid = false then .raised .noTree s
    else
      match treeOf s s.root with
      | none => .broken
      | some t =>
        if outRoom s (serLength t) = false then .raised .capacityExceeded s
        else
          (outAppend (serBytes t) s).andThen fun _ u =>
            .done () { u with result := regWord (serLength t) }

/-- DESERIALIZE (R147). -/
def execDeserialize (s : State) : Host.Outcome State Fault Refusal :=
  finish Opcode.deserialize <|
    match memRead s s.rdPtr.toNat (argNat s) with
    | none => .raised .truncatedInput s
    | some bytes =>
      (clearOnError (parse bytes.length bytes (treeClearState s))).andThen fun k t =>
        .done () { setRoot k { t with list := [k] } with rdPtr := BitVec.ofNat 64 (s.rdPtr.toNat + argNat s) }

end Sys2Proof.Machine
end

