-- ==== Sys2Proof/Machine/Dispatch.lean ====
section
/-! DEFINITION. One arm per command: the meaning each calls (60_exceptions R193, "execute the command's rule"). -/

namespace Sys2Proof.Machine

def exec (i : Instr) (s : State) : Host.Outcome State Fault Refusal :=
  match i with
  | .nop => Sys2Proof.Machine.execNop s
  | .treeClear => Sys2Proof.Machine.execTreeClear s
  | .leafPush sym => Sys2Proof.Machine.execLeafPush sym s
  | .merge => Sys2Proof.Machine.execMerge s
  | .build => Sys2Proof.Machine.execBuild s
  | .genCodes => Sys2Proof.Machine.execGenCodes s
  | .serLen => Sys2Proof.Machine.execSerLen s
  | .serialize => Sys2Proof.Machine.execSerialize s
  | .deserialize => Sys2Proof.Machine.execDeserialize s
  | .packBit bit => Sys2Proof.Machine.execPackBit bit s
  | .packSymbol sym => Sys2Proof.Machine.execPackSymbol sym s
  | .packStream => Sys2Proof.Machine.execPackStream s
  | .flush force => Sys2Proof.Machine.execFlush force s
  | .readBit => Sys2Proof.Machine.execReadBit s
  | .decode => Sys2Proof.Machine.execDecode s
  | .emitU64 => Sys2Proof.Machine.execEmitU64 s
  | .loadU64 => Sys2Proof.Machine.execLoadU64 s
  | .bitsFromPtr => Sys2Proof.Machine.execBitsFromPtr s

end Sys2Proof.Machine
end

