-- ==== Sys2Proof/Machine/Flags.lean ====
section
/-! DEFINITION. The flags: each bit of STATUS (10_state R26) and the encoding of ERR_CODE (10_state R27, 60_exceptions
R191). The core has no arithmetic flags. -/

namespace Sys2Proof.Machine

/-- STATUS.BUSY: the pending slot is full (10_state R50). -/
def busy (s : State) : Bool := s.pending.isSome

/-- STATUS.ERROR: an error is latched (60_exceptions R192). -/
def errorLatched (s : State) : Bool := s.err.isSome

/-- STATUS.ROOT_IS_LEAF: ROOT_VALID = 1 and NODE[ROOT] is a leaf (10_state R26). -/
def rootIsLeaf (s : State) : Bool :=
  s.rootValid &&
    match s.nodes[s.root]? with
    | none => false
    | some n => n.kind = .leaf

/-- STATUS.OUT_NONEMPTY (10_state R26). -/
def outNonempty (s : State) : Bool := !s.out.isEmpty

/-- STATUS.IN_FULL: IN_LEN = IN_CAP (10_state R26). -/
def inFull (s : State) : Bool := s.inBuf.length = s.cfg.inCap

/-- The STATUS register, bit 7 first (10_state R26). -/
def statusWord (s : State) : Word :=
  0#56 ++ BitVec.ofBool (inFull s) ++ BitVec.ofBool (outNonempty s) ++ BitVec.ofBool s.ctValid
    ++ BitVec.ofBool (rootIsLeaf s) ++ BitVec.ofBool s.rootValid ++ BitVec.ofBool s.hostDrop
    ++ BitVec.ofBool (errorLatched s) ++ BitVec.ofBool (busy s)

/-- The value of ERR_CODE.CODE for an error (60_exceptions R191). -/
def errorNumber : ErrorCode → Byte
  | .emptyInput => 0x01#8
  | .ioFailure => 0x02#8
  | .malformedTreeString => 0x03#8
  | .unexpectedBitValue => 0x04#8
  | .capacityExceeded => 0x05#8
  | .illegalCommand => 0x10#8
  | .noTree => 0x11#8
  | .symbolNotInTable => 0x12#8
  | .truncatedInput => 0x13#8
  | .weightOverflow => 0x14#8
  | .duplicateSymbol => 0x15#8
  | .codeTooLong => 0x16#8

/-- The ERR_CODE register (10_state R27): OP in bits 15..8, CODE in bits 7..0, and 0 while no error is latched. -/
def errCodeWord (s : State) : Word :=
  match s.err with
  | none => 0#64
  | some l => 0#48 ++ l.op ++ errorNumber l.code

/-- The PACK_STATE register (10_state R37): CNT in bits 11..8, ACC in bits 7..0. -/
def packStateWord (s : State) : Word := 0#52 ++ BitVec.ofNat 4 s.cnt.val ++ s.acc

end Sys2Proof.Machine
end

