-- ==== Sys2Proof/Machine/HostBus.lean ====
section
/-! DEFINITION. What the host's accesses do (10_state R22 to R42, 20_memory R57 and R65): the register map, reading and
writing a register while the core is idle, and the rules while it is busy. -/

namespace Sys2Proof.Machine

/-- The registers of 10_state R22. -/
inductive Reg where
  | id | ctrl | status | errCode | cmd | arg | result | root
  | nodeCount | listLen | rdPtr | inLen | inData | bitIdx | cursor | packState
  | outData | outLevel | nodeSel | nodeInfo | nodeLeft | nodeRight | nodeWeight | listSel
  | listEntry | codeSel | codeInfo | codeWord | reserved
deriving DecidableEq, Repr

/-- The register map (10_state R22): the register at offset 8 * i is element i. -/
def registerMap : List Reg :=
  [.id, .ctrl, .status, .errCode, .cmd, .arg, .result, .root,
   .nodeCount, .listLen, .rdPtr, .inLen, .inData, .bitIdx, .cursor, .packState,
   .outData, .outLevel, .nodeSel, .nodeInfo, .nodeLeft, .nodeRight, .nodeWeight, .listSel,
   .listEntry, .codeSel, .codeInfo, .codeWord, .reserved, .reserved, .reserved, .reserved]

/-- The register a host access names (20_memory R57): offset o is at host address BASE + o, and only aligned 64-bit
accesses at offsets 0x00..0xF8 are admitted; `none` for any other access. -/
def regAt (p : Config.Params) (width addr : Nat) : Option Reg :=
  if width = 64 ∧ p.base ≤ addr ∧ (addr - p.base) % 8 = 0 then registerMap[(addr - p.base) / 8]?
  else none

/-- NODE_INFO of an entry (10_state R40): SYMBOL in bits 15..8, INTERNAL in bit 1, EXISTS in bit 0. -/
def nodeInfoWord (n : Node) : Word :=
  0#48 ++ n.sym ++ 0#6 ++ BitVec.ofBool (n.kind = .internal) ++ 1#1

/-- CODE_SEL's field SYM (10_state R42). -/
def codeSelSym (s : State) : Byte := s.codeSel.extractLsb' 0 8

/-- CODE_SEL's field WORD (10_state R42). -/
def codeSelWord (s : State) : Nat := (s.codeSel.extractLsb' 8 2).toNat

/-- CODE_INFO (10_state R42): LEN in bits 15..8, VALID in bit 0; 0 for an invalid entry. -/
def codeInfoWord (s : State) : Word :=
  match codeOf s (codeSelSym s) with
  | none => 0#64
  | some bits => 0#48 ++ BitVec.ofNat 8 bits.length ++ 1#8

/-- 64 code bits from code bit 64 * w, code bit j at register bit 63 - (j - 64 * w), the rest 0 (10_state R42,
20_memory R60). -/
def codeBitsWord (bits : Code) (w : Nat) : Word :=
  BitVec.ofNat 64 ((List.range 64).foldl (fun v i => 2 * v + (bits.getD (64 * w + i) false).toNat) 0)

/-- CODE_WORD (10_state R42); 0 for an invalid entry. -/
def codeWordWord (s : State) : Word :=
  match codeOf s (codeSelSym s) with
  | none => 0#64
  | some bits => codeBitsWord bits (codeSelWord s)

/-- A register of the node read window: `f` of the selected entry, 0 where it is not allocated (10_state R40). -/
def nodeWindow (s : State) (f : Node → Word) : Word :=
  match s.nodes[s.nodeSel.toNat]? with
  | none => 0#64
  | some n => f n

/-- LIST_ENTRY (10_state R41). -/
def listEntryWord (s : State) : Word :=
  match s.list[s.listSel.toNat]? with
  | none => 0#64
  | some k => regWord k

/-- OUT_DATA (10_state R38): VALID in bit 8 over the byte at the head of OUT, or 0 where OUT is empty. -/
def outDataWord (s : State) : Word :=
  match s.out with
  | [] => 0#64
  | b :: _ => 0#55 ++ 1#1 ++ b

/-- What a read returns while the core is idle (10_state R23). Numbers are shown by `regWord` (log 7). -/
def regValue (s : State) : Reg → Word
  | .id => Config.idValue
  | .ctrl => 0#64
  | .status => statusWord s
  | .errCode => errCodeWord s
  | .cmd => 0#64
  | .arg => s.arg
  | .result => s.result
  | .root => regWord s.root
  | .nodeCount => regWord s.nodes.length
  | .listLen => regWord s.list.length
  | .rdPtr => s.rdPtr
  | .inLen => regWord s.inBuf.length
  | .inData => 0#64
  | .bitIdx => regWord s.bitIdx
  | .cursor => regWord s.cursor
  | .packState => packStateWord s
  | .outData => outDataWord s
  | .outLevel => regWord s.out.length
  | .nodeSel => s.nodeSel
  | .nodeInfo => nodeWindow s nodeInfoWord
  | .nodeLeft => nodeWindow s fun n => regWord n.left
  | .nodeRight => nodeWindow s fun n => regWord n.right
  | .nodeWeight => nodeWindow s fun n => n.weight
  | .listSel => s.listSel
  | .listEntry => listEntryWord s
  | .codeSel => 0#54 ++ s.codeSel
  | .codeInfo => codeInfoWord s
  | .codeWord => codeWordWord s
  | .reserved => 0#64

/-- The value a host read returns (10_state R23, 20_memory R65): while busy, STATUS reads and every other register
returns 0. -/
def readValue (r : Reg) (s : State) : Word :=
  if busy s then (if r = .status then statusWord s else 0#64) else regValue s r

/-- What a host read does to the core (10_state R23, R38): only a read of OUT_DATA while idle has an effect. -/
def readEffect (r : Reg) (s : State) : State :=
  if busy s = false ∧ r = .outData then outPop s else s

/-- A host read: its effect, and its value added to what the host has seen (log 3). -/
def hostRead (r : Reg) (s : State) : State :=
  { readEffect r s with seen := s.seen ++ [readValue r s] }

/-- A write of CTRL while the core is idle (10_state R25): SOFT_RESET alone, or else each of the other three bits that
is set. -/
def writeCtrl (v : Word) (s : State) : State :=
  if v.getLsbD 0 then softReset s
  else
    let s1 := if v.getLsbD 1 then clearError s else s
    let s2 := if v.getLsbD 2 then inClear s1 else s1
    if v.getLsbD 3 then outClear s2 else s2

/-- A write while the core is idle (10_state R23): an RW register stores the value, a WO register has the effect its
rule gives, and a write to an RO or reserved register is ignored. -/
def writeIdle (v : Word) (s : State) : Reg → State
  | .ctrl => writeCtrl v s
  | .cmd => { s with pending := some v }
  | .arg => { s with arg := v }
  | .rdPtr => { s with rdPtr := v }
  | .inData => inAppend (v.extractLsb' 0 8) s
  | .bitIdx => { s with bitIdx := v.toNat }
  | .nodeSel => { s with nodeSel := v }
  | .listSel => { s with listSel := v }
  | .codeSel => { s with codeSel := v.extractLsb' 0 10 }
  | .id | .status | .errCode | .result | .root | .nodeCount | .listLen | .inLen | .cursor | .packState | .outData
  | .outLevel | .nodeInfo | .nodeLeft | .nodeRight | .nodeWeight | .listEntry | .codeInfo | .codeWord | .reserved => s

/-- A host write (10_state R23, 20_memory R65): while busy, a write to CTRL with SOFT_RESET resets and every other
write is dropped and sets HOST_DROP. -/
def hostWrite (r : Reg) (v : Word) (s : State) : State :=
  if busy s then
    if r = .ctrl ∧ v.getLsbD 0 = true then softReset s else { s with hostDrop := true }
  else writeIdle v s r

end Sys2Proof.Machine
end

