-- ==== Sys2Proof/Machine/Turns.lean ====
section
/-! DEFINITION. Which agent moves next and what its turn is (10_state R16, 20_memory R69, 60_exceptions R193): taking a
command from the pending slot, decoding it, and the host's accesses. -/

namespace Sys2Proof.Machine

/-- What a turn comes to. -/
inductive Move where
  /-- the turn is complete -/
  | moved (s : State)
  /-- the model has no such turn -/
  | refused (r : Refusal)
  /-- the core executes the command `i` -/
  | run (i : Instr) (s : State)

/-- The core's turn (60_exceptions R193): take the word from PENDING; drop it under the error lock; otherwise decode it
(30_encoding R78), an illegal word raising ILLEGAL_COMMAND with its OP byte. An idle core keeps all its state
(60_exceptions R205). -/
def coreMove (s : State) : Move :=
  match s.pending with
  | none => .moved s
  | some w =>
    if errorLatched s then .moved { s with pending := none }
    else
      match decodeWord w with
      | .ok i => .run i { s with pending := none }
      | .error _ => .moved (raiseError .illegalCommand (opOf w) { s with pending := none })

/-- The turn of a host access: refused where the bus does not admit it (20_memory R57). -/
def accessMove (p : Config.Params) (width addr : Nat) (f : Reg → State) : Move :=
  match regAt p width addr with
  | none => .refused .accessNotAdmitted
  | some r => .moved (f r)

/-- The next turn: the first of `turns`, or the core's where none is left (log 2). -/
def nextMove (s : State) : Move :=
  match s.turns with
  | [] => coreMove s
  | .core :: ts => coreMove { s with turns := ts }
  | .read width addr :: ts => accessMove s.cfg width addr fun r => hostRead r { s with turns := ts }
  | .write width addr v :: ts => accessMove s.cfg width addr fun r => hostWrite r v { s with turns := ts }

/-- The state with the word `w` in the pending slot and the core's turn next. -/
def issue (w : Word) (s : State) : State := { s with pending := some w, turns := .core :: s.turns }

end Sys2Proof.Machine
end

