-- ==== Sys2Proof/Machine/Step.lean ====
section
/-! DEFINITION. One step of the machine: one turn of the total order of host and core steps (20_memory R69). -/

namespace Sys2Proof.Machine

/-- One step: the next turn. A core turn with a legal command pending is `exec` of that command, whole (10_state R16). -/
def step (s : State) : Host.Outcome State Fault Refusal :=
  match nextMove s with
  | .moved t => .next t
  | .refused r => .refused r
  | .run i t => exec i t

/-- `s` with the word whose lowest `nbits` bits are `w`, the others 0, in the pending slot and the core's turn next
(log 4). -/
def State.withFetchWord (s : State) (nbits w : Nat) : State := issue (BitVec.ofNat 64 (w % 2 ^ nbits)) s

end Sys2Proof.Machine
end

