-- ==== Sys2Proof/Safety.lean ====
section
/-! DEFINITION. What counts as a good state and a good run, and the notions claims are stated in: paths and leaves of a
code tree, the tree-string grammar, packed bits, and the invariants the spec gives (10_state R37, R46, R49, R51;
00_scope R10, R11, R13, R14). -/

namespace Sys2Proof.Machine

/-- The subtree a path leads to, `false` for the left edge and `true` for the right (41_code_table R120). -/
def follow : CodeTree → Code → Option CodeTree
  | t, [] => some t
  | .leaf _, _ :: _ => none
  | .node l r, b :: p => follow (if b then r else l) p

/-- The path `p` ends at a leaf holding `x`. -/
abbrev LeafAt (t : CodeTree) (p : Code) (x : Byte) : Prop := follow t p = some (.leaf x)

/-- The leaf symbols of a tree, left before right. -/
def leaves : CodeTree → List Byte
  | .leaf x => [x]
  | .node l r => leaves l ++ leaves r

/-- Each leaf of a tree with its path behind `p`, in the order Walk visits them (41_code_table R120). -/
def leafPaths : CodeTree → Code → List (Code × Byte)
  | .leaf x, p => [(p, x)]
  | .node l r, p => leafPaths l (p ++ [false]) ++ leafPaths r (p ++ [true])

/-- The sum over the leaves of depth times count (40_tree_builder R107). -/
def weightedLength (count : Byte → Nat) (t : CodeTree) : Nat :=
  ((leafPaths t []).map fun q => q.1.length * count q.2).sum

/-- The number of nodes of a tree. -/
def treeSize : CodeTree → Nat
  | .leaf _ => 1
  | .node l r => 1 + treeSize l + treeSize r

/-- The strings Parse accepts, with the tree each stands for: the grammar of 42_tree_serdes R140, and an escape of any
byte (R150). -/
inductive TreeString : List Byte → CodeTree → Prop where
  | plain (x : Byte) (h : isSpecial x = false) : TreeString [x] (.leaf x)
  | escaped (x : Byte) : TreeString [byteBS, x] (.leaf x)
  | internal (a b : List Byte) (l r : CodeTree) (ha : TreeString a l) (hb : TreeString b r) :
      TreeString (byteLB :: (a ++ b) ++ [byteRB]) (.node l r)

/-- The arena indices of the tree of entry `k`, the root first; `none` where `readTree` gives none. -/
def treeIndices (nodes : List Node) : Nat → Nat → Option (List Nat)
  | 0, _ => none
  | fuel + 1, k =>
    match nodes[k]? with
    | none => none
    | some n =>
      match n.kind with
      | .leaf => some [k]
      | .internal =>
        match treeIndices nodes fuel n.left, treeIndices nodes fuel n.right with
        | some l, some r => some (k :: (l ++ r))
        | _, _ => none

/-- The arena indices of the trees of a list of entries, one tree after another. -/
def forestIndices (nodes : List Node) : List Nat → Option (List Nat)
  | [] => some []
  | k :: ks =>
    match treeIndices nodes nodes.length k, forestIndices nodes ks with
    | some a, some b => some (a ++ b)
    | _, _ => none

/-- The trees of a list of entries. -/
def forestOf (nodes : List Node) : List Nat → Option (List CodeTree)
  | [] => some []
  | k :: ks =>
    match readTree nodes nodes.length k, forestOf nodes ks with
    | some t, some ts => some (t :: ts)
    | _, _ => none

/-- 10_state R51 (a): every LIST entry and every child index of an internal node is below NODE_COUNT. -/
abbrev IndicesAllocated (s : State) : Prop :=
  (∀ k ∈ s.list, k < s.nodes.length) ∧
  (∀ n ∈ s.nodes, n.kind = .internal → n.left < s.nodes.length ∧ n.right < s.nodes.length)

/-- 10_state R51 (b): the subtrees at the LIST entries are finite and acyclic, and no node occurs twice in them (so
they are pairwise disjoint and every node has one parent). -/
abbrev ForestStrict (s : State) : Prop :=
  match forestIndices s.nodes s.list with
  | none => False
  | some ks => ks.Nodup

/-- 10_state R51 (c): with ROOT_VALID = 1 the list is [ROOT], and CURSOR is a node of the tree rooted at ROOT. -/
abbrev RootListed (s : State) : Prop :=
  s.rootValid = true → s.list = [s.root] ∧
    match treeIndices s.nodes s.nodes.length s.root with
    | none => False
    | some ks => s.cursor ∈ ks

/-- The tree invariants of 10_state R51. -/
abbrev TreeInvariant (s : State) : Prop := IndicesAllocated s ∧ ForestStrict s ∧ RootListed s

/-- The code table belongs to the current tree (10_state R46, R49, 41_code_table R124): with CT_VALID = 0 every entry
is invalid, and with CT_VALID = 1 the tree is complete and entry x holds p exactly where p is the path to a leaf x. -/
def TableInvariant (s : State) : Prop :=
  (s.ctValid = false → ∀ x, codeOf s x = none) ∧
  (s.ctValid = true → s.rootValid = true ∧
    ∃ t, treeOf s s.root = some t ∧ ∀ x p, codeOf s x = some p ↔ LeafAt t p x)

/-- The packer's invariant (10_state R37): the bits of ACC at positions 7 - CNT down to 0 are 0. -/
abbrev PackerInvariant (s : State) : Prop := ∀ i < 8 - s.cnt.val, s.acc.getLsbD i = false

/-- Every store is within its capacity (00_scope R10, R11, R13, R14). -/
abbrev WithinCapacity (s : State) : Prop :=
  s.nodes.length ≤ s.cfg.nodeCap ∧ s.list.length ≤ Config.listCap ∧ Memory.wf s = true

/-- IO_FAILURE, the reserved code of 60_exceptions R191, is not latched. -/
abbrev NoReservedError (s : State) : Prop := ∀ l, s.err = some l → l.code ≠ .ioFailure

/-- BIT_IDX is at most 2^64, the bit position behind the largest IN (00_scope R13, 44_bit_unpacker R163). -/
abbrev PointerInRange (s : State) : Prop := s.bitIdx ≤ 2 ^ 64

/-- A good state: legal parameters and every invariant of the spec. -/
def Good (s : State) : Prop :=
  s.cfg.Wf ∧ TreeInvariant s ∧ TableInvariant s ∧ PackerInvariant s ∧ WithinCapacity s ∧ NoReservedError s ∧
    PointerInRange s

/-- The bits the packer holds, the first pushed first (10_state R37, 43_bit_packer R151). -/
def accBits (s : State) : Code := (List.range s.cnt.val).map fun i => s.acc.getLsbD (7 - i)

/-- Byte `k` of a bit sequence cut into bytes MSB-first, a missing bit read as 0 (43_bit_packer R156). -/
def packedByte (bits : Code) (k : Nat) : Byte :=
  BitVec.ofNat 8 ((List.range 8).foldl (fun v i => 2 * v + (bits.getD (8 * k + i) false).toNat) 0)

/-- The first `n` bytes of a bit sequence cut into bytes MSB-first. -/
def packedPrefix (bits : Code) (n : Nat) : List Byte := (List.range n).map (packedByte bits)

/-- A bit sequence cut into bytes MSB-first, the last byte padded with 0 bits (43_bit_packer R156). -/
def packedBytes (bits : Code) : List Byte := packedPrefix bits ((bits.length + 7) / 8)

/-- The codes of a sequence of symbols, concatenated; `none` where a symbol has no valid code. -/
def codesOf (s : State) : List Byte → Option Code
  | [] => some []
  | x :: xs =>
    match codeOf s x, codesOf s xs with
    | some b, some bs => some (b ++ bs)
    | _, _ => none

/-- The state after a packer command has pushed the bits `bits` and every completed byte has gone to OUT. -/
def packed (bits : Code) (s : State) : State :=
  let all := accBits s ++ bits
  { s with
    out := s.out ++ packedPrefix all (all.length / 8)
    acc := packedByte all (all.length / 8)
    cnt := Fin.ofNat 8 all.length }

/-- The errors each command may raise when it runs (60_exceptions R191, the column "raised by"). -/
def errorsOf : Instr → List ErrorCode
  | .nop => []
  | .treeClear => []
  | .leafPush _ => [.duplicateSymbol, .capacityExceeded]
  | .merge => [.emptyInput, .weightOverflow, .capacityExceeded]
  | .build => [.emptyInput, .weightOverflow, .capacityExceeded]
  | .genCodes => [.noTree, .codeTooLong, .duplicateSymbol]
  | .serLen => [.noTree]
  | .serialize => [.noTree, .capacityExceeded]
  | .deserialize => [.truncatedInput, .malformedTreeString, .capacityExceeded]
  | .packBit _ => [.unexpectedBitValue, .capacityExceeded]
  | .packSymbol _ => [.symbolNotInTable, .capacityExceeded]
  | .packStream => [.truncatedInput, .symbolNotInTable, .capacityExceeded]
  | .flush _ => [.capacityExceeded]
  | .readBit => [.truncatedInput]
  | .decode => [.noTree, .truncatedInput, .capacityExceeded]
  | .emitU64 => [.capacityExceeded]
  | .loadU64 => [.truncatedInput]
  | .bitsFromPtr => []

/-- The arena DESERIALIZE lays a tree out in, its root at index `b`: preorder, weights 0, `sym` 0 on internal nodes
(42_tree_serdes R146, 10_state R43). -/
def preorder : CodeTree → Nat → List Node
  | .leaf x, _ => [{ kind := .leaf, sym := x, weight := 0#64, left := 0, right := 0 }]
  | .node l r, b =>
    { kind := .internal, sym := 0#8, weight := 0#64, left := b + 1, right := b + 1 + treeSize l }
      :: (preorder l (b + 1) ++ preorder r (b + 1 + treeSize l))

/-- The core has the next turn (10_state R16): it is named next, or no turn is left. -/
abbrev CoreNext (s : State) : Prop := s.turns = [] ∨ s.turns.head? = some .core

/-- The state in which the core has taken its turn and the word from the pending slot (60_exceptions R193). -/
def taken (s : State) : State := { s with pending := none, turns := s.turns.tail }

/-- The step in which the host reads the register at `off`, ahead of the turns of `s`. -/
def readStep (off : Nat) (s : State) : Host.Outcome State Fault Refusal :=
  step { s with turns := .read 64 (s.cfg.base + off) :: s.turns }

/-- The step in which the host writes `v` to the register at `off`, ahead of the turns of `s`. -/
def writeStep (off : Nat) (v : Word) (s : State) : Host.Outcome State Fault Refusal :=
  step { s with turns := .write 64 (s.cfg.base + off) v :: s.turns }

/-- The host has read `v`, and nothing else has changed. -/
def sawOnly (v : Word) (s : State) : State := { s with seen := s.seen ++ [v] }

/-- The bits of IN from stream bit BIT_IDX on begin with `bits` (20_memory R59). -/
def StreamHolds (s : State) (bits : Code) : Prop :=
  ∀ i (h : i < bits.length), readStreamBit s (s.bitIdx + i) = some bits[i]

/-- `bits` are the paths from the root of `t` to leaves holding the symbols of `xs`, one after another. -/
def Spells (t : CodeTree) : List Byte → Code → Prop
  | [], bits => bits = []
  | x :: xs, bits => ∃ p rest, bits = p ++ rest ∧ LeafAt t p x ∧ Spells t xs rest

/-- `bits` spell `xs` for a walk that starts at the subtree `c` of `t`, and `d` is the tree the next symbol's walk starts
in: a path from `c` to a leaf, then paths from the root of `t` (44_bit_unpacker R162). -/
def SpellsFrom (t c : CodeTree) : List Byte → Code → CodeTree → Prop
  | [], bits, d => bits = [] ∧ d = c
  | x :: xs, bits, d => d = t ∧ ∃ p rest, bits = p ++ rest ∧ LeafAt c p x ∧ Spells t xs rest

/-- IN holds at most IN_CAP bytes and IN_CAP is legal (00_scope R13): no byte index of IN reaches 2^64. -/
abbrev InBounded (s : State) : Prop := s.inBuf.length ≤ 2 ^ 61

end Sys2Proof.Machine
end

