-- ==== Sys2Proof/Certificates/Slice0/Obligations.lean ====
section
/-! DEFINITION. The statements for the provers, from the numbered rules of spec/. -/

open Sys2Proof Sys2Proof.Machine

/-! ### Encoding (30_encoding) -/

/-- Words of 95_test_vectors 2.1 and 3, and what each decodes to (30_encoding R74, R76, R79). -/
def Obligations.SampleWordsDecode : Prop :=
  decodeWord 0x0000000000000000#64 = .ok .nop ∧
  decodeWord 0x0000000000004110#64 = .ok (.leafPush 0x41#8) ∧
  decodeWord 0x0000000000000012#64 = .ok .build ∧
  decodeWord 0x0000000000000020#64 = .ok .genCodes ∧
  decodeWord 0x0000000000000032#64 = .ok .deserialize ∧
  decodeWord 0x0000000000000240#64 = .ok (.packBit 2#8) ∧
  decodeWord 0x0000000000000143#64 = .ok (.flush 1#8) ∧
  decodeWord 0x0000000000000051#64 = .ok .decode ∧
  decodeWord 0x0000000000000062#64 = .ok .bitsFromPtr ∧
  decodeWord 0x0000000000010000#64 = .error .reservedBits ∧
  decodeWord 0x00000000000000FF#64 = .error .unknownOpcode ∧
  decodeWord 0x0000000000000243#64 = .error .flushForce ∧
  decodeWord 0x0000000000000111#64 = .error .unusedImm

/-- Every well-formed command is what its word decodes to, and every legal word is the word of the command it decodes to,
which is well formed: commands and legal words match one to one (30_encoding R74, R76, R78, R79). -/
def Obligations.CommandsAndLegalWordsMatch : Prop :=
  (∀ i : Instr, i.wellFormed = true → decodeWord (encode i) = .ok i) ∧
  (∀ (w : Word) (i : Instr), decodeWord w = .ok i → encode i = w ∧ i.wellFormed = true)

/-- 30_encoding R78, steps 1 to 5, for a core step with no error latched: a word with a non-zero RSV, with an opcode that
is none of the 18, FLUSH with IMM above 1, and a non-zero IMM on an opcode that does not use it, each latch
ILLEGAL_COMMAND with the word's OP and change nothing else; any other word runs the command of its OP and IMM. -/
def Obligations.DecodeChecksOfACoreStep : Prop :=
  ∀ (s : State) (w : Word), CoreNext s → s.pending = some w → s.err = none →
    let op := (w.toNat % 256)
    let imm := (w.toNat / 256 % 256)
    let illegal : Prop :=
      w.toNat / 65536 ≠ 0 ∨
      op ∉ [0x00, 0x01, 0x10, 0x11, 0x12, 0x20, 0x30, 0x31, 0x32, 0x40, 0x41, 0x42, 0x43, 0x50, 0x51, 0x60, 0x61, 0x62] ∨
      (op = 0x43 ∧ 1 < imm) ∨
      (op ∉ [0x10, 0x41, 0x40, 0x43] ∧ imm ≠ 0)
    (illegal → step s = .next { taken s with err := some { code := .illegalCommand, op := BitVec.ofNat 8 op } }) ∧
    (¬ illegal → ∃ i : Instr, i.opcode.toNat = op ∧ i.imm.toNat = imm ∧ i.wellFormed = true ∧ step s = exec i (taken s))

/-! ### The core step (60_exceptions R193) -/

/-- 60_exceptions R193: a core step with no error latched runs the command its word decodes to, on the state with the
pending slot emptied. -/
def Obligations.StepRunsTheDecodedCommand : Prop :=
  ∀ (s : State) (w : Word) (i : Instr), CoreNext s → s.pending = some w → s.err = none → decodeWord w = .ok i →
    step s = exec i (taken s)

/-- 60_exceptions R193's error lock: while ERROR = 1 a core step empties the pending slot, whatever word is in it, and does
nothing else. With nothing pending a core turn changes nothing but the list of turns: the model's choice (log 2), from
60_exceptions R205 "An idle core (PENDING empty) keeps all its state". -/
def Obligations.LockedOrIdleCoreDoesNothing : Prop :=
  (∀ (s : State) (w : Word) (l : ErrLatch), CoreNext s → s.pending = some w → s.err = some l →
    step s = .next (taken s)) ∧
  (∀ s : State, CoreNext s → s.pending = none → step s = .next { s with turns := s.turns.tail })

/-! ### Control and framing (45_control_framing) -/

/-- NOP has no effect (45_control_framing R170). -/
def Obligations.NopHasNoEffect : Prop :=
  encode .nop = 0#64 ∧ ∀ s : State, exec .nop s = .next s

/-- TREE_CLEAR empties the arena, the list, SYM_PRESENT and the code table, clears ROOT_VALID, CT_VALID, ROOT and
CURSOR, and touches nothing else (45_control_framing R171, 10_state R45, R46). -/
def Obligations.TreeClearDiscardsTreeAndTable : Prop :=
  ∀ s : State, ∃ t, exec .treeClear s = .next t ∧
    t = { s with nodes := [], list := [], symPresent := 0#256, rootValid := false, root := 0, cursor := 0,
                 ct := t.ct, ctValid := false } ∧
    ∀ x, codeOf t x = none

/-- EMIT_U64 appends byte k = bits 8k+7..8k of ARG for k = 0..7 where OUT has room for 8 bytes, and otherwise latches
CAPACITY_EXCEEDED and emits nothing (45_control_framing R172, 20_memory R58). Room for n bytes is 20_memory R55's: OUT_CAP
is UNBOUNDED, or OUT_LEVEL + n is at most OUT_CAP. -/
def Obligations.EmitAppendsEightLittleEndianBytes : Prop :=
  ∀ s : State,
    (∀ n, outRoom s n = true ↔ s.cfg.outCap = none ∨ ∃ cap, s.cfg.outCap = some cap ∧ s.out.length + n ≤ cap) ∧
    (outRoom s 8 = true →
      exec .emitU64 s = .next { s with out := s.out ++
        [s.arg.extractLsb' 0 8, s.arg.extractLsb' 8 8, s.arg.extractLsb' 16 8, s.arg.extractLsb' 24 8,
         s.arg.extractLsb' 32 8, s.arg.extractLsb' 40 8, s.arg.extractLsb' 48 8, s.arg.extractLsb' 56 8] }) ∧
    (outRoom s 8 = false → exec .emitU64 s = .next { s with err := some { code := .capacityExceeded, op := 0x60#8 } })

/-- LOAD_U64 puts the 8 bytes at RD_PTR into RESULT, the byte at RD_PTR lowest, and advances RD_PTR by 8; with fewer than
8 bytes left, compared on unbounded naturals, it latches TRUNCATED_INPUT and changes nothing else
(45_control_framing R173, 20_memory R54, R58). -/
def Obligations.LoadReadsEightLittleEndianBytes : Prop :=
  ∀ s : State,
    (∀ x0 x1 x2 x3 x4 x5 x6 x7 : Byte,
      (s.inBuf.drop s.rdPtr.toNat).take 8 = [x0, x1, x2, x3, x4, x5, x6, x7] →
      exec .loadU64 s =
        .next { s with result := x7 ++ x6 ++ x5 ++ x4 ++ x3 ++ x2 ++ x1 ++ x0, rdPtr := s.rdPtr + 8#64 }) ∧
    (s.inBuf.length < s.rdPtr.toNat + 8 →
      exec .loadU64 s = .next { s with err := some { code := .truncatedInput, op := 0x61#8 } })

/-- BITS_FROM_PTR sets BIT_IDX to 8 * RD_PTR modulo 2^64 and changes nothing else, in every state
(45_control_framing R174). -/
def Obligations.BitsFromPtrWrapsModulo64Bits : Prop :=
  encode .bitsFromPtr = 0x62#64 ∧
  ∀ s : State, ∃ i, exec .bitsFromPtr s = .next { s with bitIdx := i } ∧ i < 2 ^ 64 ∧
    ∃ wraps, 8 * s.rdPtr.toNat = i + 2 ^ 64 * wraps

/-! ### The Tree Builder (40_tree_builder) -/

/-- LEAF_PUSH (40_tree_builder R104) of an absent symbol, with room in the list and the arena, appends a leaf of weight ARG
to both, marks the symbol present, clears ROOT_VALID and invalidates the code table. -/
def Obligations.LeafPushAddsALeaf : Prop :=
  ∀ (s : State) (x : Byte), isPresent s x = false → s.list.length ≠ 256 → s.nodes.length ≠ s.cfg.nodeCap →
    ∃ t, exec (.leafPush x) s = .next t ∧
      t = { s with
            nodes := s.nodes ++ [{ kind := .leaf, sym := x, weight := s.arg, left := 0, right := 0 }]
            list := s.list ++ [s.nodes.length]
            symPresent := t.symPresent
            rootValid := false
            ct := t.ct
            ctValid := false } ∧
      (∀ y, isPresent t y = (isPresent s y || y == x)) ∧ ∀ y, codeOf t y = none

/-- Select2 (40_tree_builder R100) answers two different positions: the lowest position of the least weight, and the
lowest position of the least weight among the others. -/
def Obligations.SelectTakesTheTwoLightestInListOrder : Prop :=
  ∀ ws : List Nat, 2 ≤ ws.length →
    let i1 := (select2 ws).1
    let i2 := (select2 ws).2
    i1 < ws.length ∧ i2 < ws.length ∧ i2 ≠ i1 ∧
    (∀ j (h : j < ws.length), ws.getD i1 0 ≤ ws[j] ∧ (ws[j] = ws.getD i1 0 → i1 ≤ j)) ∧
    (∀ j (h : j < ws.length), j ≠ i1 → ws.getD i2 0 ≤ ws[j] ∧ (ws[j] = ws.getD i2 0 → i2 ≤ j))

/-- MERGE of a list of two or more entries (40_tree_builder R100, R102, R103, R105): with i1 the first-selected and i2
the second-selected position, a new internal node with left child LIST[i1], right child LIST[i2] and their weights' sum
goes to the tail of the list, the two positions leave it, the code table is invalidated, and the node becomes the root
exactly where it is then the only entry. -/
def Obligations.MergeJoinsTheTwoLightest : Prop :=
  ∀ (s : State) (i1 i2 a b : Nat) (na nb : Node), 2 ≤ s.list.length →
    (∀ k ∈ s.list, k < s.nodes.length) →
    i1 ≠ i2 → s.list[i1]? = some a → s.list[i2]? = some b → s.nodes[a]? = some na → s.nodes[b]? = some nb →
    (∀ j k n, s.list[j]? = some k → s.nodes[k]? = some n →
      na.weight ≤ n.weight ∧ (n.weight = na.weight → i1 ≤ j)) →
    (∀ j k n, j ≠ i1 → s.list[j]? = some k → s.nodes[k]? = some n →
      nb.weight ≤ n.weight ∧ (n.weight = nb.weight → i2 ≤ j)) →
    na.weight.toNat + nb.weight.toNat < 2 ^ 64 → s.nodes.length ≠ s.cfg.nodeCap →
    let k := s.nodes.length
    let kept := (List.range s.list.length).filterMap fun j => if j = i1 ∨ j = i2 then none else s.list[j]?
    ∃ t, exec .merge s = .next t ∧
      t = { s with
            nodes := s.nodes ++ [{ kind := .internal, sym := 0#8, weight := na.weight + nb.weight, left := a, right := b }]
            list := kept ++ [k]
            rootValid := decide (s.list.length = 2)
            root := if s.list.length = 2 then k else s.root
            cursor := if s.list.length = 2 then k else s.cursor
            ct := t.ct
            ctValid := false } ∧
      ∀ x, codeOf t x = none

/-- MERGE of a one-entry list makes the entry the root and changes nothing else, the code table included
(40_tree_builder R105, 10_state R47). -/
def Obligations.MergeOfOneEntrySetsTheRoot : Prop :=
  ∀ (s : State) (k : Nat), s.list = [k] → exec .merge s = .next { s with root := k, rootValid := true, cursor := k }

/-- MERGE and BUILD on an empty list latch EMPTY_INPUT, and GEN_CODES, SER_LEN, SERIALIZE and DECODE with ROOT_VALID = 0
latch NO_TREE; nothing else changes (60_exceptions R191, 40_tree_builder R105, R106, 41_code_table R121, 42_tree_serdes
R143, R144, 44_bit_unpacker R163). -/
def Obligations.MissingListOrTreeIsAnError : Prop :=
  (∀ s : State, s.list = [] →
    exec .merge s = .next { s with err := some { code := .emptyInput, op := 0x11#8 } } ∧
    exec .build s = .next { s with err := some { code := .emptyInput, op := 0x12#8 } }) ∧
  (∀ s : State, s.rootValid = false →
    exec .genCodes s = .next { s with err := some { code := .noTree, op := 0x20#8 } } ∧
    exec .serLen s = .next { s with err := some { code := .noTree, op := 0x30#8 } } ∧
    exec .serialize s = .next { s with err := some { code := .noTree, op := 0x31#8 } } ∧
    exec .decode s = .next { s with err := some { code := .noTree, op := 0x51#8 } })

/-- BUILD of a list of n allocated entries whose weights sum below 2^64, with room for n - 1 nodes, runs n - 1 rounds:
it appends n - 1 internal nodes, leaves one entry, makes it the root, and the root's weight is the sum
(40_tree_builder R106). A list of one entry keeps its code table. -/
def Obligations.BuildLeavesOneRoot : Prop :=
  ∀ (s : State) (ws : List Nat), s.list ≠ [] → weightsOf s.nodes s.list = some ws → ws.sum < 2 ^ 64 →
    s.nodes.length + s.list.length ≤ s.cfg.nodeCap + 1 →
    ∃ t k added, exec .build s = .next t ∧
      t = { s with nodes := s.nodes ++ added, list := [k], root := k, rootValid := true, cursor := k,
                   ct := t.ct, ctValid := s.ctValid && decide (s.list.length = 1) } ∧
      added.length + 1 = s.list.length ∧ (∀ n ∈ added, n.kind = .internal ∧ n.sym = 0#8) ∧
      weightsOf t.nodes [k] = some [ws.sum] ∧
      (s.list.length = 1 → t.ct = s.ct) ∧ (2 ≤ s.list.length → ∀ x, codeOf t x = none)

/-- The tree BUILD makes holds the leaf symbols of the listed trees, each as often as they do (40_tree_builder R102,
R106). -/
def Obligations.BuildKeepsEveryLeaf : Prop :=
  ∀ (s t : State) (trees : List CodeTree), s.err = none → s.list ≠ [] → forestOf s.nodes s.list = some trees →
    exec .build s = .next t → t.err = none →
    ∃ u, treeOf t t.root = some u ∧ (leaves u).Perm (trees.flatMap leaves)

/-- 40_tree_builder R107: of all binary trees over the same distinct symbols, the tree BUILD makes of their leaves has
the least sum of depth times count, and a symbol's depth is its code's length (41_code_table R120). -/
def Obligations.BuiltTreeIsOptimal : Prop :=
  ∀ (s t : State) (count : Byte → Nat) (trees : List CodeTree) (u v : CodeTree), s.err = none → 2 ≤ s.list.length →
    forestOf s.nodes s.list = some trees → (trees.flatMap leaves).Nodup →
    (∀ k ∈ s.list, ∃ n, s.nodes[k]? = some n ∧ n.kind = .leaf ∧ n.weight.toNat = count n.sym) →
    exec .build s = .next t → t.err = none → treeOf t t.root = some u → (leaves v).Perm (leaves u) →
    weightedLength count u ≤ weightedLength count v

/-- BUILD is MERGE repeated (40_tree_builder R105, R106): from two or more entries it goes on where MERGE leaves the
list, an error of a round stops it with the earlier rounds done and that round without effect. -/
def Obligations.BuildIsRepeatedMerge : Prop :=
  ∀ (s t : State), s.err = none → 2 ≤ s.list.length → exec .merge s = .next t →
    (t.err = none → 2 ≤ t.list.length → exec .build s = exec .build t) ∧
    (t.err = none → t.list.length ≤ 1 → exec .build s = .next t) ∧
    (∀ l, t.err = some l → exec .build s = .next { s with err := some { code := l.code, op := 0x12#8 } })

/-- LEAF_PUSH latches DUPLICATE_SYMBOL before CAPACITY_EXCEEDED (list full or arena full), and a round of MERGE latches
WEIGHT_OVERFLOW before CAPACITY_EXCEEDED (arena full); nothing else changes (40_tree_builder R102, R104, 60_exceptions
R194). -/
def Obligations.TreeBuilderErrorsInOrder : Prop :=
  (∀ (s : State) (x : Byte), isPresent s x = true →
    exec (.leafPush x) s = .next { s with err := some { code := .duplicateSymbol, op := 0x10#8 } }) ∧
  (∀ (s : State) (x : Byte), isPresent s x = false → s.list.length = 256 ∨ s.nodes.length = s.cfg.nodeCap →
    exec (.leafPush x) s = .next { s with err := some { code := .capacityExceeded, op := 0x10#8 } }) ∧
  (∀ (s : State) (ws : List Nat), 2 ≤ s.list.length → weightsOf s.nodes s.list = some ws →
    2 ^ 64 ≤ ws.getD (select2 ws).1 0 + ws.getD (select2 ws).2 0 →
    exec .merge s = .next { s with err := some { code := .weightOverflow, op := 0x11#8 } }) ∧
  (∀ (s : State) (ws : List Nat), 2 ≤ s.list.length → weightsOf s.nodes s.list = some ws →
    ws.getD (select2 ws).1 0 + ws.getD (select2 ws).2 0 < 2 ^ 64 → s.nodes.length = s.cfg.nodeCap →
    exec .merge s = .next { s with err := some { code := .capacityExceeded, op := 0x11#8 } })

/-! ### The Code Table Generator (41_code_table) -/

/-- GEN_CODES on a complete tree of distinct leaf symbols, none deeper than 255: entry x holds the path to the leaf x
and every other entry is invalid, RESULT is the number of leaves, CT_VALID is set (41_code_table R120, R121, R122). -/
def Obligations.GenCodesRecordsThePaths : Prop :=
  ∀ (s : State) (t : CodeTree), s.rootValid = true → treeOf s s.root = some t → (leaves t).Nodup →
    (∀ p x, LeafAt t p x → p.length ≤ 255) →
    ∃ u, exec .genCodes s = .next u ∧
      u = { s with ct := u.ct, ctValid := true, result := BitVec.ofNat 64 (leaves t).length } ∧
      ∀ x p, codeOf u x = some p ↔ LeafAt t p x

/-- GEN_CODES stops at the first leaf, left before right, that is deeper than 255 or repeats an earlier leaf's symbol,
the depth first; the table is left invalid and RESULT unchanged (41_code_table R120, R121). -/
def Obligations.GenCodesStopsAtTheFirstBadLeaf : Prop :=
  ∀ (s : State) (t : CodeTree) (good rest : List (Code × Byte)) (p : Code) (x : Byte),
    s.rootValid = true → treeOf s s.root = some t → leafPaths t [] = good ++ (p, x) :: rest →
    (∀ q ∈ good, q.1.length ≤ 255) → (good.map Prod.snd).Nodup → (255 < p.length ∨ x ∈ good.map Prod.snd) →
    ∃ u, exec .genCodes s = .next u ∧
      u = { s with ct := u.ct, ctValid := false,
                   err := some { code := if 255 < p.length then .codeTooLong else .duplicateSymbol, op := 0x20#8 } } ∧
      ∀ y, codeOf u y = none

/-- 41_code_table R123: after a successful GEN_CODES no valid entry's bits begin another valid entry's bits. -/
def Obligations.GeneratedCodesAreFreeOfPrefixes : Prop :=
  ∀ (s t : State) (x y : Byte) (p q : Code), s.err = none → exec .genCodes s = .next t → t.err = none →
    codeOf t x = some p → codeOf t y = some q → x ≠ y → ¬ p.IsPrefix q

/-- 41_code_table R124: after a successful GEN_CODES the valid entries are those of the leaf symbols of the tree at ROOT,
and PACK_SYMBOL and PACK_STREAM refuse any other symbol with SYMBOL_NOT_IN_TABLE. -/
def Obligations.TableCoversTheLeaves : Prop :=
  ∀ (s t : State) (u : CodeTree), s.err = none → exec .genCodes s = .next t → t.err = none → treeOf t t.root = some u →
    ∀ x, ((codeOf t x).isSome = true ↔ x ∈ leaves u) ∧
      (x ∉ leaves u →
        exec (.packSymbol x) t = .next { t with err := some { code := .symbolNotInTable, op := 0x41#8 } } ∧
        (t.arg ≠ 0#64 → t.inBuf[t.rdPtr.toNat]? = some x →
          exec .packStream t =
            .next { t with result := 0#64, err := some { code := .symbolNotInTable, op := 0x42#8 } }))

/-! ### The Tree Serializer and Deserializer (42_tree_serdes) -/

/-- 42_tree_serdes R141 and R142: the equations of Ser; |Ser(k)| = SerLen(k), whose equations follow and which for L leaves of which E are special is L + E + 2(L - 1), and
at most 769 where the symbols are distinct; and the tree string determines the tree's shape and leaf values. -/
def Obligations.TreeStringHasItsLengthAndOneTree : Prop :=
  (∀ x, serBytes (.leaf x) = if x ∈ [0x5B#8, 0x5C#8, 0x5D#8] then [0x5C#8, x] else [x]) ∧
  (∀ l r, serBytes (.node l r) = [0x5B#8] ++ serBytes l ++ serBytes r ++ [0x5D#8]) ∧
  (∀ x, serLength (.leaf x) = if x ∈ [0x5B#8, 0x5C#8, 0x5D#8] then 2 else 1) ∧
  (∀ l r, serLength (.node l r) = 2 + serLength l + serLength r) ∧
  (∀ t : CodeTree, (serBytes t).length = serLength t ∧
    serLength t = (leaves t).length + ((leaves t).filter fun x => isSpecial x).length + 2 * ((leaves t).length - 1) ∧
    ((leaves t).Nodup → serLength t ≤ 769)) ∧
  (∀ t u : CodeTree, serBytes t = serBytes u → t = u)

/-- On a complete tree, SER_LEN answers the tree string's length in RESULT; SERIALIZE with room in OUT appends the tree
string, a string of the grammar for that tree, and answers its length, and without room latches CAPACITY_EXCEEDED and
emits nothing (42_tree_serdes R140, R142 to R144). -/
def Obligations.SerializeAppendsTheTreeString : Prop :=
  ∀ (s : State) (t : CodeTree), s.rootValid = true → treeOf s s.root = some t →
    TreeString (serBytes t) t ∧
    exec .serLen s = .next { s with result := regWord (serBytes t).length } ∧
    (outRoom s (serBytes t).length = true →
      exec .serialize s =
        .next { s with out := s.out ++ serBytes t, result := regWord (serBytes t).length }) ∧
    (outRoom s (serBytes t).length = false →
      exec .serialize s = .next { s with err := some { code := .capacityExceeded, op := 0x31#8 } })

/-- DESERIALIZE of a string of the grammar (with R150's escapes of any byte) whose tree fits the arena lays the tree out
in preorder, makes entry 0 the root, marks its symbols present, discards the table and moves RD_PTR past the string
(42_tree_serdes R146, R147). -/
def Obligations.DeserializeLaysOutTheTree : Prop :=
  ∀ (s : State) (bytes : List Byte) (t : CodeTree), TreeString bytes t → treeSize t ≤ s.cfg.nodeCap →
    s.rdPtr.toNat + s.arg.toNat ≤ s.inBuf.length → (s.inBuf.drop s.rdPtr.toNat).take s.arg.toNat = bytes →
    ∃ u, exec .deserialize s = .next u ∧
      u = { s with nodes := preorder t 0, list := [0], symPresent := u.symPresent, rootValid := true, root := 0,
                   cursor := 0, ct := u.ct, ctValid := false, rdPtr := s.rdPtr + s.arg } ∧
      treeOf u u.root = some t ∧ (∀ x, isPresent u x = decide (x ∈ leaves t)) ∧ ∀ x, codeOf u x = none

/-- DESERIALIZE of a range past IN_LEN latches TRUNCATED_INPUT and changes nothing else; of a range that is no string of the
grammar it latches MALFORMED_TREE_STRING, unless the arena has fewer entries than the range has bytes (a node takes a byte
or more), where it may fill first and CAPACITY_EXCEEDED is latched; of a string whose tree does not fit the arena it
latches CAPACITY_EXCEEDED; in all of these the tree is cleared and RD_PTR unmoved (42_tree_serdes R146, R147, R150,
20_memory R54). -/
def Obligations.DeserializeRefusesEverythingElse : Prop :=
  (∀ s : State, s.inBuf.length < s.rdPtr.toNat + s.arg.toNat →
    exec .deserialize s = .next { s with err := some { code := .truncatedInput, op := 0x32#8 } }) ∧
  (∀ (s : State) (bytes : List Byte),
    s.rdPtr.toNat + s.arg.toNat ≤ s.inBuf.length → (s.inBuf.drop s.rdPtr.toNat).take s.arg.toNat = bytes →
    ((∀ t, ¬ TreeString bytes t) → bytes.length ≤ s.cfg.nodeCap →
      exec .deserialize s = .next (raiseError .malformedTreeString 0x32#8 (treeClearState s))) ∧
    ((∀ t, ¬ TreeString bytes t) → s.cfg.nodeCap < bytes.length →
      exec .deserialize s = .next (raiseError .malformedTreeString 0x32#8 (treeClearState s)) ∨
      exec .deserialize s = .next (raiseError .capacityExceeded 0x32#8 (treeClearState s))) ∧
    (∀ t, TreeString bytes t → s.cfg.nodeCap < treeSize t →
      exec .deserialize s = .next (raiseError .capacityExceeded 0x32#8 (treeClearState s))))

/-- 42_tree_serdes R148: with Ser of a complete tree in IN at RD_PTR and ARG its length, DESERIALIZE gives a tree of the
same shape with the same leaf symbols, every weight 0. -/
def Obligations.DeserializeOfSerializedIsTheTree : Prop :=
  ∀ (s u : State) (t : CodeTree), s.rootValid = true → treeOf s s.root = some t →
    u.arg.toNat = serLength t → u.rdPtr.toNat + u.arg.toNat ≤ u.inBuf.length →
    (u.inBuf.drop u.rdPtr.toNat).take u.arg.toNat = serBytes t → treeSize t ≤ u.cfg.nodeCap →
    ∃ v, exec .deserialize u = .next v ∧ v.err = u.err ∧ v.rootValid = true ∧ treeOf v v.root = some t ∧
      ∀ n ∈ v.nodes, n.weight = 0#64

/-! ### The Bit Packer (43_bit_packer) -/

/-- PACK_BIT of 0 or 1 adds the bit after the bits the packer holds, MSB-first, and sends a completed byte to OUT; a byte
without room latches CAPACITY_EXCEEDED and a value above 1 UNEXPECTED_BIT_VALUE, nothing else changed
(43_bit_packer R151, R152). -/
def Obligations.PackBitAddsTheBit : Prop :=
  (∀ (s : State) (b : Bool), PackerInvariant s → (s.cnt = 7 → outRoom s 1 = true) →
    exec (.packBit (if b then 1#8 else 0#8)) s = .next (packed [b] s)) ∧
  (∀ (s : State) (x : Byte), x.toNat ≤ 1 → s.cnt = 7 → outRoom s 1 = false →
    exec (.packBit x) s = .next { s with err := some { code := .capacityExceeded, op := 0x40#8 } }) ∧
  (∀ (s : State) (x : Byte), 1 < x.toNat →
    exec (.packBit x) s = .next { s with err := some { code := .unexpectedBitValue, op := 0x40#8 } })

/-- PACK_SYMBOL of a symbol with a code adds the code's bits in order, where OUT has room for the bytes they complete, and
without room latches CAPACITY_EXCEEDED; a symbol without a code latches SYMBOL_NOT_IN_TABLE; an error changes nothing
else (43_bit_packer R153). -/
def Obligations.PackSymbolAddsTheCode : Prop :=
  ∀ (s : State) (x : Byte),
    (∀ bits, PackerInvariant s → codeOf s x = some bits → outRoom s ((s.cnt.val + bits.length) / 8) = true →
      exec (.packSymbol x) s = .next (packed bits s)) ∧
    (∀ bits, codeOf s x = some bits → outRoom s ((s.cnt.val + bits.length) / 8) = false →
      exec (.packSymbol x) s = .next { s with err := some { code := .capacityExceeded, op := 0x41#8 } }) ∧
    (codeOf s x = none →
      exec (.packSymbol x) s = .next { s with err := some { code := .symbolNotInTable, op := 0x41#8 } })

/-- PACK_STREAM of N symbols of IN that all have codes, with room in OUT, adds their codes in order, advances RD_PTR by N
and answers N; with N = 0 it only sets RESULT to 0 (43_bit_packer R154). -/
def Obligations.PackStreamAddsTheCodes : Prop :=
  ∀ (s : State) (xs : List Byte) (bits : Code), PackerInvariant s → InBounded s →
    xs.length = s.arg.toNat → (xs ≠ [] → s.rdPtr.toNat + s.arg.toNat ≤ s.inBuf.length) →
    (s.inBuf.drop s.rdPtr.toNat).take s.arg.toNat = xs → codesOf s xs = some bits →
    outRoom s ((s.cnt.val + bits.length) / 8) = true →
    exec .packStream s =
      .next { packed bits s with rdPtr := s.rdPtr + s.arg, result := s.arg }

/-- PACK_STREAM stops at the first symbol that is missing from IN, has no code, or has no room in OUT, with that error:
the m symbols before it stay packed, RD_PTR points at it and RESULT is m (43_bit_packer R154, 60_exceptions R195). -/
def Obligations.PackStreamStopsAtTheFailingSymbol : Prop :=
  ∀ (s : State) (xs : List Byte) (bits : Code) (e : ErrorCode), PackerInvariant s → InBounded s →
    xs.length < s.arg.toNat → (xs ≠ [] → s.rdPtr.toNat + xs.length ≤ s.inBuf.length) →
    (s.inBuf.drop s.rdPtr.toNat).take xs.length = xs → codesOf s xs = some bits →
    outRoom s ((s.cnt.val + bits.length) / 8) = true →
    ((e = .truncatedInput ∧ s.inBuf[s.rdPtr.toNat + xs.length]? = none) ∨
     (e = .symbolNotInTable ∧ ∃ y, s.inBuf[s.rdPtr.toNat + xs.length]? = some y ∧ codeOf s y = none) ∨
     (e = .capacityExceeded ∧ ∃ y c, s.inBuf[s.rdPtr.toNat + xs.length]? = some y ∧ codeOf s y = some c ∧
        outRoom s ((s.cnt.val + bits.length + c.length) / 8) = false)) →
    exec .packStream s =
      .next { packed bits s with rdPtr := s.rdPtr + BitVec.ofNat 64 xs.length, result := BitVec.ofNat 64 xs.length,
                                 err := some { code := e, op := 0x42#8 } }

/-- FLUSH 1 with CNT > 0 writes ACC to OUT where it has room and empties the packer, or else raises CAPACITY_EXCEEDED with
the packer unchanged; FLUSH 1 with CNT = 0 and FLUSH 0 do nothing (43_bit_packer R155). -/
def Obligations.FlushWritesAPartialByte : Prop :=
  ∀ s : State,
    (0 < s.cnt.val → outRoom s 1 = true →
      exec (.flush 1#8) s = .next { s with out := s.out ++ [s.acc], acc := 0#8, cnt := 0 }) ∧
    (0 < s.cnt.val → outRoom s 1 = false →
      exec (.flush 1#8) s = .next { s with err := some { code := .capacityExceeded, op := 0x43#8 } }) ∧
    (s.cnt.val = 0 → exec (.flush 1#8) s = .next s) ∧
    exec (.flush 0#8) s = .next s

/-- 43_bit_packer R156: from an empty packer, PACK_STREAM over symbols with codes and then FLUSH 1 append the
concatenation of the codes cut into bytes MSB-first, the last padded with 0 bits: ceil(B/8) bytes. -/
def Obligations.PackedStreamIsThePaddedCodes : Prop :=
  ∀ (s : State) (xs : List Byte) (bits : Code), s.cnt = 0 → s.acc = 0#8 → InBounded s → xs.length = s.arg.toNat →
    (xs ≠ [] → s.rdPtr.toNat + s.arg.toNat ≤ s.inBuf.length) →
    (s.inBuf.drop s.rdPtr.toNat).take s.arg.toNat = xs → codesOf s xs = some bits →
    outRoom s ((bits.length + 7) / 8) = true →
    ∃ t, exec .packStream s = .next t ∧
      ∃ u, exec (.flush 1#8) t = .next u ∧ u.out = s.out ++ packedBytes bits ∧ u.cnt = 0 ∧ u.acc = 0#8 ∧ u.err = s.err

/-! ### The Bit Unpacker (44_bit_unpacker) -/

/-- READ_BIT answers bit 7 - (i mod 8) of IN[i div 8] for i = BIT_IDX, and BIT_IDX does not advance; past the buffer it
latches TRUNCATED_INPUT and changes nothing else (44_bit_unpacker R160, R161). -/
def Obligations.ReadBitIsMostSignificantFirst : Prop :=
  ∀ s : State,
    (∀ x, s.inBuf[s.bitIdx / 8]? = some x →
      exec .readBit s =
        .next { s with result := BitVec.ofNat 64 (x.toNat / 2 ^ (7 - s.bitIdx % 8) % 2) }) ∧
    (s.inBuf.length ≤ s.bitIdx / 8 →
      exec .readBit s = .next { s with err := some { code := .truncatedInput, op := 0x50#8 } })

/-- DECODE of N >= 1 symbols (44_bit_unpacker R162, R163): where IN from BIT_IDX holds a path from CURSOR to a leaf x and
then paths from the root to leaves xs, and OUT has room, it emits x and xs, consumes exactly those bits and leaves CURSOR
at the root; DECODE 0 only sets RESULT to 0. -/
def Obligations.DecodeEmitsTheSpelledSymbols : Prop :=
  ∀ (s : State), s.rootValid = true →
    (s.arg = 0#64 → exec .decode s = .next { s with result := 0#64 }) ∧
    (∀ (t c : CodeTree) (x : Byte) (xs : List Byte) (p rest : Code),
      treeOf s s.root = some t → treeOf s s.cursor = some c → s.arg.toNat = xs.length + 1 →
      LeafAt c p x → Spells t xs rest → StreamHolds s (p ++ rest) → outRoom s (xs.length + 1) = true →
      exec .decode s =
        .next { s with out := s.out ++ x :: xs, result := s.arg,
                       bitIdx := s.bitIdx + (p ++ rest).length, cursor := s.root })

/-- DECODE that runs out of bits inside the tree latches TRUNCATED_INPUT, and DECODE that reaches a leaf with OUT full
latches CAPACITY_EXCEEDED; the symbols xs before stay emitted, RESULT counts them, and BIT_IDX and CURSOR stay where the
walk stopped (44_bit_unpacker R163, 60_exceptions R195). The walk starts at any CURSOR, inside the tree or at its root
(70_reset_and_hazards R219): `d` is the tree in which the unfinished symbol's walk began. -/
def Obligations.DecodeKeepsWhatItEmitted : Prop :=
  ∀ (s : State) (t c d : CodeTree) (xs : List Byte) (bits q : Code) (e : ErrorCode),
    s.rootValid = true → treeOf s s.root = some t → treeOf s s.cursor = some c → xs.length < s.arg.toNat →
    SpellsFrom t c xs bits d → StreamHolds s (bits ++ q) → outRoom s xs.length = true →
    ((e = .truncatedInput ∧ (∃ l r, follow d q = some (.node l r)) ∧
        readStreamBit s (s.bitIdx + (bits ++ q).length) = none) ∨
     (e = .capacityExceeded ∧ (∃ x, LeafAt d q x) ∧ outRoom s (xs.length + 1) = false)) →
    ∃ u, exec .decode s = .next u ∧
      u = { s with out := s.out ++ xs, result := BitVec.ofNat 64 xs.length,
                   bitIdx := s.bitIdx + (bits ++ q).length, cursor := u.cursor,
                   err := some { code := e, op := 0x51#8 } } ∧
      treeOf u u.cursor = follow d q

/-- 44_bit_unpacker R164: what PACK_STREAM and FLUSH 1 append for the symbols D under the codes of a tree, loaded into IN
at BIT_IDX with CURSOR at the root of that tree, DECODE |D| turns back into exactly D. -/
def Obligations.DecodeOfEncodeIsTheInput : Prop :=
  ∀ (s u : State) (t : CodeTree) (xs : List Byte) (bits : Code) (before after : List Byte),
    xs ≠ [] → s.cnt = 0 → s.acc = 0#8 → InBounded s → xs.length = s.arg.toNat →
    s.rdPtr.toNat + s.arg.toNat ≤ s.inBuf.length → (s.inBuf.drop s.rdPtr.toNat).take s.arg.toNat = xs →
    (∀ x p, codeOf s x = some p → LeafAt t p x) → codesOf s xs = some bits → outRoom s ((bits.length + 7) / 8) = true →
    u.rootValid = true → treeOf u u.root = some t → u.cursor = u.root → u.arg = s.arg →
    u.bitIdx = 8 * before.length → outRoom u xs.length = true →
    ∃ s1 s2 payload, exec .packStream s = .next s1 ∧ exec (.flush 1#8) s1 = .next s2 ∧ s2.out = s.out ++ payload ∧
      (u.inBuf = before ++ payload ++ after →
        exec .decode u = .next { u with out := u.out ++ xs, result := u.arg,
                                        bitIdx := u.bitIdx + bits.length, cursor := u.root })

/-! ### Errors (60_exceptions) -/

/-- The commands whose row of 60_exceptions R195 says "none" change nothing but the error latch when they raise. -/
def Obligations.SingleStepCommandsAreAllOrNothing : Prop :=
  ∀ (i : Instr) (s t : State) (l : ErrLatch),
    (i = .merge ∨ i = .serLen ∨ i = .serialize ∨ i = .readBit ∨ i = .emitU64 ∨ i = .loadU64 ∨
      ∃ x, i = .leafPush x ∨ i = .packBit x ∨ i = .packSymbol x ∨ i = .flush x) →
    s.err = none → exec i s = .next t → t.err = some l → t = { s with err := some l }

/-- A command that ends with an error latched has latched one of the errors 60_exceptions R191 lists for it, with its own
opcode (10_state R27). -/
def Obligations.ErrorsAreThoseOfTheCommand : Prop :=
  ∀ (i : Instr) (s t : State) (l : ErrLatch), s.err = none → exec i s = .next t → t.err = some l →
    l.code ∈ errorsOf i ∧ l.op = i.opcode

/-- 60_exceptions R197: while an error is latched, no step latches another: it stays until a host write of CTRL clears
it. -/
def Obligations.ErrorsDoNotNest : Prop :=
  ∀ (s t : State) (l : ErrLatch), s.err = some l → step s = .next t →
    t.err = some l ∨
    (t.err = none ∧ ∃ v ts, s.turns = .write 64 (s.cfg.base + 8) v :: ts ∧ (v.getLsbD 0 = true ∨ v.getLsbD 1 = true))

/-! ### The host interface (10_state, 20_memory) -/

/-- 20_memory R65: while a command is pending, a read of STATUS returns it and any other read returns 0, neither with an
effect; a write of CTRL with bit 0 set resets the core and discards the command; every other write only sets
HOST_DROP. -/
def Obligations.BusyCoreIgnoresTheHost : Prop :=
  ∀ (s : State) (w v : Word) (off : Nat), s.pending = some w → off % 8 = 0 → off ≤ 0xF8 →
    (off = 0x10 → readStep off s = .next (sawOnly (statusWord s) s)) ∧
    (off ≠ 0x10 → readStep off s = .next (sawOnly 0#64 s)) ∧
    (off = 0x08 → v.getLsbD 0 = true →
      writeStep off v s = .next { State.resetWith s.cfg with turns := s.turns, seen := s.seen }) ∧
    (¬ (off = 0x08 ∧ v.getLsbD 0 = true) → writeStep off v s = .next { s with hostDrop := true })

/-- 20_memory R57: a host access that is not 64 bits wide, is not aligned, or lies outside the 256 bytes at BASE has no
step; every other access has one. -/
def Obligations.OnlyAlignedRegisterAccessesHaveAStep : Prop :=
  ∀ (s : State) (width addr : Nat) (v : Word) (ts : List Turn),
    let admitted : Prop := width = 64 ∧ ∃ off, off % 8 = 0 ∧ off ≤ 0xF8 ∧ addr = s.cfg.base + off
    (¬ admitted →
      step { s with turns := .read width addr :: ts } = .refused .accessNotAdmitted ∧
      step { s with turns := .write width addr v :: ts } = .refused .accessNotAdmitted) ∧
    (admitted →
      (∃ t, step { s with turns := .read width addr :: ts } = .next t ∧ t.turns = ts) ∧
      ∃ t, step { s with turns := .write width addr v :: ts } = .next t ∧ t.turns = ts)

/-- 10_state R23 and R28 for an idle core: CMD takes any word, legal or not, into the pending slot, so BUSY reads 1; the RW
registers ARG, RD_PTR, BIT_IDX, NODE_SEL, LIST_SEL and CODE_SEL store what is written (CODE_SEL bits 9..0); a write to an
RO register or a reserved offset has no effect. -/
def Obligations.IdleWritesReachTheirRegister : Prop :=
  ∀ (s : State) (v : Word), s.pending = none →
    (writeStep 0x20 v s = .next { s with pending := some v } ∧
      (statusWord { s with pending := some v }).getLsbD 0 = true) ∧
    writeStep 0x28 v s = .next { s with arg := v } ∧
    writeStep 0x50 v s = .next { s with rdPtr := v } ∧
    writeStep 0x68 v s = .next { s with bitIdx := v.toNat } ∧
    writeStep 0x90 v s = .next { s with nodeSel := v } ∧
    writeStep 0xB8 v s = .next { s with listSel := v } ∧
    writeStep 0xC8 v s = .next { s with codeSel := BitVec.ofNat 10 v.toNat } ∧
    ∀ off ∈ [0x00, 0x10, 0x18, 0x30, 0x38, 0x40, 0x48, 0x58, 0x70, 0x78, 0x80, 0x88, 0x98, 0xA0, 0xA8, 0xB0, 0xC0, 0xD0,
      0xD8, 0xE0, 0xE8, 0xF0, 0xF8], writeStep off v s = .next s

/-- 10_state R34 and R38 for an idle core: a write of IN_DATA appends bits 7..0 where IN_LEN < IN_CAP, and is dropped with
HOST_DROP set where IN is full, and IN_DATA reads 0; a read of OUT_DATA returns the head byte with VALID (bit 8) and
removes it, or returns 0 and changes nothing where OUT is empty. -/
def Obligations.StreamPortsAppendAndPop : Prop :=
  ∀ (s : State) (v : Word), s.pending = none →
    (s.inBuf.length < s.cfg.inCap →
      writeStep 0x60 v s = .next { s with inBuf := s.inBuf ++ [BitVec.ofNat 8 v.toNat] }) ∧
    (s.cfg.inCap ≤ s.inBuf.length → writeStep 0x60 v s = .next { s with hostDrop := true }) ∧
    readStep 0x60 s = .next (sawOnly 0#64 s) ∧
    (∀ b rest, s.out = b :: rest →
      readStep 0x80 s = .next { sawOnly (BitVec.ofNat 64 (256 + b.toNat)) s with out := rest }) ∧
    (s.out = [] → readStep 0x80 s = .next (sawOnly 0#64 s))

/-- 10_state R25 for an idle core: SOFT_RESET alone resets the core; otherwise ERR_CLEAR, IN_CLEAR and OUT_CLEAR each take
effect independently, and bits 63..4 are ignored. -/
def Obligations.ControlBitsActIndependently : Prop :=
  ∀ (s : State) (v : Word), s.pending = none →
    (v.getLsbD 0 = true →
      writeStep 0x08 v s = .next { State.resetWith s.cfg with turns := s.turns, seen := s.seen }) ∧
    (v.getLsbD 0 = false →
      writeStep 0x08 v s = .next { s with
        err := if v.getLsbD 1 then none else s.err
        hostDrop := if v.getLsbD 1 then false else s.hostDrop
        inBuf := if v.getLsbD 2 then [] else s.inBuf
        rdPtr := if v.getLsbD 2 then 0#64 else s.rdPtr
        bitIdx := if v.getLsbD 2 then 0 else s.bitIdx
        out := if v.getLsbD 3 then [] else s.out })

/-- 10_state R26: each bit of STATUS, and its reserved bits 63..8 read 0. -/
def Obligations.StatusBitsReadAsNamed : Prop :=
  ∀ s : State, ∃ v, readStep 0x10 s = .next (sawOnly v s) ∧
    v.getLsbD 0 = s.pending.isSome ∧ v.getLsbD 1 = s.err.isSome ∧ v.getLsbD 2 = s.hostDrop ∧
    v.getLsbD 3 = s.rootValid ∧
    (v.getLsbD 4 = true ↔ s.rootValid = true ∧ ∃ n, s.nodes[s.root]? = some n ∧ n.kind = .leaf) ∧
    v.getLsbD 5 = s.ctValid ∧ (v.getLsbD 6 = true ↔ s.out ≠ []) ∧
    (v.getLsbD 7 = true ↔ s.inBuf.length = s.cfg.inCap) ∧ ∀ i, 8 ≤ i → v.getLsbD i = false

/-- 10_state R40 to R42 for an idle core: the node window shows entry NODE_SEL, LIST_ENTRY shows LIST[LIST_SEL], CODE_INFO
and CODE_WORD show entry CODE_SEL.SYM of the code table, code bit 64 * WORD + i at register bit 63 - i; each reads 0
where there is no such entry. -/
def Obligations.WindowsShowTheSelectedEntry : Prop :=
  ∀ s : State, s.pending = none →
    (∀ n, s.nodes[s.nodeSel.toNat]? = some n →
      readStep 0x98 s = .next (sawOnly
        (BitVec.ofNat 64 (1 + (if n.kind = .internal then 2 else 0) + 256 * n.sym.toNat)) s) ∧
      readStep 0xA0 s = .next (sawOnly (regWord n.left) s) ∧
      readStep 0xA8 s = .next (sawOnly (regWord n.right) s) ∧
      readStep 0xB0 s = .next (sawOnly n.weight s)) ∧
    (s.nodes.length ≤ s.nodeSel.toNat → ∀ off ∈ [0x98, 0xA0, 0xA8, 0xB0], readStep off s = .next (sawOnly 0#64 s)) ∧
    (∀ k, s.list[s.listSel.toNat]? = some k → readStep 0xC0 s = .next (sawOnly (regWord k) s)) ∧
    (s.list.length ≤ s.listSel.toNat → readStep 0xC0 s = .next (sawOnly 0#64 s)) ∧
    (codeOf s (BitVec.ofNat 8 s.codeSel.toNat) = none →
      readStep 0xD0 s = .next (sawOnly 0#64 s) ∧ readStep 0xD8 s = .next (sawOnly 0#64 s)) ∧
    (∀ bits, codeOf s (BitVec.ofNat 8 s.codeSel.toNat) = some bits → bits.length ≤ 255 →
      readStep 0xD0 s = .next (sawOnly (BitVec.ofNat 64 (1 + 256 * bits.length)) s) ∧
      ∃ v, readStep 0xD8 s = .next (sawOnly v s) ∧
        ∀ i < 64, v.getLsbD (63 - i) = bits.getD (64 * (s.codeSel.toNat / 256) + i) false)

/-- The plain reads of an idle core (10_state R19, R20, R23, R24, R29 to R33, R35 to R37, R39): each RO or RW register
reads its value, each WO register and reserved offset reads 0, and no read but OUT_DATA's has an effect. A number below
2^64 reads as itself; what a larger one reads as is free (log 7). ERR_CODE holds the numbers of 60_exceptions R191. -/
def Obligations.IdleReadsReturnTheRegister : Prop :=
  (∀ n < 2 ^ 64, (regWord n).toNat = n) ∧
  (errorNumber .emptyInput = 0x01#8 ∧ errorNumber .ioFailure = 0x02#8 ∧ errorNumber .malformedTreeString = 0x03#8 ∧
    errorNumber .unexpectedBitValue = 0x04#8 ∧ errorNumber .capacityExceeded = 0x05#8 ∧
    errorNumber .illegalCommand = 0x10#8 ∧ errorNumber .noTree = 0x11#8 ∧ errorNumber .symbolNotInTable = 0x12#8 ∧
    errorNumber .truncatedInput = 0x13#8 ∧ errorNumber .weightOverflow = 0x14#8 ∧
    errorNumber .duplicateSymbol = 0x15#8 ∧ errorNumber .codeTooLong = 0x16#8) ∧
  ∀ s : State, s.pending = none →
    readStep 0x00 s = .next (sawOnly 0x0000000748554646#64 s) ∧
    readStep 0x28 s = .next (sawOnly s.arg s) ∧
    readStep 0x30 s = .next (sawOnly s.result s) ∧
    readStep 0x38 s = .next (sawOnly (regWord s.root) s) ∧
    readStep 0x40 s = .next (sawOnly (regWord s.nodes.length) s) ∧
    readStep 0x48 s = .next (sawOnly (regWord s.list.length) s) ∧
    readStep 0x50 s = .next (sawOnly s.rdPtr s) ∧
    readStep 0x58 s = .next (sawOnly (regWord s.inBuf.length) s) ∧
    readStep 0x68 s = .next (sawOnly (regWord s.bitIdx) s) ∧
    readStep 0x70 s = .next (sawOnly (regWord s.cursor) s) ∧
    readStep 0x78 s = .next (sawOnly (BitVec.ofNat 64 (256 * s.cnt.val + s.acc.toNat)) s) ∧
    readStep 0x88 s = .next (sawOnly (regWord s.out.length) s) ∧
    readStep 0x90 s = .next (sawOnly s.nodeSel s) ∧
    readStep 0xB8 s = .next (sawOnly s.listSel s) ∧
    readStep 0xC8 s = .next (sawOnly (BitVec.ofNat 64 s.codeSel.toNat) s) ∧
    (s.err = none → readStep 0x18 s = .next (sawOnly 0#64 s)) ∧
    (∀ l, s.err = some l →
      readStep 0x18 s = .next (sawOnly (BitVec.ofNat 64 (256 * l.op.toNat + (errorNumber l.code).toNat)) s)) ∧
    ∀ off ∈ [0x08, 0x20, 0x60, 0xE0, 0xE8, 0xF0, 0xF8], readStep off s = .next (sawOnly 0#64 s)

/-! ### Reset (70_reset_and_hazards R210, R211) -/

/-- 70_reset_and_hazards R210, for every choice of the parameters: every register 0, every store empty, no command
pending and no error latched; ID reads its constant, and the core takes the first CMD write. -/
def Obligations.ResetEmptiesEverything : Prop :=
  ∀ p : Config.Params, ∀ s, s = State.resetWith p →
    s.err = none ∧ s.hostDrop = false ∧ s.rootValid = false ∧ s.ctValid = false ∧ s.pending = none ∧
    s.arg = 0#64 ∧ s.result = 0#64 ∧ s.root = 0 ∧ s.cursor = 0 ∧ s.rdPtr = 0#64 ∧ s.bitIdx = 0 ∧
    s.nodeSel = 0#64 ∧ s.listSel = 0#64 ∧ s.codeSel = 0#10 ∧ s.nodes = [] ∧ s.list = [] ∧
    (∀ x, isPresent s x = false) ∧ (∀ x, codeOf s x = none) ∧ s.acc = 0#8 ∧ s.cnt = 0 ∧ s.inBuf = [] ∧ s.out = [] ∧
    (1 ≤ p.inCap → statusWord s = 0#64) ∧ readStep 0x00 s = .next (sawOnly 0x0000000748554646#64 s) ∧
    ∀ w, writeStep 0x20 w s = .next { s with pending := some w }

/-! ### Frames: everything a command leaves alone -/

/-- What the host alone changes (10_state R19, 20_memory R52, R65): no command changes ARG, the IN buffer, the SEL
registers, HOST_DROP, the pending slot, the parameters, the turns or what the host has read. -/
def Obligations.CommandsLeaveTheHostsState : Prop :=
  ∀ (i : Instr) (s t : State), exec i s = .next t →
    t.arg = s.arg ∧ t.inBuf = s.inBuf ∧ t.nodeSel = s.nodeSel ∧ t.listSel = s.listSel ∧ t.codeSel = s.codeSel ∧
    t.hostDrop = s.hostDrop ∧ t.pending = s.pending ∧ t.cfg = s.cfg ∧ t.turns = s.turns ∧ t.seen = s.seen

/-- The frames of LEAF_PUSH, MERGE, BUILD and GEN_CODES: they keep every allocated node, and change at most the tree
state their rules write, the code table and the error latch; GEN_CODES changes only the table and RESULT
(40_tree_builder R104 to R106, 41_code_table R121). -/
def Obligations.TreeCommandFrames : Prop :=
  ∀ s t : State,
    (∀ x, exec (.leafPush x) s = .next t →
      t = { s with nodes := t.nodes, list := t.list, symPresent := t.symPresent, rootValid := t.rootValid,
                   ct := t.ct, ctValid := t.ctValid, err := t.err } ∧ ∃ ns, t.nodes = s.nodes ++ ns) ∧
    (exec .merge s = .next t ∨ exec .build s = .next t →
      t = { s with nodes := t.nodes, list := t.list, rootValid := t.rootValid, root := t.root, cursor := t.cursor,
                   ct := t.ct, ctValid := t.ctValid, err := t.err } ∧ ∃ ns, t.nodes = s.nodes ++ ns) ∧
    (exec .genCodes s = .next t →
      t = { s with ct := t.ct, ctValid := t.ctValid, result := t.result, err := t.err })

/-- The frames of NOP, TREE_CLEAR, EMIT_U64, LOAD_U64, BITS_FROM_PTR, SER_LEN, SERIALIZE and DESERIALIZE: each changes at
most the state its rule writes and the error latch (45_control_framing R170 to R174, 42_tree_serdes R143, R144, R147). -/
def Obligations.ControlAndSerdesFrames : Prop :=
  ∀ s t : State,
    (exec .nop s = .next t → t = s) ∧
    (exec .treeClear s = .next t →
      t = { s with nodes := t.nodes, list := t.list, symPresent := t.symPresent, rootValid := t.rootValid, root := t.root,
                   cursor := t.cursor, ct := t.ct, ctValid := t.ctValid }) ∧
    (exec .emitU64 s = .next t → t = { s with out := t.out, err := t.err } ∧ ∃ bs, t.out = s.out ++ bs) ∧
    (exec .loadU64 s = .next t → t = { s with result := t.result, rdPtr := t.rdPtr, err := t.err }) ∧
    (exec .bitsFromPtr s = .next t → t = { s with bitIdx := t.bitIdx }) ∧
    (exec .serLen s = .next t → t = { s with result := t.result, err := t.err }) ∧
    (exec .serialize s = .next t →
      t = { s with out := t.out, result := t.result, err := t.err } ∧ ∃ bs, t.out = s.out ++ bs) ∧
    (exec .deserialize s = .next t →
      t = { s with nodes := t.nodes, list := t.list, symPresent := t.symPresent, rootValid := t.rootValid, root := t.root,
                   cursor := t.cursor, ct := t.ct, ctValid := t.ctValid, rdPtr := t.rdPtr, err := t.err })

/-- The frames of PACK_BIT, PACK_SYMBOL, PACK_STREAM, FLUSH, READ_BIT and DECODE: what OUT held stays its beginning, and
beside it each changes at most the packer, the pointer and the results its rule writes, and the error latch
(43_bit_packer R152 to R155, 44_bit_unpacker R161, R163). -/
def Obligations.StreamCommandFrames : Prop :=
  ∀ s t : State,
    (∀ x, exec (.packBit x) s = .next t ∨ exec (.packSymbol x) s = .next t ∨ exec (.flush x) s = .next t →
      t = { s with acc := t.acc, cnt := t.cnt, out := t.out, err := t.err } ∧ ∃ bs, t.out = s.out ++ bs) ∧
    (exec .packStream s = .next t →
      t = { s with acc := t.acc, cnt := t.cnt, out := t.out, rdPtr := t.rdPtr, result := t.result, err := t.err } ∧
        ∃ bs, t.out = s.out ++ bs) ∧
    (exec .readBit s = .next t → t = { s with result := t.result, err := t.err }) ∧
    (exec .decode s = .next t →
      t = { s with out := t.out, result := t.result, bitIdx := t.bitIdx, cursor := t.cursor, err := t.err } ∧
        ∃ bs, t.out = s.out ++ bs)

/-! ### Invariants -/

/-- The state after reset is good, for every legal choice of the parameters (10_state R37, R49, R51). -/
def Obligations.ResetIsGood : Prop :=
  ∀ p : Config.Params, p.Wf → Good (State.resetWith p)

/-- 10_state R51: every step, of the core or the host, keeps the tree invariants (a) to (c). -/
def Obligations.StepKeepsTheTreeInvariants : Prop :=
  ∀ s t : State, TreeInvariant s → step s = .next t → TreeInvariant t

/-- 10_state R46 and R49: every step keeps the code table a table of the current tree: a valid entry is the path to its
symbol's leaf, and CT_VALID = 0 leaves no valid entry. -/
def Obligations.StepKeepsTheTableCurrent : Prop :=
  ∀ s t : State, TreeInvariant s → TableInvariant s → step s = .next t → TableInvariant t

/-- Every step keeps the bits of ACC at positions 7 - CNT down to 0 at 0 (10_state R37), the arena, the list, IN and OUT
within their capacities (00_scope R10, R11, R13, R14), IO_FAILURE unlatched (60_exceptions R191), and the parameters as
they are (10_state R17), each by itself; and, with IN within a legal IN_CAP, BIT_IDX at most 8 * 2^61 (44_bit_unpacker
R163). -/
def Obligations.StepKeepsPackerCapacitiesAndCodes : Prop :=
  ∀ s t : State, step s = .next t →
    (PackerInvariant s → PackerInvariant t) ∧ (WithinCapacity s → WithinCapacity t) ∧
    (NoReservedError s → NoReservedError t) ∧ t.cfg = s.cfg ∧
    (s.cfg.Wf → WithinCapacity s → PointerInRange s → PointerInRange t)

/-- A good state has no faulting step: the model's one fault (log 6) is never reached from a good state, and the only
step it does not have is a host access the bus does not admit (10_state R51, 20_memory R57). -/
def Obligations.GoodStatesNeverFault : Prop :=
  ∀ s : State, Good s →
    (∃ t, step s = .next t ∧ Good t) ∨ step s = .refused .accessNotAdmitted
end

