-- ==== Sys2Proof/Laws/State.lean ====
section
/-! SUPPORT. One lemma per field per named update of State, each true by rfl, so that no proof unfolds an update. -/

namespace Sys2Proof.Machine

@[simp] theorem raiseError_cfg (e : ErrorCode) (op : Byte) (s : State) : (raiseError e op s).cfg = s.cfg := rfl
@[simp] theorem raiseError_arg (e : ErrorCode) (op : Byte) (s : State) : (raiseError e op s).arg = s.arg := rfl
@[simp] theorem raiseError_result (e : ErrorCode) (op : Byte) (s : State) : (raiseError e op s).result = s.result := rfl
@[simp] theorem raiseError_err (e : ErrorCode) (op : Byte) (s : State) : (raiseError e op s).err = some { code := e, op := op } := rfl
@[simp] theorem raiseError_hostDrop (e : ErrorCode) (op : Byte) (s : State) : (raiseError e op s).hostDrop = s.hostDrop := rfl
@[simp] theorem raiseError_rootValid (e : ErrorCode) (op : Byte) (s : State) : (raiseError e op s).rootValid = s.rootValid := rfl
@[simp] theorem raiseError_ctValid (e : ErrorCode) (op : Byte) (s : State) : (raiseError e op s).ctValid = s.ctValid := rfl
@[simp] theorem raiseError_root (e : ErrorCode) (op : Byte) (s : State) : (raiseError e op s).root = s.root := rfl
@[simp] theorem raiseError_cursor (e : ErrorCode) (op : Byte) (s : State) : (raiseError e op s).cursor = s.cursor := rfl
@[simp] theorem raiseError_nodes (e : ErrorCode) (op : Byte) (s : State) : (raiseError e op s).nodes = s.nodes := rfl
@[simp] theorem raiseError_list (e : ErrorCode) (op : Byte) (s : State) : (raiseError e op s).list = s.list := rfl
@[simp] theorem raiseError_symPresent (e : ErrorCode) (op : Byte) (s : State) : (raiseError e op s).symPresent = s.symPresent := rfl
@[simp] theorem raiseError_ct (e : ErrorCode) (op : Byte) (s : State) : (raiseError e op s).ct = s.ct := rfl
@[simp] theorem raiseError_acc (e : ErrorCode) (op : Byte) (s : State) : (raiseError e op s).acc = s.acc := rfl
@[simp] theorem raiseError_cnt (e : ErrorCode) (op : Byte) (s : State) : (raiseError e op s).cnt = s.cnt := rfl
@[simp] theorem raiseError_inBuf (e : ErrorCode) (op : Byte) (s : State) : (raiseError e op s).inBuf = s.inBuf := rfl
@[simp] theorem raiseError_rdPtr (e : ErrorCode) (op : Byte) (s : State) : (raiseError e op s).rdPtr = s.rdPtr := rfl
@[simp] theorem raiseError_bitIdx (e : ErrorCode) (op : Byte) (s : State) : (raiseError e op s).bitIdx = s.bitIdx := rfl
@[simp] theorem raiseError_out (e : ErrorCode) (op : Byte) (s : State) : (raiseError e op s).out = s.out := rfl
@[simp] theorem raiseError_nodeSel (e : ErrorCode) (op : Byte) (s : State) : (raiseError e op s).nodeSel = s.nodeSel := rfl
@[simp] theorem raiseError_listSel (e : ErrorCode) (op : Byte) (s : State) : (raiseError e op s).listSel = s.listSel := rfl
@[simp] theorem raiseError_codeSel (e : ErrorCode) (op : Byte) (s : State) : (raiseError e op s).codeSel = s.codeSel := rfl
@[simp] theorem raiseError_pending (e : ErrorCode) (op : Byte) (s : State) : (raiseError e op s).pending = s.pending := rfl
@[simp] theorem raiseError_turns (e : ErrorCode) (op : Byte) (s : State) : (raiseError e op s).turns = s.turns := rfl
@[simp] theorem raiseError_seen (e : ErrorCode) (op : Byte) (s : State) : (raiseError e op s).seen = s.seen := rfl

@[simp] theorem clearError_cfg (s : State) : (clearError s).cfg = s.cfg := rfl
@[simp] theorem clearError_arg (s : State) : (clearError s).arg = s.arg := rfl
@[simp] theorem clearError_result (s : State) : (clearError s).result = s.result := rfl
@[simp] theorem clearError_err (s : State) : (clearError s).err = none := rfl
@[simp] theorem clearError_hostDrop (s : State) : (clearError s).hostDrop = false := rfl
@[simp] theorem clearError_rootValid (s : State) : (clearError s).rootValid = s.rootValid := rfl
@[simp] theorem clearError_ctValid (s : State) : (clearError s).ctValid = s.ctValid := rfl
@[simp] theorem clearError_root (s : State) : (clearError s).root = s.root := rfl
@[simp] theorem clearError_cursor (s : State) : (clearError s).cursor = s.cursor := rfl
@[simp] theorem clearError_nodes (s : State) : (clearError s).nodes = s.nodes := rfl
@[simp] theorem clearError_list (s : State) : (clearError s).list = s.list := rfl
@[simp] theorem clearError_symPresent (s : State) : (clearError s).symPresent = s.symPresent := rfl
@[simp] theorem clearError_ct (s : State) : (clearError s).ct = s.ct := rfl
@[simp] theorem clearError_acc (s : State) : (clearError s).acc = s.acc := rfl
@[simp] theorem clearError_cnt (s : State) : (clearError s).cnt = s.cnt := rfl
@[simp] theorem clearError_inBuf (s : State) : (clearError s).inBuf = s.inBuf := rfl
@[simp] theorem clearError_rdPtr (s : State) : (clearError s).rdPtr = s.rdPtr := rfl
@[simp] theorem clearError_bitIdx (s : State) : (clearError s).bitIdx = s.bitIdx := rfl
@[simp] theorem clearError_out (s : State) : (clearError s).out = s.out := rfl
@[simp] theorem clearError_nodeSel (s : State) : (clearError s).nodeSel = s.nodeSel := rfl
@[simp] theorem clearError_listSel (s : State) : (clearError s).listSel = s.listSel := rfl
@[simp] theorem clearError_codeSel (s : State) : (clearError s).codeSel = s.codeSel := rfl
@[simp] theorem clearError_pending (s : State) : (clearError s).pending = s.pending := rfl
@[simp] theorem clearError_turns (s : State) : (clearError s).turns = s.turns := rfl
@[simp] theorem clearError_seen (s : State) : (clearError s).seen = s.seen := rfl

@[simp] theorem invalidateCT_cfg (s : State) : (invalidateCT s).cfg = s.cfg := rfl
@[simp] theorem invalidateCT_arg (s : State) : (invalidateCT s).arg = s.arg := rfl
@[simp] theorem invalidateCT_result (s : State) : (invalidateCT s).result = s.result := rfl
@[simp] theorem invalidateCT_err (s : State) : (invalidateCT s).err = s.err := rfl
@[simp] theorem invalidateCT_hostDrop (s : State) : (invalidateCT s).hostDrop = s.hostDrop := rfl
@[simp] theorem invalidateCT_rootValid (s : State) : (invalidateCT s).rootValid = s.rootValid := rfl
@[simp] theorem invalidateCT_ctValid (s : State) : (invalidateCT s).ctValid = false := rfl
@[simp] theorem invalidateCT_root (s : State) : (invalidateCT s).root = s.root := rfl
@[simp] theorem invalidateCT_cursor (s : State) : (invalidateCT s).cursor = s.cursor := rfl
@[simp] theorem invalidateCT_nodes (s : State) : (invalidateCT s).nodes = s.nodes := rfl
@[simp] theorem invalidateCT_list (s : State) : (invalidateCT s).list = s.list := rfl
@[simp] theorem invalidateCT_symPresent (s : State) : (invalidateCT s).symPresent = s.symPresent := rfl
@[simp] theorem invalidateCT_ct (s : State) : (invalidateCT s).ct = Vector.replicate 256 none := rfl
@[simp] theorem invalidateCT_acc (s : State) : (invalidateCT s).acc = s.acc := rfl
@[simp] theorem invalidateCT_cnt (s : State) : (invalidateCT s).cnt = s.cnt := rfl
@[simp] theorem invalidateCT_inBuf (s : State) : (invalidateCT s).inBuf = s.inBuf := rfl
@[simp] theorem invalidateCT_rdPtr (s : State) : (invalidateCT s).rdPtr = s.rdPtr := rfl
@[simp] theorem invalidateCT_bitIdx (s : State) : (invalidateCT s).bitIdx = s.bitIdx := rfl
@[simp] theorem invalidateCT_out (s : State) : (invalidateCT s).out = s.out := rfl
@[simp] theorem invalidateCT_nodeSel (s : State) : (invalidateCT s).nodeSel = s.nodeSel := rfl
@[simp] theorem invalidateCT_listSel (s : State) : (invalidateCT s).listSel = s.listSel := rfl
@[simp] theorem invalidateCT_codeSel (s : State) : (invalidateCT s).codeSel = s.codeSel := rfl
@[simp] theorem invalidateCT_pending (s : State) : (invalidateCT s).pending = s.pending := rfl
@[simp] theorem invalidateCT_turns (s : State) : (invalidateCT s).turns = s.turns := rfl
@[simp] theorem invalidateCT_seen (s : State) : (invalidateCT s).seen = s.seen := rfl

@[simp] theorem setRoot_cfg (k : Nat) (s : State) : (setRoot k s).cfg = s.cfg := rfl
@[simp] theorem setRoot_arg (k : Nat) (s : State) : (setRoot k s).arg = s.arg := rfl
@[simp] theorem setRoot_result (k : Nat) (s : State) : (setRoot k s).result = s.result := rfl
@[simp] theorem setRoot_err (k : Nat) (s : State) : (setRoot k s).err = s.err := rfl
@[simp] theorem setRoot_hostDrop (k : Nat) (s : State) : (setRoot k s).hostDrop = s.hostDrop := rfl
@[simp] theorem setRoot_rootValid (k : Nat) (s : State) : (setRoot k s).rootValid = true := rfl
@[simp] theorem setRoot_ctValid (k : Nat) (s : State) : (setRoot k s).ctValid = s.ctValid := rfl
@[simp] theorem setRoot_root (k : Nat) (s : State) : (setRoot k s).root = k := rfl
@[simp] theorem setRoot_cursor (k : Nat) (s : State) : (setRoot k s).cursor = k := rfl
@[simp] theorem setRoot_nodes (k : Nat) (s : State) : (setRoot k s).nodes = s.nodes := rfl
@[simp] theorem setRoot_list (k : Nat) (s : State) : (setRoot k s).list = s.list := rfl
@[simp] theorem setRoot_symPresent (k : Nat) (s : State) : (setRoot k s).symPresent = s.symPresent := rfl
@[simp] theorem setRoot_ct (k : Nat) (s : State) : (setRoot k s).ct = s.ct := rfl
@[simp] theorem setRoot_acc (k : Nat) (s : State) : (setRoot k s).acc = s.acc := rfl
@[simp] theorem setRoot_cnt (k : Nat) (s : State) : (setRoot k s).cnt = s.cnt := rfl
@[simp] theorem setRoot_inBuf (k : Nat) (s : State) : (setRoot k s).inBuf = s.inBuf := rfl
@[simp] theorem setRoot_rdPtr (k : Nat) (s : State) : (setRoot k s).rdPtr = s.rdPtr := rfl
@[simp] theorem setRoot_bitIdx (k : Nat) (s : State) : (setRoot k s).bitIdx = s.bitIdx := rfl
@[simp] theorem setRoot_out (k : Nat) (s : State) : (setRoot k s).out = s.out := rfl
@[simp] theorem setRoot_nodeSel (k : Nat) (s : State) : (setRoot k s).nodeSel = s.nodeSel := rfl
@[simp] theorem setRoot_listSel (k : Nat) (s : State) : (setRoot k s).listSel = s.listSel := rfl
@[simp] theorem setRoot_codeSel (k : Nat) (s : State) : (setRoot k s).codeSel = s.codeSel := rfl
@[simp] theorem setRoot_pending (k : Nat) (s : State) : (setRoot k s).pending = s.pending := rfl
@[simp] theorem setRoot_turns (k : Nat) (s : State) : (setRoot k s).turns = s.turns := rfl
@[simp] theorem setRoot_seen (k : Nat) (s : State) : (setRoot k s).seen = s.seen := rfl

@[simp] theorem treeClearState_cfg (s : State) : (treeClearState s).cfg = s.cfg := rfl
@[simp] theorem treeClearState_arg (s : State) : (treeClearState s).arg = s.arg := rfl
@[simp] theorem treeClearState_result (s : State) : (treeClearState s).result = s.result := rfl
@[simp] theorem treeClearState_err (s : State) : (treeClearState s).err = s.err := rfl
@[simp] theorem treeClearState_hostDrop (s : State) : (treeClearState s).hostDrop = s.hostDrop := rfl
@[simp] theorem treeClearState_rootValid (s : State) : (treeClearState s).rootValid = false := rfl
@[simp] theorem treeClearState_ctValid (s : State) : (treeClearState s).ctValid = false := rfl
@[simp] theorem treeClearState_root (s : State) : (treeClearState s).root = 0 := rfl
@[simp] theorem treeClearState_cursor (s : State) : (treeClearState s).cursor = 0 := rfl
@[simp] theorem treeClearState_nodes (s : State) : (treeClearState s).nodes = [] := rfl
@[simp] theorem treeClearState_list (s : State) : (treeClearState s).list = [] := rfl
@[simp] theorem treeClearState_symPresent (s : State) : (treeClearState s).symPresent = 0#256 := rfl
@[simp] theorem treeClearState_ct (s : State) : (treeClearState s).ct = Vector.replicate 256 none := rfl
@[simp] theorem treeClearState_acc (s : State) : (treeClearState s).acc = s.acc := rfl
@[simp] theorem treeClearState_cnt (s : State) : (treeClearState s).cnt = s.cnt := rfl
@[simp] theorem treeClearState_inBuf (s : State) : (treeClearState s).inBuf = s.inBuf := rfl
@[simp] theorem treeClearState_rdPtr (s : State) : (treeClearState s).rdPtr = s.rdPtr := rfl
@[simp] theorem treeClearState_bitIdx (s : State) : (treeClearState s).bitIdx = s.bitIdx := rfl
@[simp] theorem treeClearState_out (s : State) : (treeClearState s).out = s.out := rfl
@[simp] theorem treeClearState_nodeSel (s : State) : (treeClearState s).nodeSel = s.nodeSel := rfl
@[simp] theorem treeClearState_listSel (s : State) : (treeClearState s).listSel = s.listSel := rfl
@[simp] theorem treeClearState_codeSel (s : State) : (treeClearState s).codeSel = s.codeSel := rfl
@[simp] theorem treeClearState_pending (s : State) : (treeClearState s).pending = s.pending := rfl
@[simp] theorem treeClearState_turns (s : State) : (treeClearState s).turns = s.turns := rfl
@[simp] theorem treeClearState_seen (s : State) : (treeClearState s).seen = s.seen := rfl

@[simp] theorem markPresent_cfg (x : Byte) (s : State) : (markPresent x s).cfg = s.cfg := rfl
@[simp] theorem markPresent_arg (x : Byte) (s : State) : (markPresent x s).arg = s.arg := rfl
@[simp] theorem markPresent_result (x : Byte) (s : State) : (markPresent x s).result = s.result := rfl
@[simp] theorem markPresent_err (x : Byte) (s : State) : (markPresent x s).err = s.err := rfl
@[simp] theorem markPresent_hostDrop (x : Byte) (s : State) : (markPresent x s).hostDrop = s.hostDrop := rfl
@[simp] theorem markPresent_rootValid (x : Byte) (s : State) : (markPresent x s).rootValid = s.rootValid := rfl
@[simp] theorem markPresent_ctValid (x : Byte) (s : State) : (markPresent x s).ctValid = s.ctValid := rfl
@[simp] theorem markPresent_root (x : Byte) (s : State) : (markPresent x s).root = s.root := rfl
@[simp] theorem markPresent_cursor (x : Byte) (s : State) : (markPresent x s).cursor = s.cursor := rfl
@[simp] theorem markPresent_nodes (x : Byte) (s : State) : (markPresent x s).nodes = s.nodes := rfl
@[simp] theorem markPresent_list (x : Byte) (s : State) : (markPresent x s).list = s.list := rfl
@[simp] theorem markPresent_symPresent (x : Byte) (s : State) : (markPresent x s).symPresent = s.symPresent ||| BitVec.twoPow 256 x.toNat := rfl
@[simp] theorem markPresent_ct (x : Byte) (s : State) : (markPresent x s).ct = s.ct := rfl
@[simp] theorem markPresent_acc (x : Byte) (s : State) : (markPresent x s).acc = s.acc := rfl
@[simp] theorem markPresent_cnt (x : Byte) (s : State) : (markPresent x s).cnt = s.cnt := rfl
@[simp] theorem markPresent_inBuf (x : Byte) (s : State) : (markPresent x s).inBuf = s.inBuf := rfl
@[simp] theorem markPresent_rdPtr (x : Byte) (s : State) : (markPresent x s).rdPtr = s.rdPtr := rfl
@[simp] theorem markPresent_bitIdx (x : Byte) (s : State) : (markPresent x s).bitIdx = s.bitIdx := rfl
@[simp] theorem markPresent_out (x : Byte) (s : State) : (markPresent x s).out = s.out := rfl
@[simp] theorem markPresent_nodeSel (x : Byte) (s : State) : (markPresent x s).nodeSel = s.nodeSel := rfl
@[simp] theorem markPresent_listSel (x : Byte) (s : State) : (markPresent x s).listSel = s.listSel := rfl
@[simp] theorem markPresent_codeSel (x : Byte) (s : State) : (markPresent x s).codeSel = s.codeSel := rfl
@[simp] theorem markPresent_pending (x : Byte) (s : State) : (markPresent x s).pending = s.pending := rfl
@[simp] theorem markPresent_turns (x : Byte) (s : State) : (markPresent x s).turns = s.turns := rfl
@[simp] theorem markPresent_seen (x : Byte) (s : State) : (markPresent x s).seen = s.seen := rfl

@[simp] theorem setCode_cfg (x : Byte) (p : Code) (s : State) : (setCode x p s).cfg = s.cfg := rfl
@[simp] theorem setCode_arg (x : Byte) (p : Code) (s : State) : (setCode x p s).arg = s.arg := rfl
@[simp] theorem setCode_result (x : Byte) (p : Code) (s : State) : (setCode x p s).result = s.result := rfl
@[simp] theorem setCode_err (x : Byte) (p : Code) (s : State) : (setCode x p s).err = s.err := rfl
@[simp] theorem setCode_hostDrop (x : Byte) (p : Code) (s : State) : (setCode x p s).hostDrop = s.hostDrop := rfl
@[simp] theorem setCode_rootValid (x : Byte) (p : Code) (s : State) : (setCode x p s).rootValid = s.rootValid := rfl
@[simp] theorem setCode_ctValid (x : Byte) (p : Code) (s : State) : (setCode x p s).ctValid = s.ctValid := rfl
@[simp] theorem setCode_root (x : Byte) (p : Code) (s : State) : (setCode x p s).root = s.root := rfl
@[simp] theorem setCode_cursor (x : Byte) (p : Code) (s : State) : (setCode x p s).cursor = s.cursor := rfl
@[simp] theorem setCode_nodes (x : Byte) (p : Code) (s : State) : (setCode x p s).nodes = s.nodes := rfl
@[simp] theorem setCode_list (x : Byte) (p : Code) (s : State) : (setCode x p s).list = s.list := rfl
@[simp] theorem setCode_symPresent (x : Byte) (p : Code) (s : State) : (setCode x p s).symPresent = s.symPresent := rfl
@[simp] theorem setCode_ct (x : Byte) (p : Code) (s : State) : (setCode x p s).ct = s.ct.set x.toNat (some p) x.isLt := rfl
@[simp] theorem setCode_acc (x : Byte) (p : Code) (s : State) : (setCode x p s).acc = s.acc := rfl
@[simp] theorem setCode_cnt (x : Byte) (p : Code) (s : State) : (setCode x p s).cnt = s.cnt := rfl
@[simp] theorem setCode_inBuf (x : Byte) (p : Code) (s : State) : (setCode x p s).inBuf = s.inBuf := rfl
@[simp] theorem setCode_rdPtr (x : Byte) (p : Code) (s : State) : (setCode x p s).rdPtr = s.rdPtr := rfl
@[simp] theorem setCode_bitIdx (x : Byte) (p : Code) (s : State) : (setCode x p s).bitIdx = s.bitIdx := rfl
@[simp] theorem setCode_out (x : Byte) (p : Code) (s : State) : (setCode x p s).out = s.out := rfl
@[simp] theorem setCode_nodeSel (x : Byte) (p : Code) (s : State) : (setCode x p s).nodeSel = s.nodeSel := rfl
@[simp] theorem setCode_listSel (x : Byte) (p : Code) (s : State) : (setCode x p s).listSel = s.listSel := rfl
@[simp] theorem setCode_codeSel (x : Byte) (p : Code) (s : State) : (setCode x p s).codeSel = s.codeSel := rfl
@[simp] theorem setCode_pending (x : Byte) (p : Code) (s : State) : (setCode x p s).pending = s.pending := rfl
@[simp] theorem setCode_turns (x : Byte) (p : Code) (s : State) : (setCode x p s).turns = s.turns := rfl
@[simp] theorem setCode_seen (x : Byte) (p : Code) (s : State) : (setCode x p s).seen = s.seen := rfl

@[simp] theorem setChildren_cfg (k l r : Nat) (s : State) : (setChildren k l r s).cfg = s.cfg := rfl
@[simp] theorem setChildren_arg (k l r : Nat) (s : State) : (setChildren k l r s).arg = s.arg := rfl
@[simp] theorem setChildren_result (k l r : Nat) (s : State) : (setChildren k l r s).result = s.result := rfl
@[simp] theorem setChildren_err (k l r : Nat) (s : State) : (setChildren k l r s).err = s.err := rfl
@[simp] theorem setChildren_hostDrop (k l r : Nat) (s : State) : (setChildren k l r s).hostDrop = s.hostDrop := rfl
@[simp] theorem setChildren_rootValid (k l r : Nat) (s : State) : (setChildren k l r s).rootValid = s.rootValid := rfl
@[simp] theorem setChildren_ctValid (k l r : Nat) (s : State) : (setChildren k l r s).ctValid = s.ctValid := rfl
@[simp] theorem setChildren_root (k l r : Nat) (s : State) : (setChildren k l r s).root = s.root := rfl
@[simp] theorem setChildren_cursor (k l r : Nat) (s : State) : (setChildren k l r s).cursor = s.cursor := rfl
@[simp] theorem setChildren_nodes (k l r : Nat) (s : State) : (setChildren k l r s).nodes = s.nodes.modify k fun n => { n with left := l, right := r } := rfl
@[simp] theorem setChildren_list (k l r : Nat) (s : State) : (setChildren k l r s).list = s.list := rfl
@[simp] theorem setChildren_symPresent (k l r : Nat) (s : State) : (setChildren k l r s).symPresent = s.symPresent := rfl
@[simp] theorem setChildren_ct (k l r : Nat) (s : State) : (setChildren k l r s).ct = s.ct := rfl
@[simp] theorem setChildren_acc (k l r : Nat) (s : State) : (setChildren k l r s).acc = s.acc := rfl
@[simp] theorem setChildren_cnt (k l r : Nat) (s : State) : (setChildren k l r s).cnt = s.cnt := rfl
@[simp] theorem setChildren_inBuf (k l r : Nat) (s : State) : (setChildren k l r s).inBuf = s.inBuf := rfl
@[simp] theorem setChildren_rdPtr (k l r : Nat) (s : State) : (setChildren k l r s).rdPtr = s.rdPtr := rfl
@[simp] theorem setChildren_bitIdx (k l r : Nat) (s : State) : (setChildren k l r s).bitIdx = s.bitIdx := rfl
@[simp] theorem setChildren_out (k l r : Nat) (s : State) : (setChildren k l r s).out = s.out := rfl
@[simp] theorem setChildren_nodeSel (k l r : Nat) (s : State) : (setChildren k l r s).nodeSel = s.nodeSel := rfl
@[simp] theorem setChildren_listSel (k l r : Nat) (s : State) : (setChildren k l r s).listSel = s.listSel := rfl
@[simp] theorem setChildren_codeSel (k l r : Nat) (s : State) : (setChildren k l r s).codeSel = s.codeSel := rfl
@[simp] theorem setChildren_pending (k l r : Nat) (s : State) : (setChildren k l r s).pending = s.pending := rfl
@[simp] theorem setChildren_turns (k l r : Nat) (s : State) : (setChildren k l r s).turns = s.turns := rfl
@[simp] theorem setChildren_seen (k l r : Nat) (s : State) : (setChildren k l r s).seen = s.seen := rfl

@[simp] theorem outPop_cfg (s : State) : (outPop s).cfg = s.cfg := rfl
@[simp] theorem outPop_arg (s : State) : (outPop s).arg = s.arg := rfl
@[simp] theorem outPop_result (s : State) : (outPop s).result = s.result := rfl
@[simp] theorem outPop_err (s : State) : (outPop s).err = s.err := rfl
@[simp] theorem outPop_hostDrop (s : State) : (outPop s).hostDrop = s.hostDrop := rfl
@[simp] theorem outPop_rootValid (s : State) : (outPop s).rootValid = s.rootValid := rfl
@[simp] theorem outPop_ctValid (s : State) : (outPop s).ctValid = s.ctValid := rfl
@[simp] theorem outPop_root (s : State) : (outPop s).root = s.root := rfl
@[simp] theorem outPop_cursor (s : State) : (outPop s).cursor = s.cursor := rfl
@[simp] theorem outPop_nodes (s : State) : (outPop s).nodes = s.nodes := rfl
@[simp] theorem outPop_list (s : State) : (outPop s).list = s.list := rfl
@[simp] theorem outPop_symPresent (s : State) : (outPop s).symPresent = s.symPresent := rfl
@[simp] theorem outPop_ct (s : State) : (outPop s).ct = s.ct := rfl
@[simp] theorem outPop_acc (s : State) : (outPop s).acc = s.acc := rfl
@[simp] theorem outPop_cnt (s : State) : (outPop s).cnt = s.cnt := rfl
@[simp] theorem outPop_inBuf (s : State) : (outPop s).inBuf = s.inBuf := rfl
@[simp] theorem outPop_rdPtr (s : State) : (outPop s).rdPtr = s.rdPtr := rfl
@[simp] theorem outPop_bitIdx (s : State) : (outPop s).bitIdx = s.bitIdx := rfl
@[simp] theorem outPop_out (s : State) : (outPop s).out = s.out.tail := rfl
@[simp] theorem outPop_nodeSel (s : State) : (outPop s).nodeSel = s.nodeSel := rfl
@[simp] theorem outPop_listSel (s : State) : (outPop s).listSel = s.listSel := rfl
@[simp] theorem outPop_codeSel (s : State) : (outPop s).codeSel = s.codeSel := rfl
@[simp] theorem outPop_pending (s : State) : (outPop s).pending = s.pending := rfl
@[simp] theorem outPop_turns (s : State) : (outPop s).turns = s.turns := rfl
@[simp] theorem outPop_seen (s : State) : (outPop s).seen = s.seen := rfl

@[simp] theorem outClear_cfg (s : State) : (outClear s).cfg = s.cfg := rfl
@[simp] theorem outClear_arg (s : State) : (outClear s).arg = s.arg := rfl
@[simp] theorem outClear_result (s : State) : (outClear s).result = s.result := rfl
@[simp] theorem outClear_err (s : State) : (outClear s).err = s.err := rfl
@[simp] theorem outClear_hostDrop (s : State) : (outClear s).hostDrop = s.hostDrop := rfl
@[simp] theorem outClear_rootValid (s : State) : (outClear s).rootValid = s.rootValid := rfl
@[simp] theorem outClear_ctValid (s : State) : (outClear s).ctValid = s.ctValid := rfl
@[simp] theorem outClear_root (s : State) : (outClear s).root = s.root := rfl
@[simp] theorem outClear_cursor (s : State) : (outClear s).cursor = s.cursor := rfl
@[simp] theorem outClear_nodes (s : State) : (outClear s).nodes = s.nodes := rfl
@[simp] theorem outClear_list (s : State) : (outClear s).list = s.list := rfl
@[simp] theorem outClear_symPresent (s : State) : (outClear s).symPresent = s.symPresent := rfl
@[simp] theorem outClear_ct (s : State) : (outClear s).ct = s.ct := rfl
@[simp] theorem outClear_acc (s : State) : (outClear s).acc = s.acc := rfl
@[simp] theorem outClear_cnt (s : State) : (outClear s).cnt = s.cnt := rfl
@[simp] theorem outClear_inBuf (s : State) : (outClear s).inBuf = s.inBuf := rfl
@[simp] theorem outClear_rdPtr (s : State) : (outClear s).rdPtr = s.rdPtr := rfl
@[simp] theorem outClear_bitIdx (s : State) : (outClear s).bitIdx = s.bitIdx := rfl
@[simp] theorem outClear_out (s : State) : (outClear s).out = [] := rfl
@[simp] theorem outClear_nodeSel (s : State) : (outClear s).nodeSel = s.nodeSel := rfl
@[simp] theorem outClear_listSel (s : State) : (outClear s).listSel = s.listSel := rfl
@[simp] theorem outClear_codeSel (s : State) : (outClear s).codeSel = s.codeSel := rfl
@[simp] theorem outClear_pending (s : State) : (outClear s).pending = s.pending := rfl
@[simp] theorem outClear_turns (s : State) : (outClear s).turns = s.turns := rfl
@[simp] theorem outClear_seen (s : State) : (outClear s).seen = s.seen := rfl

@[simp] theorem inClear_cfg (s : State) : (inClear s).cfg = s.cfg := rfl
@[simp] theorem inClear_arg (s : State) : (inClear s).arg = s.arg := rfl
@[simp] theorem inClear_result (s : State) : (inClear s).result = s.result := rfl
@[simp] theorem inClear_err (s : State) : (inClear s).err = s.err := rfl
@[simp] theorem inClear_hostDrop (s : State) : (inClear s).hostDrop = s.hostDrop := rfl
@[simp] theorem inClear_rootValid (s : State) : (inClear s).rootValid = s.rootValid := rfl
@[simp] theorem inClear_ctValid (s : State) : (inClear s).ctValid = s.ctValid := rfl
@[simp] theorem inClear_root (s : State) : (inClear s).root = s.root := rfl
@[simp] theorem inClear_cursor (s : State) : (inClear s).cursor = s.cursor := rfl
@[simp] theorem inClear_nodes (s : State) : (inClear s).nodes = s.nodes := rfl
@[simp] theorem inClear_list (s : State) : (inClear s).list = s.list := rfl
@[simp] theorem inClear_symPresent (s : State) : (inClear s).symPresent = s.symPresent := rfl
@[simp] theorem inClear_ct (s : State) : (inClear s).ct = s.ct := rfl
@[simp] theorem inClear_acc (s : State) : (inClear s).acc = s.acc := rfl
@[simp] theorem inClear_cnt (s : State) : (inClear s).cnt = s.cnt := rfl
@[simp] theorem inClear_inBuf (s : State) : (inClear s).inBuf = [] := rfl
@[simp] theorem inClear_rdPtr (s : State) : (inClear s).rdPtr = 0#64 := rfl
@[simp] theorem inClear_bitIdx (s : State) : (inClear s).bitIdx = 0 := rfl
@[simp] theorem inClear_out (s : State) : (inClear s).out = s.out := rfl
@[simp] theorem inClear_nodeSel (s : State) : (inClear s).nodeSel = s.nodeSel := rfl
@[simp] theorem inClear_listSel (s : State) : (inClear s).listSel = s.listSel := rfl
@[simp] theorem inClear_codeSel (s : State) : (inClear s).codeSel = s.codeSel := rfl
@[simp] theorem inClear_pending (s : State) : (inClear s).pending = s.pending := rfl
@[simp] theorem inClear_turns (s : State) : (inClear s).turns = s.turns := rfl
@[simp] theorem inClear_seen (s : State) : (inClear s).seen = s.seen := rfl

@[simp] theorem taken_cfg (s : State) : (taken s).cfg = s.cfg := rfl
@[simp] theorem taken_arg (s : State) : (taken s).arg = s.arg := rfl
@[simp] theorem taken_result (s : State) : (taken s).result = s.result := rfl
@[simp] theorem taken_err (s : State) : (taken s).err = s.err := rfl
@[simp] theorem taken_hostDrop (s : State) : (taken s).hostDrop = s.hostDrop := rfl
@[simp] theorem taken_rootValid (s : State) : (taken s).rootValid = s.rootValid := rfl
@[simp] theorem taken_ctValid (s : State) : (taken s).ctValid = s.ctValid := rfl
@[simp] theorem taken_root (s : State) : (taken s).root = s.root := rfl
@[simp] theorem taken_cursor (s : State) : (taken s).cursor = s.cursor := rfl
@[simp] theorem taken_nodes (s : State) : (taken s).nodes = s.nodes := rfl
@[simp] theorem taken_list (s : State) : (taken s).list = s.list := rfl
@[simp] theorem taken_symPresent (s : State) : (taken s).symPresent = s.symPresent := rfl
@[simp] theorem taken_ct (s : State) : (taken s).ct = s.ct := rfl
@[simp] theorem taken_acc (s : State) : (taken s).acc = s.acc := rfl
@[simp] theorem taken_cnt (s : State) : (taken s).cnt = s.cnt := rfl
@[simp] theorem taken_inBuf (s : State) : (taken s).inBuf = s.inBuf := rfl
@[simp] theorem taken_rdPtr (s : State) : (taken s).rdPtr = s.rdPtr := rfl
@[simp] theorem taken_bitIdx (s : State) : (taken s).bitIdx = s.bitIdx := rfl
@[simp] theorem taken_out (s : State) : (taken s).out = s.out := rfl
@[simp] theorem taken_nodeSel (s : State) : (taken s).nodeSel = s.nodeSel := rfl
@[simp] theorem taken_listSel (s : State) : (taken s).listSel = s.listSel := rfl
@[simp] theorem taken_codeSel (s : State) : (taken s).codeSel = s.codeSel := rfl
@[simp] theorem taken_pending (s : State) : (taken s).pending = none := rfl
@[simp] theorem taken_turns (s : State) : (taken s).turns = s.turns.tail := rfl
@[simp] theorem taken_seen (s : State) : (taken s).seen = s.seen := rfl

@[simp] theorem softReset_cfg (s : State) : (softReset s).cfg = s.cfg := rfl
@[simp] theorem softReset_arg (s : State) : (softReset s).arg = 0#64 := rfl
@[simp] theorem softReset_result (s : State) : (softReset s).result = 0#64 := rfl
@[simp] theorem softReset_err (s : State) : (softReset s).err = none := rfl
@[simp] theorem softReset_hostDrop (s : State) : (softReset s).hostDrop = false := rfl
@[simp] theorem softReset_rootValid (s : State) : (softReset s).rootValid = false := rfl
@[simp] theorem softReset_ctValid (s : State) : (softReset s).ctValid = false := rfl
@[simp] theorem softReset_root (s : State) : (softReset s).root = 0 := rfl
@[simp] theorem softReset_cursor (s : State) : (softReset s).cursor = 0 := rfl
@[simp] theorem softReset_nodes (s : State) : (softReset s).nodes = [] := rfl
@[simp] theorem softReset_list (s : State) : (softReset s).list = [] := rfl
@[simp] theorem softReset_symPresent (s : State) : (softReset s).symPresent = 0#256 := rfl
@[simp] theorem softReset_ct (s : State) : (softReset s).ct = Vector.replicate 256 none := rfl
@[simp] theorem softReset_acc (s : State) : (softReset s).acc = 0#8 := rfl
@[simp] theorem softReset_cnt (s : State) : (softReset s).cnt = 0 := rfl
@[simp] theorem softReset_inBuf (s : State) : (softReset s).inBuf = [] := rfl
@[simp] theorem softReset_rdPtr (s : State) : (softReset s).rdPtr = 0#64 := rfl
@[simp] theorem softReset_bitIdx (s : State) : (softReset s).bitIdx = 0 := rfl
@[simp] theorem softReset_out (s : State) : (softReset s).out = [] := rfl
@[simp] theorem softReset_nodeSel (s : State) : (softReset s).nodeSel = 0#64 := rfl
@[simp] theorem softReset_listSel (s : State) : (softReset s).listSel = 0#64 := rfl
@[simp] theorem softReset_codeSel (s : State) : (softReset s).codeSel = 0#10 := rfl
@[simp] theorem softReset_pending (s : State) : (softReset s).pending = none := rfl
@[simp] theorem softReset_turns (s : State) : (softReset s).turns = s.turns := rfl
@[simp] theorem softReset_seen (s : State) : (softReset s).seen = s.seen := rfl

end Sys2Proof.Machine
end

