-- ==== Sys2Proof/Laws/Ops.lean ====
section
/-! SUPPORT. What each shared operation can do, said once: how a command ends, the arena, the code table, the OUT
stream. -/

namespace Sys2Proof.Machine

/-! ### How a command ends -/

variable {α β : Type} {c : Cmd α} {f : α → State → Cmd β} {a : α} {b : β} {s t u : State} {e : ErrorCode} {op : Byte}

@[simp] theorem andThen_done : (Cmd.done a s).andThen f = f a s := rfl
@[simp] theorem andThen_raised : (Cmd.raised e s : Cmd α).andThen f = .raised e s := rfl
@[simp] theorem andThen_broken : (Cmd.broken : Cmd α).andThen f = .broken := rfl

theorem andThen_eq_done : c.andThen f = .done b t ↔ ∃ a s, c = .done a s ∧ f a s = .done b t := by
  cases c <;> simp

theorem andThen_eq_raised :
    c.andThen f = .raised e t ↔ c = .raised e t ∨ ∃ a s, c = .done a s ∧ f a s = .raised e t := by
  cases c <;> simp

theorem andThen_eq_broken : c.andThen f = .broken ↔ c = .broken ∨ ∃ a s, c = .done a s ∧ f a s = .broken := by
  cases c <;> simp

@[simp] theorem finish_done : finish op (Cmd.done a s) = .next s := rfl
@[simp] theorem finish_raised : finish op (Cmd.raised e s : Cmd α) = .next (raiseError e op s) := rfl
@[simp] theorem finish_broken : finish op (Cmd.broken : Cmd α) = .fault .brokenTree := rfl

/-- A command answers a next state exactly where it ran to its end or raised an error. -/
theorem finish_eq_next :
    finish op c = .next t ↔ (∃ a, c = .done a t) ∨ ∃ e u, c = .raised e u ∧ raiseError e op u = t := by
  cases c <;> simp [finish]

/-- A command faults exactly where it met an index that 10_state R51 rules out. -/
theorem finish_eq_fault {r : Fault} : finish op c = .fault r ↔ c = .broken ∧ r = .brokenTree := by
  cases c <;> simp [finish, eq_comm]

/-- No command is refused. -/
theorem finish_ne_refused {r : Refusal} : finish op c ≠ .refused r := by
  cases c <;> simp [finish]

/-! ### The arena (10_state R44) -/

/-- AllocNode answers the old NODE_COUNT and adds one entry at the end, or raises with nothing changed. -/
theorem allocNode_eq_done {kind : NodeKind} {x : Byte} {w : Word} {l r k : Nat} :
    allocNode kind x w l r s = .done k t ↔
      s.nodes.length ≠ s.cfg.nodeCap ∧ k = s.nodes.length ∧ t = { s with nodes := s.nodes ++ [⟨kind, x, w, l, r⟩] } := by
  unfold allocNode
  split <;> simp_all [eq_comm]

theorem allocNode_eq_raised {kind : NodeKind} {x : Byte} {w : Word} {l r : Nat} :
    allocNode kind x w l r s = .raised e t ↔
      s.nodes.length = s.cfg.nodeCap ∧ e = .capacityExceeded ∧ t = s := by
  unfold allocNode
  split <;> simp_all [eq_comm]

theorem allocNode_ne_broken {kind : NodeKind} {x : Byte} {w : Word} {l r : Nat} :
    allocNode kind x w l r s ≠ .broken := by
  unfold allocNode
  split <;> simp

/-! ### SYM_PRESENT and the code table (10_state R46, R48, R49) -/

theorem isPresent_markPresent (x y : Byte) (s : State) :
    isPresent (markPresent x s) y = (isPresent s y || y == x) := by
  have hy : y.toNat < 256 := y.isLt
  simp only [isPresent, markPresent_symPresent, BitVec.getLsbD_or, BitVec.getLsbD_twoPow]
  congr 1
  rw [Bool.eq_iff_iff, Bool.and_eq_true, decide_eq_true_iff, decide_eq_true_iff, beq_iff_eq, BitVec.toNat_inj, eq_comm]
  exact ⟨fun h => h.2, fun h => ⟨h ▸ hy, h⟩⟩

@[simp] theorem isPresent_treeClearState (s : State) (x : Byte) : isPresent (treeClearState s) x = false :=
  BitVec.getLsbD_zero

@[simp] theorem codeOf_invalidateCT (s : State) (x : Byte) : codeOf (invalidateCT s) x = none :=
  Vector.getElem_replicate ..

@[simp] theorem codeOf_treeClearState (s : State) (x : Byte) : codeOf (treeClearState s) x = none :=
  Vector.getElem_replicate ..

theorem codeOf_setCode (x y : Byte) (p : Code) (s : State) :
    codeOf (setCode x p s) y = if y = x then some p else codeOf s y := by
  simp only [codeOf, setCode_ct, Vector.getElem_set, BitVec.toNat_inj, eq_comm]

/-- The code table decides every entry. -/
theorem codeOf_congr (h : s.ct = t.ct) (x : Byte) : codeOf s x = codeOf t x := by
  simp [codeOf, h]

/-! ### The OUT stream (20_memory R55) -/

theorem outRoom_iff (s : State) (n : Nat) : outRoom s n = true ↔ ∀ cap, s.cfg.outCap = some cap → s.out.length + n ≤ cap := by
  unfold outRoom
  split <;> simp_all

theorem outRoom_mono {m n : Nat} (h : m ≤ n) (hr : outRoom s n = true) : outRoom s m = true := by
  rw [outRoom_iff] at *
  intro cap hc
  have := hr cap hc
  omega

/-- Room depends on the parameter and the level of OUT alone. -/
theorem outRoom_congr {m n : Nat} (hc : t.cfg = s.cfg) (hl : t.out.length + m = s.out.length + n) :
    outRoom t m = outRoom s n := by
  unfold outRoom
  rw [hc, hl]

theorem outAppend_of_room {bs : List Byte} (h : outRoom s bs.length = true) :
    outAppend bs s = .done () { s with out := s.out ++ bs } := if_pos h

theorem outAppend_of_full {bs : List Byte} (h : outRoom s bs.length = false) :
    outAppend bs s = .raised .capacityExceeded s := if_neg (by simp [h])

/-- OutAppend puts all its bytes at the tail, or raises with nothing changed. -/
theorem outAppend_eq_done {bs : List Byte} {x : Unit} :
    outAppend bs s = .done x t ↔ outRoom s bs.length = true ∧ t = { s with out := s.out ++ bs } := by
  unfold outAppend
  split
  · exact ⟨fun h => ⟨‹_›, (Cmd.done.inj h).2.symm⟩, fun h => h.2 ▸ rfl⟩
  · exact ⟨fun h => (nomatch h), fun h => absurd h.1 ‹_›⟩

theorem outAppend_eq_raised {bs : List Byte} :
    outAppend bs s = .raised e t ↔ outRoom s bs.length = false ∧ e = .capacityExceeded ∧ t = s := by
  unfold outAppend
  split
  · exact ⟨fun h => (nomatch h), fun h => by simp_all⟩
  · exact ⟨fun h => by cases h; simp_all, fun h => by rw [h.2.1, h.2.2]⟩

theorem outAppend_ne_broken {bs : List Byte} : outAppend bs s ≠ .broken := by
  unfold outAppend
  split <;> simp

end Sys2Proof.Machine
end

