-- ==== Sys2Proof/Laws/Commands.lean ====
section
/-! SUPPORT. What each step of a command can do, said once: reading IN, a merge, a pushed bit, a decode step. -/

namespace Sys2Proof.Machine

variable {s t : State} {e : ErrorCode} {x : Unit}

/-! ### Reading IN (20_memory R54, R59) -/

theorem memRead_eq_some {a n : Nat} {xs : List Byte} :
    memRead s a n = some xs ↔ a + n ≤ s.inBuf.length ∧ xs = (s.inBuf.drop a).take n := by
  unfold memRead
  split
  · exact ⟨fun h => (nomatch h), fun h => by omega⟩
  · exact ⟨fun h => ⟨by omega, (Option.some.inj h).symm⟩, fun h => by rw [h.2]⟩

theorem memRead_eq_none {a n : Nat} : memRead s a n = none ↔ s.inBuf.length < a + n := by
  unfold memRead
  split <;> simp_all

theorem readStreamBit_eq_some {i : Nat} {b : Bool} :
    readStreamBit s i = some b ↔ ∃ y, s.inBuf[i / 8]? = some y ∧ streamBitOf y i = b := by
  unfold readStreamBit inByte
  cases s.inBuf[i / 8]? <;> simp

theorem readStreamBit_eq_none {i : Nat} : readStreamBit s i = none ↔ s.inBuf.length ≤ i / 8 := by
  unfold readStreamBit inByte
  rw [← List.getElem?_eq_none_iff]
  cases s.inBuf[i / 8]? <;> simp

/-! ### The merge of two entries (40_tree_builder R102) -/

/-- A completed merge: the two entries, the new node and the new list. -/
theorem mergeAt_eq_done {i1 i2 : Nat} :
    mergeAt i1 i2 s = .done x t ↔
      ∃ a b na nb, s.list[i1]? = some a ∧ s.list[i2]? = some b ∧ s.nodes[a]? = some na ∧ s.nodes[b]? = some nb ∧
        na.weight.toNat + nb.weight.toNat < 2 ^ 64 ∧ s.nodes.length ≠ s.cfg.nodeCap ∧
        t = invalidateCT { s with
              nodes := s.nodes ++ [⟨.internal, 0#8, na.weight + nb.weight, a, b⟩]
              list := eraseTwo s.list i1 i2 ++ [s.nodes.length]
              rootValid := false } := by
  unfold mergeAt
  constructor
  · intro h
    split at h
    · split at h
      · split at h
        · cases h
        · rw [andThen_eq_done] at h
          obtain ⟨k, u, hk, hu⟩ := h
          obtain ⟨hcap, rfl, rfl⟩ := allocNode_eq_done.1 hk
          exact ⟨_, _, _, _, ‹_›, ‹_›, ‹_›, ‹_›, by omega, hcap, (Cmd.done.inj hu).2.symm⟩
      · cases h
    · cases h
  · rintro ⟨a, b, na, nb, h1, h2, h3, h4, hw, hcap, rfl⟩
    simp only [h1, h2, h3, h4]
    rw [if_neg (by omega), allocNode_eq_done.2 ⟨hcap, rfl, rfl⟩]
    rfl

/-- A merge that raises has changed nothing. -/
theorem mergeAt_eq_raised {i1 i2 : Nat} (h : mergeAt i1 i2 s = .raised e t) :
    t = s ∧ (e = .weightOverflow ∨ e = .capacityExceeded ∧ s.nodes.length = s.cfg.nodeCap) := by
  unfold mergeAt at h
  split at h
  · split at h
    · split at h
      · cases h
        exact ⟨rfl, .inl rfl⟩
      · rw [andThen_eq_raised] at h
        obtain h | ⟨k, u, -, hu⟩ := h
        · obtain ⟨hcap, he, ht⟩ := allocNode_eq_raised.1 h
          exact ⟨ht, .inr ⟨he, hcap⟩⟩
        · cases hu
    · cases h
  · cases h

/-! ### Pushing a bit (43_bit_packer R151) -/

/-- PushBit that completes no byte. -/
theorem pushBit_of_lt {b : Bool} (h : s.cnt ≠ 7) :
    pushBit b s = .done () { s with acc := writeBit s.acc (7 - s.cnt.val) b, cnt := s.cnt + 1 } := by
  simp [pushBit, h]

/-- PushBit that completes a byte with room for it. -/
theorem pushBit_of_room {b : Bool} (h : s.cnt = 7) (hr : outRoom s 1 = true) :
    pushBit b s = .done () { s with out := s.out ++ [writeBit s.acc 0 b], acc := 0#8, cnt := 0 } := by
  rw [pushBit, if_neg (by simp [hr]), if_pos h, outAppend_of_room hr, h]
  rfl

/-- PushBit without room for the byte it completes. -/
theorem pushBit_of_full {b : Bool} (h : s.cnt = 7) (hr : outRoom s 1 = false) :
    pushBit b s = .raised .capacityExceeded s := by
  rw [pushBit, if_pos ⟨h, hr⟩]

/-- PushBit changes at most the packer and OUT. -/
theorem pushBit_eq_done {b : Bool} (h : pushBit b s = .done x t) :
    t = { s with acc := t.acc, cnt := t.cnt, out := t.out } ∧ ∃ bs, t.out = s.out ++ bs := by
  by_cases hc : s.cnt = 7
  · cases hr : outRoom s 1 with
    | true =>
      rw [pushBit_of_room hc hr] at h
      obtain rfl := (Cmd.done.inj h).2
      exact ⟨rfl, _, rfl⟩
    | false =>
      rw [pushBit_of_full hc hr] at h
      cases h
  · rw [pushBit_of_lt hc] at h
    obtain rfl := (Cmd.done.inj h).2
    exact ⟨rfl, [], (List.append_nil _).symm⟩

/-- The one bit PushBit writes, and the seven it leaves. -/
theorem getLsbD_writeBit (acc : Byte) (b : Bool) {i j : Nat} (hi : i < 8) (hj : j < 8) :
    (writeBit acc i b).getLsbD j = if j = i then b else acc.getLsbD j := by
  have h1 : (1#8 <<< i).getLsbD j = decide (j = i) := by
    interval_cases i <;> interval_cases j <;> rfl
  unfold writeBit
  cases b
  · rw [if_neg Bool.false_ne_true, BitVec.getLsbD_and, BitVec.getLsbD_not, h1]
    by_cases h : j = i <;> simp [h, hj]
  · rw [if_pos rfl, BitVec.getLsbD_or, h1]
    by_cases h : j = i <;> simp [h]

/-! ### The decode walk (44_bit_unpacker R162) -/

/-- A step at a leaf with room in OUT emits its symbol and returns to the root. -/
theorem decodeStep_leaf {c : Nat} {n : Node} (hn : s.nodes[s.cursor]? = some n) (hk : n.kind = .leaf)
    (hr : outRoom s 1 = true) :
    decodeStep c s =
      .done (c + 1) { s with out := s.out ++ [n.sym], result := BitVec.ofNat 64 (c + 1), cursor := s.root } := by
  simp only [decodeStep, hn, hk, outAppend_of_room (bs := [n.sym]) hr]
  rfl

/-- A step at a leaf without room in OUT. -/
theorem decodeStep_full {c : Nat} {n : Node} (hn : s.nodes[s.cursor]? = some n) (hk : n.kind = .leaf)
    (hr : outRoom s 1 = false) : decodeStep c s = .raised .capacityExceeded s := by
  simp only [decodeStep, hn, hk, outAppend_of_full (bs := [n.sym]) hr]
  rfl

/-- A step at an internal node descends by the next stream bit. -/
theorem decodeStep_bit {c : Nat} {n : Node} {b : Bool} (hn : s.nodes[s.cursor]? = some n) (hk : n.kind = .internal)
    (hb : readStreamBit s s.bitIdx = some b) :
    decodeStep c s = .done c { s with bitIdx := s.bitIdx + 1, cursor := if b then n.right else n.left } := by
  simp only [decodeStep, hn, hk, hb]

/-- A step at an internal node past the end of IN. -/
theorem decodeStep_truncated {c : Nat} {n : Node} (hn : s.nodes[s.cursor]? = some n) (hk : n.kind = .internal)
    (hb : readStreamBit s s.bitIdx = none) : decodeStep c s = .raised .truncatedInput s := by
  simp only [decodeStep, hn, hk, hb]

/-- A decode step changes at most OUT, RESULT, BIT_IDX and CURSOR. -/
theorem decodeStep_eq_done {c c' : Nat} (h : decodeStep c s = .done c' t) :
    t = { s with out := t.out, result := t.result, bitIdx := t.bitIdx, cursor := t.cursor } ∧
      ∃ bs, t.out = s.out ++ bs := by
  unfold decodeStep at h
  split at h
  · cases h
  · split at h
    · rw [andThen_eq_done] at h
      obtain ⟨_, u, hu, h⟩ := h
      obtain ⟨-, rfl⟩ := outAppend_eq_done.1 hu
      obtain rfl := (Cmd.done.inj h).2
      exact ⟨rfl, _, rfl⟩
    · split at h
      · cases h
      · obtain rfl := (Cmd.done.inj h).2
        exact ⟨rfl, [], (List.append_nil _).symm⟩

end Sys2Proof.Machine
end

