-- ==== Sys2Proof/Laws/Decode.lean ====
section
/-! SUPPORT. The three fields of a command word as numbers, and of a word put together from them (30_encoding R74). -/

namespace Sys2Proof

theorem opOf_toNat (w : Word) : (opOf w).toNat = w.toNat % 256 := by
  simp [opOf, BitVec.extractLsb'_toNat]

theorem immOf_toNat (w : Word) : (immOf w).toNat = w.toNat / 256 % 256 := by
  simp [immOf, BitVec.extractLsb'_toNat, Nat.shiftRight_eq_div_pow]

theorem rsvOf_toNat (w : Word) : (rsvOf w).toNat = w.toNat / 65536 := by
  simp only [rsvOf, BitVec.extractLsb'_toNat, Nat.shiftRight_eq_div_pow]
  have := w.isLt
  omega

theorem commandWord_toNat (op imm : Byte) : (commandWord op imm).toNat = 256 * imm.toNat + op.toNat := by
  show (0#48 ++ imm ++ op : BitVec (48 + 8 + 8)).toNat = _
  rw [BitVec.toNat_append, BitVec.toNat_append, ← Nat.shiftLeft_add_eq_or_of_lt op.isLt,
    ← Nat.shiftLeft_add_eq_or_of_lt imm.isLt]
  simp [Nat.shiftLeft_eq]
  omega

@[simp] theorem opOf_commandWord (op imm : Byte) : opOf (commandWord op imm) = op := by
  have := op.isLt
  apply BitVec.eq_of_toNat_eq
  rw [opOf_toNat, commandWord_toNat]
  omega

@[simp] theorem immOf_commandWord (op imm : Byte) : immOf (commandWord op imm) = imm := by
  have := op.isLt
  have := imm.isLt
  apply BitVec.eq_of_toNat_eq
  rw [immOf_toNat, commandWord_toNat]
  omega

@[simp] theorem rsvOf_commandWord (op imm : Byte) : rsvOf (commandWord op imm) = 0#48 := by
  have := op.isLt
  have := imm.isLt
  apply BitVec.eq_of_toNat_eq
  rw [rsvOf_toNat, commandWord_toNat]
  simp
  omega

/-- A word with RSV = 0 is the word of its own OP and IMM. -/
theorem commandWord_fields {w : Word} (h : rsvOf w = 0#48) : commandWord (opOf w) (immOf w) = w := by
  have h' := congrArg BitVec.toNat h
  rw [rsvOf_toNat] at h'
  apply BitVec.eq_of_toNat_eq
  rw [commandWord_toNat, opOf_toNat, immOf_toNat]
  simp at h'
  omega

end Sys2Proof
end

