-- ==== Sys2Proof/Laws/Memory.lean ====
section
/-! SUPPORT. Every operation on the two byte stores keeps their form `Memory.wf`, and reset has it (20_memory R52, R53). -/

namespace Sys2Proof.Machine

theorem memory_wf_iff (s : State) : Memory.wf s = true ↔ s.inBuf.length ≤ s.cfg.inCap ∧ outRoom s 0 = true := by
  simp [Memory.wf]

/-- The form depends on the parameters, IN and OUT alone. -/
theorem memory_wf_congr {s t : State} (hc : t.cfg = s.cfg) (hi : t.inBuf = s.inBuf) (ho : t.out = s.out) :
    Memory.wf t = Memory.wf s := by
  simp [Memory.wf, outRoom, hc, hi, ho]

theorem resetWith_wf (p : Config.Params) : Memory.wf (State.resetWith p) = true := by
  simp [memory_wf_iff, State.resetWith, outRoom_iff]

theorem reset_wf : Memory.wf State.reset = true := resetWith_wf _

theorem softReset_wf (s : State) : Memory.wf (softReset s) = true := by
  simp [memory_wf_iff, outRoom_iff]

theorem outAppend_wf {s t : State} {bs : List Byte} {x : Unit} (h : Memory.wf s = true)
    (ha : outAppend bs s = .done x t) : Memory.wf t = true := by
  obtain ⟨hr, rfl⟩ := outAppend_eq_done.1 ha
  rw [memory_wf_iff] at h ⊢
  refine ⟨h.1, ?_⟩
  rw [outRoom_iff] at *
  intro cap hc
  have := hr cap hc
  simp only [List.length_append]
  omega

theorem outPop_wf {s : State} (h : Memory.wf s = true) : Memory.wf (outPop s) = true := by
  rw [memory_wf_iff, outRoom_iff] at *
  refine ⟨h.1, fun cap hc => ?_⟩
  have := h.2 cap hc
  simp only [outPop_out, List.length_tail]
  omega

theorem outClear_wf {s : State} (h : Memory.wf s = true) : Memory.wf (outClear s) = true := by
  rw [memory_wf_iff, outRoom_iff] at *
  exact ⟨h.1, fun cap _ => by simp⟩

theorem inAppend_wf {s : State} (b : Byte) (h : Memory.wf s = true) : Memory.wf (inAppend b s) = true := by
  rw [memory_wf_iff] at *
  unfold inAppend
  split
  · refine ⟨?_, h.2⟩
    simp only [List.length_append, List.length_singleton]
    omega
  · exact h

theorem inClear_wf {s : State} (h : Memory.wf s = true) : Memory.wf (inClear s) = true := by
  rw [memory_wf_iff] at *
  exact ⟨by simp, h.2⟩

end Sys2Proof.Machine
end

