-- ==== Sys2Proof/Laws/PerInstr.lean ====
section
/-! SUPPORT. Statements about every command as syntax, one lemma per constructor. -/

/-- `OpcodeDefined`: the opcode and IMM of a command name that command in the opcode map (30_encoding R79). -/
def Sys2Proof.Laws.OpcodeDefined.Statement (i : Sys2Proof.Instr) : Prop :=
  Sys2Proof.instrOf i.opcode i.imm = some i

theorem Sys2Proof.Laws.OpcodeDefined.nop :
    Sys2Proof.Laws.OpcodeDefined.Statement .nop := rfl

theorem Sys2Proof.Laws.OpcodeDefined.treeClear :
    Sys2Proof.Laws.OpcodeDefined.Statement .treeClear := rfl

theorem Sys2Proof.Laws.OpcodeDefined.leafPush (x : Sys2Proof.Byte) :
    Sys2Proof.Laws.OpcodeDefined.Statement (.leafPush x) := rfl

theorem Sys2Proof.Laws.OpcodeDefined.merge :
    Sys2Proof.Laws.OpcodeDefined.Statement .merge := rfl

theorem Sys2Proof.Laws.OpcodeDefined.build :
    Sys2Proof.Laws.OpcodeDefined.Statement .build := rfl

theorem Sys2Proof.Laws.OpcodeDefined.genCodes :
    Sys2Proof.Laws.OpcodeDefined.Statement .genCodes := rfl

theorem Sys2Proof.Laws.OpcodeDefined.serLen :
    Sys2Proof.Laws.OpcodeDefined.Statement .serLen := rfl

theorem Sys2Proof.Laws.OpcodeDefined.serialize :
    Sys2Proof.Laws.OpcodeDefined.Statement .serialize := rfl

theorem Sys2Proof.Laws.OpcodeDefined.deserialize :
    Sys2Proof.Laws.OpcodeDefined.Statement .deserialize := rfl

theorem Sys2Proof.Laws.OpcodeDefined.packBit (x : Sys2Proof.Byte) :
    Sys2Proof.Laws.OpcodeDefined.Statement (.packBit x) := rfl

theorem Sys2Proof.Laws.OpcodeDefined.packSymbol (x : Sys2Proof.Byte) :
    Sys2Proof.Laws.OpcodeDefined.Statement (.packSymbol x) := rfl

theorem Sys2Proof.Laws.OpcodeDefined.packStream :
    Sys2Proof.Laws.OpcodeDefined.Statement .packStream := rfl

theorem Sys2Proof.Laws.OpcodeDefined.flush (x : Sys2Proof.Byte) :
    Sys2Proof.Laws.OpcodeDefined.Statement (.flush x) := rfl

theorem Sys2Proof.Laws.OpcodeDefined.readBit :
    Sys2Proof.Laws.OpcodeDefined.Statement .readBit := rfl

theorem Sys2Proof.Laws.OpcodeDefined.decode :
    Sys2Proof.Laws.OpcodeDefined.Statement .decode := rfl

theorem Sys2Proof.Laws.OpcodeDefined.emitU64 :
    Sys2Proof.Laws.OpcodeDefined.Statement .emitU64 := rfl

theorem Sys2Proof.Laws.OpcodeDefined.loadU64 :
    Sys2Proof.Laws.OpcodeDefined.Statement .loadU64 := rfl

theorem Sys2Proof.Laws.OpcodeDefined.bitsFromPtr :
    Sys2Proof.Laws.OpcodeDefined.Statement .bitsFromPtr := rfl
end

