-- ==== Sys2Proof/Laws/Serdes.lean ====
section
/-! SUPPORT. What the scanner, the range checks and Parse can do, said once (42_tree_serdes R145, R146). -/

namespace Sys2Proof.Machine

/-- The tokens of a range, put together, are the range. -/
theorem tokenise_flatten {n : Nat} {r : List Byte} {ts : List (List Byte)} (h : tokenise n r = some ts) :
    ts.flatten = r := by
  induction n generalizing r ts with
  | zero =>
    cases r with
    | nil =>
      cases h
      rfl
    | cons => cases h
  | succ n ih =>
    cases r with
    | nil =>
      cases h
      rfl
    | cons c cs =>
      unfold tokenise at h
      split at h
      · cases h
      · rw [Option.map_eq_some_iff] at h
        obtain ⟨us, hu, rfl⟩ := h
        rw [List.flatten_cons, ih hu, List.take_append_drop]

/-- A range of the internal-node form is its two tokens in brackets. -/
theorem rangeForm_pair {r a b : List Byte} (h : rangeForm r = .pair a b) : r = byteLB :: (a ++ b) ++ [byteRB] := by
  unfold rangeForm at h
  split at h
  · cases h
  · split at h <;> cases h
  · rename_i c x rest
    split at h
    · cases h
    · split at h
      · cases h
      · rename_i hb
        rw [not_or, ne_eq, not_not, ne_eq, not_not] at hb
        split at h
        · rename_i ht
          cases h
          have hab := tokenise_flatten ht
          rw [List.flatten_cons, List.flatten_cons, List.flatten_nil, List.append_nil] at hab
          have hl : (x :: rest).getLast? = some byteRB := by simpa using hb.2
          rw [hab, hb.1, List.cons_append, List.dropLast_append_getLast? byteRB (Option.mem_def.2 hl)]
        · cases h

/-- A range of the leaf form has a byte. -/
theorem rangeForm_leaf {r : List Byte} {x : Byte} (h : rangeForm r = .leaf x) : 1 ≤ r.length := by
  cases r with
  | nil => cases h
  | cons => simp

/-- What Parse of a range answers: at most one new node for each byte, with the parameters kept; or MALFORMED_TREE_STRING;
or CAPACITY_EXCEEDED, in an arena with fewer free entries than the range has bytes. -/
theorem parse_spec (fuel : Nat) (r : List Byte) (s : State) :
    match parse fuel r s with
    | .done _ t => t.cfg = s.cfg ∧ t.nodes.length ≤ s.nodes.length + r.length
    | .raised e _ => e = .malformedTreeString ∨ e = .capacityExceeded ∧ s.cfg.nodeCap < s.nodes.length + r.length
    | .broken => False := by
  induction fuel generalizing r s with
  | zero => exact .inl rfl
  | succ fuel ih =>
    cases hf : rangeForm r with
    | malformed =>
      rw [parse, hf]
      exact .inl rfl
    | leaf x =>
      have hr := rangeForm_leaf hf
      simp only [parse, hf]
      cases h1 : allocNode .leaf x 0#64 0 0 (markPresent x s) with
      | broken => exact absurd h1 allocNode_ne_broken
      | raised e t =>
        obtain ⟨hcap, rfl, -⟩ := allocNode_eq_raised.1 h1
        rw [markPresent_nodes, markPresent_cfg] at hcap
        exact .inr ⟨rfl, by omega⟩
      | done k t =>
        obtain ⟨-, -, rfl⟩ := allocNode_eq_done.1 h1
        exact ⟨rfl, by simp only [markPresent_nodes, List.length_append, List.length_singleton]; omega⟩
    | pair a b =>
      have hr : r.length = a.length + b.length + 2 := by
        rw [rangeForm_pair hf]
        simp [Nat.add_assoc]
      simp only [parse, hf]
      cases h1 : allocNode .internal 0#8 0#64 0 0 s with
      | broken => exact absurd h1 allocNode_ne_broken
      | raised e t =>
        obtain ⟨hcap, rfl, -⟩ := allocNode_eq_raised.1 h1
        exact .inr ⟨rfl, by omega⟩
      | done k t =>
        obtain ⟨-, -, rfl⟩ := allocNode_eq_done.1 h1
        rw [andThen_done]
        have h2 := ih a { s with nodes := s.nodes ++ [⟨.internal, 0#8, 0#64, 0, 0⟩] }
        simp only [List.length_append, List.length_singleton] at h2
        cases h3 : parse fuel a { s with nodes := s.nodes ++ [⟨.internal, 0#8, 0#64, 0, 0⟩] } with
        | broken => simp [h3] at h2
        | raised e t =>
          simp only [h3] at h2
          exact h2.imp_right fun h => ⟨h.1, by omega⟩
        | done l u =>
          simp only [h3] at h2
          rw [andThen_done]
          have h4 := ih b u
          rw [h2.1] at h4
          cases h5 : parse fuel b u with
          | broken => simp [h5] at h4
          | raised e t =>
            simp only [h5] at h4
            exact h4.imp_right fun h => ⟨h.1, by omega⟩
          | done k' v =>
            simp only [h5] at h4
            refine ⟨h4.1, ?_⟩
            simp only [setChildren_nodes, List.length_modify]
            omega

end Sys2Proof.Machine
end

