-- ==== Sys2Proof/Laws/Step.lean ====
section
/-! SUPPORT. What a step comes to: the core's turn, and the host's access to a register. -/

namespace Sys2Proof.Machine

theorem nextMove_core {s : State} (h : CoreNext s) : nextMove s = coreMove { s with turns := s.turns.tail } := by
  unfold nextMove
  obtain h | h := h
  · rw [h]
    simp only [List.tail_nil]
    rw [← h]
  · cases ht : s.turns with
    | nil => simp [ht] at h
    | cons a ts =>
      obtain rfl : a = .core := by simpa [ht] using h
      rfl

/-- Which accesses the bus admits, and to which register (20_memory R57, 10_state R22). -/
theorem regAt_eq_some {p : Config.Params} {width addr : Nat} {r : Reg} :
    regAt p width addr = some r ↔
      width = 64 ∧ ∃ off, off % 8 = 0 ∧ addr = p.base + off ∧ registerMap[off / 8]? = some r := by
  unfold regAt
  constructor
  · intro h
    split at h
    · rename_i hc
      exact ⟨hc.1, addr - p.base, hc.2.2, by omega, h⟩
    · exact (nomatch h)
  · rintro ⟨hw, off, ho, rfl, hr⟩
    rw [if_pos ⟨hw, by omega, by rw [Nat.add_sub_cancel_left]; exact ho⟩, Nat.add_sub_cancel_left, hr]

theorem regAt_eq_none {p : Config.Params} {width addr : Nat} :
    regAt p width addr = none ↔ ¬ (width = 64 ∧ ∃ off, off % 8 = 0 ∧ off ≤ 0xF8 ∧ addr = p.base + off) := by
  rw [Option.eq_none_iff_forall_not_mem]
  constructor
  · rintro h ⟨hw, off, ho, hle, ha⟩
    have hlt : off / 8 < registerMap.length := by
      show off / 8 < 32
      omega
    exact h _ (Option.mem_def.2 (regAt_eq_some.2 ⟨hw, off, ho, ha, List.getElem?_eq_getElem hlt⟩))
  · intro h r hr
    obtain ⟨hw, off, ho, ha, hm⟩ := regAt_eq_some.1 (Option.mem_def.1 hr)
    have hlt : off / 8 < 32 := (List.getElem?_eq_some_iff.1 hm).1
    exact h ⟨hw, off, ho, by omega, ha⟩

theorem regAt_offset {p : Config.Params} {off : Nat} (h : off % 8 = 0) :
    regAt p 64 (p.base + off) = registerMap[off / 8]? := by
  unfold regAt
  rw [Nat.add_sub_cancel_left, if_pos ⟨rfl, by omega, h⟩]

/-- The step in which the host reads a register. -/
theorem readStep_eq {off : Nat} {r : Reg} (h : off % 8 = 0) (hr : registerMap[off / 8]? = some r) (s : State) :
    readStep off s = .next (hostRead r s) := by
  simp only [readStep, step, nextMove, accessMove, regAt_offset h, hr]

/-- The step in which the host writes a register. -/
theorem writeStep_eq {off : Nat} {r : Reg} (h : off % 8 = 0) (hr : registerMap[off / 8]? = some r) (v : Word)
    (s : State) : writeStep off v s = .next (hostWrite r v s) := by
  simp only [writeStep, step, nextMove, accessMove, regAt_offset h, hr]

end Sys2Proof.Machine
end

