-- ==== Sys2Proof/Laws/Tree.lean ====
section
/-! SUPPORT. Paths and leaves of a code tree: `follow`, `leafPaths` and `leaves` say the same. -/

namespace Sys2Proof.Machine

/-- Walk's order lists exactly the paths to leaves (41_code_table R120). -/
theorem mem_leafPaths {t : CodeTree} {p q : Code} {x : Byte} :
    (q, x) ∈ leafPaths t p ↔ ∃ r, q = p ++ r ∧ LeafAt t r x := by
  induction t generalizing p with
  | leaf y =>
    simp only [leafPaths, List.mem_singleton, Prod.mk.injEq]
    constructor
    · rintro ⟨rfl, rfl⟩
      exact ⟨[], by simp, rfl⟩
    · rintro ⟨r, rfl, h⟩
      cases r with
      | nil => simpa [LeafAt, follow, eq_comm] using h
      | cons => cases h
  | node l r ihl ihr =>
    rw [leafPaths, List.mem_append, ihl, ihr]
    constructor
    · rintro (⟨r', rfl, h⟩ | ⟨r', rfl, h⟩)
      · exact ⟨false :: r', by simp, h⟩
      · exact ⟨true :: r', by simp, h⟩
    · rintro ⟨r', rfl, h⟩
      cases r' with
      | nil => cases h
      | cons b r' =>
        cases b
        · exact .inl ⟨r', by simp, h⟩
        · exact .inr ⟨r', by simp, h⟩

theorem leafAt_iff_mem {t : CodeTree} {p : Code} {x : Byte} : LeafAt t p x ↔ (p, x) ∈ leafPaths t [] := by
  simp [mem_leafPaths]

theorem leafPaths_map_snd (t : CodeTree) (p : Code) : (leafPaths t p).map Prod.snd = leaves t := by
  induction t generalizing p with
  | leaf => rfl
  | node l r ihl ihr => simp [leafPaths, leaves, ihl, ihr]

theorem mem_leaves {t : CodeTree} {x : Byte} : x ∈ leaves t ↔ ∃ p, LeafAt t p x := by
  rw [← leafPaths_map_snd t []]
  simp [leafAt_iff_mem]

theorem leaves_ne_nil (t : CodeTree) : leaves t ≠ [] := by
  induction t with
  | leaf => simp [leaves]
  | node l r ihl _ => simp [leaves, ihl]

/-- A path is followed a part at a time. -/
theorem follow_append (t : CodeTree) (p q : Code) : follow t (p ++ q) = (follow t p).bind fun u => follow u q := by
  induction p generalizing t with
  | nil => rfl
  | cons b p ih =>
    cases t with
    | leaf => rfl
    | node l r => exact ih _

theorem treeSize_pos (t : CodeTree) : 0 < treeSize t := by
  cases t with
  | leaf => exact Nat.one_pos
  | node l r =>
    simp only [treeSize]
    omega

@[simp] theorem preorder_length (t : CodeTree) (b : Nat) : (preorder t b).length = treeSize t := by
  induction t generalizing b with
  | leaf => rfl
  | node l r ihl ihr => simp [preorder, treeSize, ihl, ihr]; omega

/-- The arena laid out in preorder reads back as its tree (42_tree_serdes R146). -/
theorem readTree_preorder (t : CodeTree) (before behind : List Node) (fuel : Nat) (h : treeSize t ≤ fuel) :
    readTree (before ++ preorder t before.length ++ behind) fuel before.length = some t := by
  induction t generalizing before behind fuel with
  | leaf x =>
    obtain ⟨fuel, rfl⟩ : ∃ f, fuel = f + 1 := ⟨fuel - 1, by simp only [treeSize] at h; omega⟩
    simp [readTree, preorder]
  | node l r ihl ihr =>
    simp only [treeSize] at h
    obtain ⟨fuel, rfl⟩ : ∃ f, fuel = f + 1 := ⟨fuel - 1, by omega⟩
    let k := before.length
    let n : Node := ⟨.internal, 0#8, 0#64, k + 1, k + 1 + treeSize l⟩
    have e1 : before ++ preorder (.node l r) k ++ behind =
        (before ++ [n]) ++ preorder l (k + 1) ++ (preorder r (k + 1 + treeSize l) ++ behind) := by
      simp [preorder, n]
    have e2 : before ++ preorder (.node l r) k ++ behind =
        (before ++ [n] ++ preorder l (k + 1)) ++ preorder r (k + 1 + treeSize l) ++ behind := by
      simp [preorder, n]
    have hn : (before ++ preorder (.node l r) k ++ behind)[k]? = some n := by
      simp [preorder, n, k]
    have hl := ihl (before ++ [n]) (preorder r (k + 1 + treeSize l) ++ behind) fuel (by omega)
    have hr := ihr (before ++ [n] ++ preorder l (k + 1)) behind fuel (by omega)
    simp only [List.length_append, List.length_singleton, preorder_length] at hl hr
    rw [← e1] at hl
    rw [← e2] at hr
    unfold readTree
    rw [hn]
    show (match readTree _ fuel (k + 1), readTree _ fuel (k + 1 + treeSize l) with
      | some l, some r => some (CodeTree.node l r)
      | _, _ => none) = _
    rw [hl, hr]

end Sys2Proof.Machine
end

