-- ==== Sys2Proof/Tests/Slice0.lean ====
section
/-! SUPPORT. Tests: the encodings of 30_encoding, the vectors of 95_test_vectors one step at a time, and a witness for
the hypotheses of every obligation. Expected values are the spec's, by the number of their vector. -/

namespace Sys2Proof.Tests

set_option Elab.async false

open Sys2Proof.Machine

/-! ### WellFormed and Decode (30_encoding R74 to R80, 95_test_vectors 2.1) -/

theorem test_flush_force_wellFormed :
    (Instr.flush 1#8).wellFormed = true ∧ (Instr.flush 2#8).wellFormed = false := by decide

theorem test_word_nop : decodeWord 0x0000000000000000#64 = .ok .nop := by decide
theorem test_word_treeClear : decodeWord 0x0000000000000001#64 = .ok .treeClear := by decide
theorem test_word_leafPush : decodeWord 0x0000000000004110#64 = .ok (.leafPush 0x41#8) := by decide
theorem test_word_merge : decodeWord 0x0000000000000011#64 = .ok .merge := by decide
theorem test_word_build : decodeWord 0x0000000000000012#64 = .ok .build := by decide
theorem test_word_genCodes : decodeWord 0x0000000000000020#64 = .ok .genCodes := by decide
theorem test_word_serLen : decodeWord 0x0000000000000030#64 = .ok .serLen := by decide
theorem test_word_serialize : decodeWord 0x0000000000000031#64 = .ok .serialize := by decide
theorem test_word_deserialize : decodeWord 0x0000000000000032#64 = .ok .deserialize := by decide
theorem test_word_packBit : decodeWord 0x0000000000000240#64 = .ok (.packBit 2#8) := by decide
theorem test_word_packSymbol : decodeWord 0x000000000000FF41#64 = .ok (.packSymbol 0xFF#8) := by decide
theorem test_word_packStream : decodeWord 0x0000000000000042#64 = .ok .packStream := by decide
theorem test_word_flush : decodeWord 0x0000000000000143#64 = .ok (.flush 1#8) := by decide
theorem test_word_readBit : decodeWord 0x0000000000000050#64 = .ok .readBit := by decide
theorem test_word_decode : decodeWord 0x0000000000000051#64 = .ok .decode := by decide
theorem test_word_emitU64 : decodeWord 0x0000000000000060#64 = .ok .emitU64 := by decide
theorem test_word_loadU64 : decodeWord 0x0000000000000061#64 = .ok .loadU64 := by decide
theorem test_word_bitsFromPtr : decodeWord 0x0000000000000062#64 = .ok .bitsFromPtr := by decide

/-- The refused words of 95_test_vectors 2.1. -/
theorem test_words_refused :
    decodeWord 0x0000000000000243#64 = .error .flushForce ∧ decodeWord 0x0000000000010000#64 = .error .reservedBits ∧
    decodeWord 0x00010000000000FF#64 = .error .reservedBits ∧ decodeWord 0x0000000000000002#64 = .error .unknownOpcode ∧
    decodeWord 0x00000000000000FF#64 = .error .unknownOpcode ∧ decodeWord 0x0000000000000111#64 = .error .unusedImm ∧
    decodeWord 0x0000000000000100#64 = .error .unusedImm ∧ decodeWord 0x0000000000000142#64 = .error .unusedImm := by
  decide

/-! ### Helpers -/

/-- A field of the next state; `none` at a stop. -/
def after {α : Type} (f : State → α) : Host.Outcome State Fault Refusal → Option α
  | .next t => some (f t)
  | .fault _ => none
  | .refused _ => none

/-- The next state; reset at a stop. -/
def nextOf : Host.Outcome State Fault Refusal → State
  | .next t => t
  | .fault _ => State.reset
  | .refused _ => State.reset

/-- A step that goes on goes on to `nextOf` it. -/
theorem next_nextOf {o : Host.Outcome State Fault Refusal} (h : (after (fun _ => ()) o).isSome = true) :
    o = .next (nextOf o) := by
  cases o <;> simp_all [after, nextOf]

/-- The latched error and its OP. -/
def errOf (s : State) : Option (ErrorCode × Byte) := s.err.map fun l => (l.code, l.op)

def leafN (x : Byte) (w : Word) : Node := ⟨.leaf, x, w, 0, 0⟩
def intN (w : Word) (l r : Nat) : Node := ⟨.internal, 0#8, w, l, r⟩

/-- Reset with IN holding `bytes`. -/
def withIn (bytes : List Byte) (s : State) : State := { s with inBuf := bytes }
/-- `s` with another OUT_CAP. -/
def withCap (cap : Nat) (s : State) : State := { s with cfg := { s.cfg with outCap := some cap } }

/-- The leaves a w2, b w1, c w3, listed (the start of TB4). -/
def abc : State :=
  { State.reset with nodes := [leafN 0x61#8 2#64, leafN 0x62#8 1#64, leafN 0x63#8 3#64], list := [0, 1, 2] }

/-- V1 before BUILD: the leaves A w5, B w3, C w2. -/
def v1Leaves : State :=
  { State.reset with nodes := [leafN 0x41#8 5#64, leafN 0x42#8 3#64, leafN 0x43#8 2#64], list := [0, 1, 2] }

/-- V1 after BUILD: the tree (A, (C, B)). -/
def v1 : State :=
  { State.reset with
    nodes := [leafN 0x41#8 5#64, leafN 0x42#8 3#64, leafN 0x43#8 2#64, intN 5#64 2 1, intN 10#64 0 3]
    list := [4], rootValid := true, root := 4, cursor := 4 }

def v1Tree : CodeTree := .node (.leaf 0x41#8) (.node (.leaf 0x43#8) (.leaf 0x42#8))

/-- V1 after GEN_CODES: A = 0, C = 10, B = 11. -/
def v1Codes : State :=
  setCode 0x42#8 [true, true] (setCode 0x43#8 [true, false] (setCode 0x41#8 [false] { v1 with ctValid := true }))

/-- The single leaf A as the tree (TB2). -/
def oneLeaf : State :=
  { State.reset with nodes := [leafN 0x41#8 7#64], list := [0], rootValid := true }

/-- The tree DESERIALIZE makes of "[AA]" (SD15). -/
def twins : State :=
  { State.reset with
    nodes := [intN 0#64 1 2, leafN 0x41#8 0#64, leafN 0x41#8 0#64], list := [0], rootValid := true }

/-- The tree DESERIALIZE makes of "[AB]" (SD4). -/
def ab : State :=
  { State.reset with
    nodes := [intN 0#64 1 2, leafN 0x41#8 0#64, leafN 0x42#8 0#64], list := [0], rootValid := true }

/-- "[AB]" with its codes A = 0, B = 1 (the start of BP13). -/
def abCodes : State := setCode 0x42#8 [true] (setCode 0x41#8 [false] { ab with ctValid := true })

/-! ### One step of each command (95_test_vectors 2.2 to 2.7) -/

theorem test_nop : after (fun t => (t.nodes.length, t.err)) (exec .nop v1) = some (5, none) := by decide +kernel

/-- CF2. -/
theorem test_treeClear :
    after (fun t => (t.nodes, t.list, t.root, t.cursor, statusWord t)) (exec .treeClear v1Codes) =
      some ([], [], 0, 0, 0#64) := by decide +kernel

/-- TB1. -/
theorem test_leafPush :
    after (fun t => (t.nodes, t.list, statusWord t)) (exec (.leafPush 0x41#8) { State.reset with arg := 7#64 }) =
      some ([leafN 0x41#8 7#64], [0], 0#64) := by decide +kernel

/-- TB15: LEAF_PUSH onto a finished tree clears ROOT_VALID and CT_VALID and leaves ROOT. -/
theorem test_leafPush_unroots :
    after (fun t => (t.list, t.root, statusWord t)) (exec (.leafPush 0x44#8) v1Codes) = some ([4, 5], 4, 0#64) := by
  decide +kernel

/-- TB4: position 1 (w1), then position 0 (w2). -/
theorem test_merge :
    after (fun t => (t.nodes[3]?, t.list, statusWord t)) (exec .merge abc) = some (some (intN 3#64 1 0), [2, 3], 0#64) := by
  decide +kernel

/-- TB5: equal weights go by list position, and the last merge makes the root. -/
theorem test_merge_tie :
    after (fun t => (t.nodes[4]?, t.list, t.root, t.cursor, statusWord t)) (exec .merge (nextOf (exec .merge abc))) =
      some (some (intN 6#64 2 3), [4], 4, 4, 0x08#64) := by decide +kernel

/-- V1. -/
theorem test_build :
    after (fun t => (t.nodes.drop 3, t.list, t.root)) (exec .build v1Leaves) =
      some ([intN 5#64 2 1, intN 10#64 0 3], [4], 4) := by decide +kernel

/-- TB13: round 2 overflows, round 1 stays. -/
theorem test_build_overflow :
    after (fun t => (t.nodes.length, t.list, errOf t))
      (exec .build { State.reset with
        nodes := [leafN 0x41#8 0x4000000000000000#64, leafN 0x42#8 0x4000000000000000#64,
          leafN 0x43#8 0xBFFFFFFFFFFFFFFF#64]
        list := [0, 1, 2] }) = some (4, [2, 3], some (.weightOverflow, 0x12#8)) := by decide +kernel

/-- CT1. -/
theorem test_genCodes :
    after (fun t => (t.result, [codeOf t 0x41#8, codeOf t 0x43#8, codeOf t 0x42#8, codeOf t 0x44#8], statusWord t))
      (exec .genCodes v1) =
      some (3#64, [some [false], some [true, false], some [true, true], none], 0x28#64) := by decide +kernel

/-- CT4. -/
theorem test_genCodes_duplicate :
    after (fun t => (errOf t, codeOf t 0x41#8, t.ctValid)) (exec .genCodes twins) =
      some (some (.duplicateSymbol, 0x20#8), none, false) := by decide +kernel

/-- SS1. -/
theorem test_serLen : after (fun t => t.result) (exec .serLen v1) = some 7#64 := by decide +kernel

/-- SS2. -/
theorem test_serialize :
    after (fun t => (t.out, t.result)) (exec .serialize v1) =
      some ([0x5B#8, 0x41#8, 0x5B#8, 0x43#8, 0x42#8, 0x5D#8, 0x5D#8], 7#64) := by decide +kernel

/-- SS6. -/
theorem test_serialize_full :
    after (fun t => (t.out, errOf t)) (exec .serialize (withCap 3 v1)) = some ([], some (.capacityExceeded, 0x31#8)) := by
  decide +kernel

/-- SD6: escaped brackets, nodes in preorder. -/
theorem test_deserialize :
    after (fun t => (t.nodes, t.rdPtr, t.list))
      (exec .deserialize { withIn [0x5B#8, 0x5C#8, 0x5B#8, 0x5C#8, 0x5D#8, 0x5D#8] State.reset with arg := 6#64 }) =
      some ([intN 0#64 1 2, leafN 0x5B#8 0#64, leafN 0x5D#8 0#64], 6#64, [0]) := by decide +kernel

/-- SD9, "[A\]". -/
theorem test_deserialize_malformed :
    after (fun t => (t.nodes, t.rdPtr, t.rootValid, errOf t))
      (exec .deserialize { withIn [0x5B#8, 0x41#8, 0x5C#8, 0x5D#8] v1 with arg := 4#64 }) =
      some ([], 0#64, false, some (.malformedTreeString, 0x32#8)) := by decide +kernel

/-- BP3. -/
theorem test_packBit :
    after (fun t => (packStateWord t, t.out)) (exec (.packBit 1#8) { State.reset with acc := 0xFE#8, cnt := 7 }) =
      some (0#64, [0xFF#8]) := by decide +kernel

/-- BP1. -/
theorem test_packBit_first :
    after (fun t => packStateWord t) (exec (.packBit 1#8) State.reset) = some 0x180#64 := by decide +kernel

/-- BP5. -/
theorem test_packSymbol :
    after (fun t => (packStateWord t, t.out)) (exec (.packSymbol 0x42#8) { v1Codes with acc := 0xF0#8, cnt := 5 }) =
      some (0x7F6#64, []) := by decide +kernel

/-- V1: PACK_STREAM 10 over "AAAAABBBCC". -/
theorem test_packStream :
    after (fun t => (t.out, packStateWord t, t.rdPtr, t.result))
      (exec .packStream { withIn [0x41#8, 0x41#8, 0x41#8, 0x41#8, 0x41#8, 0x42#8, 0x42#8, 0x42#8, 0x43#8, 0x43#8] v1Codes
        with arg := 10#64 }) = some ([0x07#8], 0x7F4#64, 10#64, 10#64) := by decide +kernel

/-- BP14. -/
theorem test_packStream_stops :
    after (fun t => (packStateWord t, t.rdPtr, t.result, errOf t))
      (exec .packStream { withIn [0x41#8, 0x42#8, 0x43#8] abCodes with arg := 3#64 }) =
      some (0x240#64, 2#64, 2#64, some (.symbolNotInTable, 0x42#8)) := by decide +kernel

/-- BP8. -/
theorem test_flush :
    after (fun t => (packStateWord t, t.out)) (exec (.flush 1#8) { State.reset with acc := 0x80#8, cnt := 1 }) =
      some (0#64, [0x80#8]) := by decide +kernel

/-- BP7. -/
theorem test_flush_unforced :
    after (fun t => (packStateWord t, t.out)) (exec (.flush 0#8) { State.reset with acc := 0x80#8, cnt := 1 }) =
      some (0x180#64, []) := by decide +kernel

/-- V2, IN `80 01`, BIT_IDX 15. -/
theorem test_readBit :
    after (fun t => (t.result, t.bitIdx)) (exec .readBit { withIn [0x80#8, 0x01#8] State.reset with bitIdx := 15 }) =
      some (1#64, 15) := by decide +kernel

/-- BU10. -/
theorem test_readBit_past :
    after (fun t => (errOf t, t.bitIdx)) (exec .readBit { withIn [0x80#8] State.reset with bitIdx := 2 ^ 64 - 1 }) =
      some (some (.truncatedInput, 0x50#8), 2 ^ 64 - 1) := by decide +kernel

/-- BU1. -/
theorem test_decode :
    after (fun t => (t.out, t.bitIdx, t.result, t.cursor))
      (exec .decode { withIn [0x07#8, 0xF4#8] v1 with arg := 10#64 }) =
      some ([0x41#8, 0x41#8, 0x41#8, 0x41#8, 0x41#8, 0x42#8, 0x42#8, 0x42#8, 0x43#8, 0x43#8], 15, 10#64, 4) := by
  decide +kernel

/-- BU4. -/
theorem test_decode_truncated :
    after (fun t => (t.out, t.bitIdx, t.cursor, errOf t)) (exec .decode { withIn [0x7F#8] v1 with arg := 9#64 }) =
      some ([0x41#8, 0x42#8, 0x42#8, 0x42#8], 8, 3, some (.truncatedInput, 0x51#8)) := by decide +kernel

/-- CF3. -/
theorem test_emitU64 :
    after (fun t => t.out) (exec .emitU64 { State.reset with arg := 0x0102030405060708#64 }) =
      some [0x08#8, 0x07#8, 0x06#8, 0x05#8, 0x04#8, 0x03#8, 0x02#8, 0x01#8] := by decide +kernel

/-- CF5. -/
theorem test_loadU64 :
    after (fun t => (t.result, t.rdPtr))
      (exec .loadU64 (withIn [0x07#8, 0#8, 0#8, 0#8, 0#8, 0#8, 0#8, 0#8, 0x5B#8] State.reset)) = some (7#64, 8#64) := by
  decide +kernel

/-- CF6. -/
theorem test_loadU64_short :
    after (fun t => (errOf t, t.rdPtr)) (exec .loadU64 (withIn [0x07#8, 0#8, 0#8, 0#8, 0#8, 0#8, 0#8] State.reset)) =
      some (some (.truncatedInput, 0x61#8), 0#64) := by decide +kernel

/-- CF9. -/
theorem test_bitsFromPtr :
    after (fun t => t.bitIdx) (exec .bitsFromPtr { State.reset with rdPtr := 0x2000000000000003#64 }) = some 24 := by
  decide +kernel

/-! ### The host and the fetch (95_test_vectors 2.1, 2.8, 2.9) -/

/-- HI4: IN_CAP 2, and a third byte dropped. -/
theorem test_inData_full :
    after (fun t => (t.inBuf, statusWord t))
      (writeStep 0x60 0x33#64 { withIn [0x11#8, 0x22#8] State.reset with cfg := { Config.defaultParams with inCap := 2 } }) =
      some ([0x11#8, 0x22#8], 0x84#64) := by decide +kernel

/-- HI3. -/
theorem test_outData :
    after (fun t => (t.seen, t.out)) (readStep 0x80 { State.reset with out := [0x07#8, 0xF4#8] }) =
      some ([0x107#64], [0xF4#8]) := by decide +kernel

/-- V1: CODE_INFO and CODE_WORD of B, CODE_SEL = 0x42. -/
theorem test_codeWindow :
    after (fun t => t.seen) (readStep 0xD8 (nextOf (readStep 0xD0 { v1Codes with codeSel := 0x042#10 }))) =
      some [0x0201#64, 0xC000000000000000#64] := by decide +kernel

/-- EL3: a word dropped under the error lock. -/
theorem test_errorLock :
    after errOf (step { State.reset with err := some ⟨.emptyInput, 0x12#8⟩, pending := some 0xFF#64 }) =
      some (some (.emptyInput, 0x12#8)) := by decide +kernel

/-- 60_exceptions R194's example: the first decode check fails first. -/
theorem test_illegal_word :
    after errCodeWord (step (State.reset.withFetchWord 64 0x00010000000002FF)) = some 0xFF10#64 := by decide +kernel

/-- Every row of spec/opcode_table.json decodes, and runs as the first command after reset. -/
theorem test_rows_run :
    ∀ w ∈ [0x00, 0x01, 0x10, 0x11, 0x12, 0x20, 0x30, 0x31, 0x32, 0x40, 0x41, 0x42, 0x43, 0x50, 0x51, 0x60, 0x61, 0x62],
      (decodeTableWord 64 w).isSome = true ∧
      (after (fun t => t.pending.isNone) (step (State.reset.withFetchWord 64 w))) = some true := by decide +kernel

/-! ### Memory.wf -/

theorem test_memory_wf :
    Memory.wf (withCap 2 { State.reset with out := [0#8, 0#8] }) = true ∧
    Memory.wf (withCap 1 { State.reset with out := [0#8, 0#8] }) = false := by decide +kernel

/-! ### Witnesses: the hypotheses of each obligation hold together -/

/-- For a statement over a step that goes on. -/
theorem goes {i : Instr} {s : State} (h : (after (fun _ => ()) (exec i s)).isSome = true) : ∃ t, exec i s = .next t :=
  ⟨_, next_nextOf h⟩

theorem witness_CommandsAndLegalWordsMatch :
    (∀ f ∈ [0#8, 1#8], (Instr.flush f).wellFormed = true) ∧ decodeWord 0x143#64 = .ok (.flush 1#8) := by decide

/-- Any word can be the one taken; a word of each kind of 30_encoding R78 (FLUSH 2 is the least illegal force), the legal
one last. -/
theorem witness_DecodeChecksOfACoreStep :
    (∀ w : Word, CoreNext (issue w State.reset) ∧ (issue w State.reset).pending = some w ∧
      (issue w State.reset).err = none) ∧
    (0x10000#64).toNat / 65536 ≠ 0 ∧ (0x02#64).toNat % 256 = 2 ∧ (0x243#64).toNat / 256 % 256 = 2 ∧
    (0x100#64).toNat / 256 % 256 = 1 ∧ (0x143#64).toNat / 256 % 256 = 1 :=
  ⟨fun _ => ⟨.inr rfl, rfl, rfl⟩, by decide⟩

theorem witness_StepRunsTheDecodedCommand :
    CoreNext (issue 0x4110#64 v1) ∧ (issue 0x4110#64 v1).pending = some 0x4110#64 ∧ (issue 0x4110#64 v1).err = none ∧
    decodeWord 0x4110#64 = .ok (.leafPush 0x41#8) := by decide +kernel

/-- v1 with EMPTY_INPUT of BUILD latched (EL1). -/
def locked (s : State) : State := { s with err := some ⟨.emptyInput, 0x12#8⟩ }

theorem witness_LockedOrIdleCoreDoesNothing :
    (CoreNext (issue 0xFF#64 (locked v1)) ∧ (issue 0xFF#64 (locked v1)).pending = some 0xFF#64 ∧
      (issue 0xFF#64 (locked v1)).err = some ⟨.emptyInput, 0x12#8⟩) ∧
    CoreNext v1 ∧ v1.pending = none := by decide +kernel

/-- OUT_CAP 8 is the least with room, 7 the greatest without. -/
theorem witness_EmitAppendsEightLittleEndianBytes :
    outRoom (withCap 8 State.reset) 8 = true ∧ outRoom (withCap 7 State.reset) 8 = false := by decide +kernel

theorem witness_LoadReadsEightLittleEndianBytes :
    let s := withIn [1#8, 2#8, 3#8, 4#8, 5#8, 6#8, 7#8, 8#8] State.reset
    (s.inBuf.drop s.rdPtr.toNat).take 8 = [1#8, 2#8, 3#8, 4#8, 5#8, 6#8, 7#8, 8#8] ∧
    ({ s with rdPtr := 1#64 }).inBuf.length < ({ s with rdPtr := 1#64 }).rdPtr.toNat + 8 := by decide +kernel

theorem witness_LeafPushAddsALeaf :
    isPresent v1 0x44#8 = false ∧ v1.list.length ≠ 256 ∧ v1.nodes.length ≠ v1.cfg.nodeCap := by decide +kernel

theorem witness_SelectTakesTheTwoLightestInListOrder : 2 ≤ [1, 1].length := by decide

theorem witness_MergeJoinsTheTwoLightest :
    2 ≤ abc.list.length ∧ (∀ k ∈ abc.list, k < abc.nodes.length) ∧ (1 : Nat) ≠ 0 ∧
    abc.list[1]? = some 1 ∧ abc.list[0]? = some 0 ∧
    abc.nodes[1]? = some (leafN 0x62#8 1#64) ∧ abc.nodes[0]? = some (leafN 0x61#8 2#64) ∧
    (∀ j k n, abc.list[j]? = some k → abc.nodes[k]? = some n →
      (leafN 0x62#8 1#64).weight ≤ n.weight ∧ (n.weight = (leafN 0x62#8 1#64).weight → 1 ≤ j)) ∧
    (∀ j k n, j ≠ 1 → abc.list[j]? = some k → abc.nodes[k]? = some n →
      (leafN 0x61#8 2#64).weight ≤ n.weight ∧ (n.weight = (leafN 0x61#8 2#64).weight → 0 ≤ j)) ∧
    (leafN 0x62#8 1#64).weight.toNat + (leafN 0x61#8 2#64).weight.toNat < 2 ^ 64 ∧
    abc.nodes.length ≠ abc.cfg.nodeCap := by
  have key : ∀ j k n, abc.list[j]? = some k → abc.nodes[k]? = some n →
      j = 0 ∧ n = leafN 0x61#8 2#64 ∨ j = 1 ∧ n = leafN 0x62#8 1#64 ∨ j = 2 ∧ n = leafN 0x63#8 3#64 := by
    intro j k n hj hk
    obtain _ | _ | _ | j := j
    · cases hj
      cases hk
      exact .inl ⟨rfl, rfl⟩
    · cases hj
      cases hk
      exact .inr (.inl ⟨rfl, rfl⟩)
    · cases hj
      cases hk
      exact .inr (.inr ⟨rfl, rfl⟩)
    · cases hj
  refine ⟨by decide, by decide, by decide, rfl, rfl, rfl, rfl, ?_, ?_, by decide, by decide⟩
  · intro j k n hj hk
    obtain ⟨rfl, rfl⟩ | ⟨rfl, rfl⟩ | ⟨rfl, rfl⟩ := key j k n hj hk <;> decide
  · intro j k n h1 hj hk
    obtain ⟨rfl, rfl⟩ | ⟨rfl, rfl⟩ | ⟨rfl, rfl⟩ := key j k n hj hk
    · decide
    · exact absurd rfl h1
    · decide

theorem witness_MergeOfOneEntrySetsTheRoot : oneLeaf.list = [0] := rfl

theorem witness_MissingListOrTreeIsAnError : State.reset.list = [] ∧ State.reset.rootValid = false := by decide +kernel

/-- TB12's weights, which sum to 2^64 - 1, in an arena with room for exactly the one node of the one round. -/
theorem witness_BuildLeavesOneRoot :
    let s := { State.reset with
      nodes := [leafN 0x41#8 0x8000000000000000#64, leafN 0x42#8 0x7FFFFFFFFFFFFFFF#64], list := [0, 1]
      cfg := { Config.defaultParams with nodeCap := 3 } }
    s.list ≠ [] ∧ weightsOf s.nodes s.list = some [2 ^ 63, 2 ^ 63 - 1] ∧ [2 ^ 63, 2 ^ 63 - 1].sum < 2 ^ 64 ∧
    s.nodes.length + s.list.length ≤ s.cfg.nodeCap + 1 := by decide +kernel

theorem witness_BuildKeepsEveryLeaf :
    ∃ t, v1Leaves.err = none ∧ v1Leaves.list ≠ [] ∧
      forestOf v1Leaves.nodes v1Leaves.list = some [.leaf 0x41#8, .leaf 0x42#8, .leaf 0x43#8] ∧
      exec .build v1Leaves = .next t ∧ t.err = none :=
  ⟨_, by decide +kernel, by decide +kernel, by decide +kernel, next_nextOf (by decide +kernel), by decide +kernel⟩

theorem witness_BuiltTreeIsOptimal :
    ∃ t, v1Leaves.err = none ∧ 2 ≤ v1Leaves.list.length ∧
      forestOf v1Leaves.nodes v1Leaves.list = some [.leaf 0x41#8, .leaf 0x42#8, .leaf 0x43#8] ∧
      ([CodeTree.leaf 0x41#8, .leaf 0x42#8, .leaf 0x43#8].flatMap leaves).Nodup ∧
      (∀ k ∈ v1Leaves.list, ∃ n, v1Leaves.nodes[k]? = some n ∧ n.kind = .leaf ∧
        n.weight.toNat = if n.sym = 0x41#8 then 5 else if n.sym = 0x42#8 then 3 else 2) ∧
      exec .build v1Leaves = .next t ∧ t.err = none ∧ treeOf t t.root = some v1Tree ∧
      (leaves (.node (.node (.leaf 0x41#8) (.leaf 0x42#8)) (.leaf 0x43#8))).Perm (leaves v1Tree) :=
  ⟨_, by decide +kernel, by decide +kernel, by decide +kernel, by decide +kernel, by
    intro k hk
    obtain rfl | rfl | rfl : k = 0 ∨ k = 1 ∨ k = 2 := by simpa [v1Leaves] using hk
    · exact ⟨_, rfl, rfl, by decide⟩
    · exact ⟨_, rfl, rfl, by decide⟩
    · exact ⟨_, rfl, rfl, by decide⟩, next_nextOf (by decide +kernel), by decide +kernel, by decide +kernel, by decide⟩

/-- abc with weights whose first round overflows. -/
def heavy : State :=
  { abc with nodes := [leafN 0x61#8 0xFFFFFFFFFFFFFFFF#64, leafN 0x62#8 1#64], list := [0, 1] }

/-- `s` in an arena of `n` entries. -/
def withNodeCap (n : Nat) (s : State) : State := { s with cfg := { s.cfg with nodeCap := n } }

theorem witness_BuildIsRepeatedMerge :
    (∃ t, abc.err = none ∧ 2 ≤ abc.list.length ∧ exec .merge abc = .next t ∧ t.err = none ∧ 2 ≤ t.list.length) ∧
    (∃ s t, s.err = none ∧ 2 ≤ s.list.length ∧ exec .merge s = .next t ∧ t.err = none ∧ t.list.length ≤ 1) ∧
    ∃ t, heavy.err = none ∧ 2 ≤ heavy.list.length ∧ exec .merge heavy = .next t ∧
      t.err = some ⟨.weightOverflow, 0x11#8⟩ :=
  ⟨⟨_, by decide +kernel, by decide +kernel, next_nextOf (by decide +kernel), by decide +kernel, by decide +kernel⟩,
   ⟨nextOf (exec .merge abc), _, by decide +kernel, by decide +kernel, next_nextOf (by decide +kernel), by decide +kernel,
    by decide +kernel⟩,
   ⟨_, by decide +kernel, by decide +kernel, next_nextOf (by decide +kernel), by decide +kernel⟩⟩

theorem witness_TreeBuilderErrorsInOrder :
    isPresent { State.reset with symPresent := 0x3#256 } 1#8 = true ∧
    (isPresent (withNodeCap 3 abc) 0x41#8 = false ∧ (withNodeCap 3 abc).nodes.length = (withNodeCap 3 abc).cfg.nodeCap) ∧
    (isPresent { abc with list := List.replicate 256 0 } 0x41#8 = false ∧
      ({ abc with list := List.replicate 256 0 }).list.length = 256) ∧
    (2 ≤ heavy.list.length ∧ weightsOf heavy.nodes heavy.list = some [2 ^ 64 - 1, 1] ∧
      2 ^ 64 ≤ [2 ^ 64 - 1, 1].getD (select2 [2 ^ 64 - 1, 1]).1 0 + [2 ^ 64 - 1, 1].getD (select2 [2 ^ 64 - 1, 1]).2 0) ∧
    (2 ≤ (withNodeCap 3 abc).list.length ∧ weightsOf (withNodeCap 3 abc).nodes (withNodeCap 3 abc).list = some [2, 1, 3] ∧
      [2, 1, 3].getD (select2 [2, 1, 3]).1 0 + [2, 1, 3].getD (select2 [2, 1, 3]).2 0 < 2 ^ 64 ∧
      (withNodeCap 3 abc).nodes.length = (withNodeCap 3 abc).cfg.nodeCap) := by decide +kernel

/-- The left comb of depth `n` over the symbols n down to 0 (modulo 256). -/
def comb : Nat → CodeTree
  | 0 => .leaf 0#8
  | n + 1 => .node (comb n) (.leaf (BitVec.ofNat 8 (n + 1)))

/-- The state DESERIALIZE leaves for a tree. -/
def grown (t : CodeTree) : State := { State.reset with nodes := preorder t 0, list := [0], rootValid := true }

theorem witness_GenCodesRecordsThePaths :
    v1.rootValid = true ∧ treeOf v1 v1.root = some v1Tree ∧ (leaves v1Tree).Nodup ∧
    ∀ p x, LeafAt v1Tree p x → p.length ≤ 255 := by
  refine ⟨rfl, by decide +kernel, by decide, fun p x h => ?_⟩
  have key : ∀ q ∈ leafPaths v1Tree [], q.1.length ≤ 255 := by decide
  exact key _ (leafAt_iff_mem.1 h)

theorem leafPaths_comb (n : Nat) (p : Code) :
    leafPaths (comb n) p = (p ++ List.replicate n false, 0#8) :: (leafPaths (comb n) p).tail := by
  induction n generalizing p with
  | zero => simp [comb, leafPaths]
  | succ n ih =>
    rw [comb, leafPaths, ih, List.append_assoc, List.singleton_append, List.cons_append, List.tail_cons]
    rfl

theorem treeOf_grown (t : CodeTree) : treeOf (grown t) 0 = some t := by
  simpa [treeOf, grown] using readTree_preorder t [] [] (treeSize t) (Nat.le_refl _)

/-- A repeated symbol (CT4), and a leaf at depth 256 (CT5), the least that is too deep. -/
theorem witness_GenCodesStopsAtTheFirstBadLeaf :
    (twins.rootValid = true ∧ treeOf twins twins.root = some (.node (.leaf 0x41#8) (.leaf 0x41#8)) ∧
      leafPaths (.node (.leaf 0x41#8) (.leaf 0x41#8)) [] = [([false], 0x41#8)] ++ ([true], 0x41#8) :: [] ∧
      (∀ q ∈ [(([false] : Code), 0x41#8)], q.1.length ≤ 255) ∧ ([(([false] : Code), 0x41#8)].map Prod.snd).Nodup ∧
      0x41#8 ∈ [(([false] : Code), 0x41#8)].map Prod.snd) ∧
    (grown (comb 256)).rootValid = true ∧ treeOf (grown (comb 256)) (grown (comb 256)).root = some (comb 256) ∧
    leafPaths (comb 256) [] = [] ++ (List.replicate 256 false, 0#8) :: (leafPaths (comb 256) []).tail ∧
    255 < (List.replicate 256 false).length :=
  ⟨by decide +kernel, rfl, treeOf_grown _, leafPaths_comb 256 [], by rw [List.length_replicate]; decide⟩

theorem witness_GeneratedCodesAreFreeOfPrefixes :
    ∃ t, v1.err = none ∧ exec .genCodes v1 = .next t ∧ t.err = none ∧ codeOf t 0x43#8 = some [true, false] ∧
      codeOf t 0x42#8 = some [true, true] ∧ 0x43#8 ≠ 0x42#8 :=
  ⟨_, by decide +kernel, next_nextOf (by decide +kernel), by decide +kernel, by decide +kernel, by decide +kernel,
    by decide⟩

theorem witness_TableCoversTheLeaves :
    ∃ t, (withIn [0x44#8] { v1 with arg := 1#64 }).err = none ∧
      exec .genCodes (withIn [0x44#8] { v1 with arg := 1#64 }) = .next t ∧ t.err = none ∧ treeOf t t.root = some v1Tree ∧
      0x44#8 ∉ leaves v1Tree ∧ t.arg ≠ 0#64 ∧ t.inBuf[t.rdPtr.toNat]? = some 0x44#8 :=
  ⟨_, by decide +kernel, next_nextOf (by decide +kernel), by decide +kernel, by decide +kernel, by decide +kernel,
    by decide +kernel, by decide +kernel⟩

theorem witness_TreeStringHasItsLengthAndOneTree :
    (leaves v1Tree).Nodup ∧ serBytes v1Tree = serBytes v1Tree := by decide +kernel

/-- OUT_CAP 7 is the least with room for "[A[CB]]". -/
theorem witness_SerializeAppendsTheTreeString :
    v1.rootValid = true ∧ treeOf v1 v1.root = some v1Tree ∧ outRoom (withCap 7 v1) (serBytes v1Tree).length = true ∧
    outRoom (withCap 6 v1) (serBytes v1Tree).length = false := by decide +kernel

/-- "[A\A]": a plain leaf and an escaped plain byte. -/
theorem treeString_example :
    TreeString [0x5B#8, 0x41#8, 0x5C#8, 0x41#8, 0x5D#8] (.node (.leaf 0x41#8) (.leaf 0x41#8)) :=
  .internal [0x41#8] [0x5C#8, 0x41#8] _ _ (.plain _ (by decide)) (.escaped _)

/-- That string in IN, whole. -/
def strIn : State := { withIn [0x5B#8, 0x41#8, 0x5C#8, 0x41#8, 0x5D#8] State.reset with arg := 5#64 }

theorem witness_DeserializeLaysOutTheTree :
    TreeString [0x5B#8, 0x41#8, 0x5C#8, 0x41#8, 0x5D#8] (.node (.leaf 0x41#8) (.leaf 0x41#8)) ∧
    treeSize (.node (.leaf 0x41#8) (.leaf 0x41#8)) ≤ (withNodeCap 3 strIn).cfg.nodeCap ∧
    strIn.rdPtr.toNat + strIn.arg.toNat ≤ strIn.inBuf.length ∧
    (strIn.inBuf.drop strIn.rdPtr.toNat).take strIn.arg.toNat = [0x5B#8, 0x41#8, 0x5C#8, 0x41#8, 0x5D#8] :=
  ⟨treeString_example, by decide +kernel⟩

/-- A lone LB is no tree string (90_conflicts C1). -/
theorem lone_bracket_malformed (t : CodeTree) : ¬ TreeString [0x5B#8] t := by
  intro h
  generalize hb : [0x5B#8] = bytes at h
  cases h with
  | plain x hx =>
    obtain rfl := List.head_eq_of_cons_eq hb
    exact absurd hx (by decide)
  | escaped x => simp at hb
  | internal a b l r => simp at hb

theorem witness_DeserializeRefusesEverythingElse :
    let long := { strIn with arg := 6#64 }
    let one := { strIn with arg := 1#64 }
    let tight := withNodeCap 2 strIn
    (∀ t, ¬ TreeString [0x5B#8] t) ∧
    TreeString [0x5B#8, 0x41#8, 0x5C#8, 0x41#8, 0x5D#8] (.node (.leaf 0x41#8) (.leaf 0x41#8)) ∧
    long.inBuf.length < long.rdPtr.toNat + long.arg.toNat ∧
    (one.rdPtr.toNat + one.arg.toNat ≤ one.inBuf.length ∧
      (one.inBuf.drop one.rdPtr.toNat).take one.arg.toNat = [0x5B#8]) ∧
    [0x5B#8].length ≤ (withNodeCap 1 one).cfg.nodeCap ∧ (withNodeCap 0 one).cfg.nodeCap < [0x5B#8].length ∧
    tight.rdPtr.toNat + tight.arg.toNat ≤ tight.inBuf.length ∧
    (tight.inBuf.drop tight.rdPtr.toNat).take tight.arg.toNat = [0x5B#8, 0x41#8, 0x5C#8, 0x41#8, 0x5D#8] ∧
    tight.cfg.nodeCap < treeSize (.node (.leaf 0x41#8) (.leaf 0x41#8)) :=
  ⟨lone_bracket_malformed, treeString_example, by decide +kernel⟩

theorem witness_DeserializeOfSerializedIsTheTree :
    let u := { withIn [0x5B#8, 0x41#8, 0x5B#8, 0x43#8, 0x42#8, 0x5D#8, 0x5D#8] State.reset with arg := 7#64 }
    v1.rootValid = true ∧ treeOf v1 v1.root = some v1Tree ∧ u.arg.toNat = serLength v1Tree ∧
    u.rdPtr.toNat + u.arg.toNat ≤ u.inBuf.length ∧
    (u.inBuf.drop u.rdPtr.toNat).take u.arg.toNat = serBytes v1Tree ∧ treeSize v1Tree ≤ u.cfg.nodeCap := by
  decide +kernel

/-- The packer one bit short of a byte (BP3), with OUT_CAP `cap`. -/
def almost (cap : Nat) : State := withCap cap { v1Codes with acc := 0xFE#8, cnt := 7 }

theorem witness_PackBitAddsTheBit :
    (PackerInvariant (almost 1) ∧ ((almost 1).cnt = 7 → outRoom (almost 1) 1 = true)) ∧
    ((1#8).toNat ≤ 1 ∧ (almost 0).cnt = 7 ∧ outRoom (almost 0) 1 = false) ∧ 1 < (2#8).toNat := by decide +kernel

theorem witness_PackSymbolAddsTheCode :
    (PackerInvariant (almost 1) ∧ codeOf (almost 1) 0x42#8 = some [true, true] ∧
      outRoom (almost 1) (((almost 1).cnt.val + [true, true].length) / 8) = true) ∧
    (codeOf (almost 0) 0x42#8 = some [true, true] ∧
      outRoom (almost 0) (((almost 0).cnt.val + [true, true].length) / 8) = false) ∧
    codeOf (almost 0) 0x44#8 = none := by decide +kernel

/-- "AB" in IN under the codes A = 0, B = 1, `n` symbols asked for. -/
def abIn (n : Word) : State := withIn [0x41#8, 0x42#8] { abCodes with arg := n }

theorem witness_PackStreamAddsTheCodes :
    (PackerInvariant (abIn 2#64) ∧ InBounded (abIn 2#64) ∧ [0x41#8, 0x42#8].length = (abIn 2#64).arg.toNat ∧
      (abIn 2#64).rdPtr.toNat + (abIn 2#64).arg.toNat ≤ (abIn 2#64).inBuf.length ∧
      ((abIn 2#64).inBuf.drop (abIn 2#64).rdPtr.toNat).take (abIn 2#64).arg.toNat = [0x41#8, 0x42#8] ∧
      codesOf (abIn 2#64) [0x41#8, 0x42#8] = some [false, true] ∧
      outRoom (abIn 2#64) (((abIn 2#64).cnt.val + [false, true].length) / 8) = true) ∧
    (([] : List Byte).length = (abIn 0#64).arg.toNat ∧
      ((abIn 0#64).inBuf.drop (abIn 0#64).rdPtr.toNat).take (abIn 0#64).arg.toNat = [] ∧
      codesOf (abIn 0#64) [] = some [] ∧ outRoom (abIn 0#64) 0 = true) := by decide +kernel

/-- BP13, BP14, and a full OUT. -/
theorem witness_PackStreamStopsAtTheFailingSymbol :
    let s := abIn 3#64
    let s' := withIn [0x41#8, 0x42#8, 0x43#8] s
    let f := withCap 0 { s with acc := 0xF8#8, cnt := 5 }
    let f' := withIn [0x41#8, 0x42#8, 0x41#8] f
    (PackerInvariant s ∧ InBounded s ∧ [0x41#8, 0x42#8].length < s.arg.toNat ∧
      s.rdPtr.toNat + [0x41#8, 0x42#8].length ≤ s.inBuf.length ∧
      (s.inBuf.drop s.rdPtr.toNat).take [0x41#8, 0x42#8].length = [0x41#8, 0x42#8] ∧
      codesOf s [0x41#8, 0x42#8] = some [false, true] ∧ outRoom s ((s.cnt.val + [false, true].length) / 8) = true) ∧
    s.inBuf[s.rdPtr.toNat + [0x41#8, 0x42#8].length]? = none ∧
    (s'.inBuf[s'.rdPtr.toNat + [0x41#8, 0x42#8].length]? = some 0x43#8 ∧ codeOf s' 0x43#8 = none) ∧
    (PackerInvariant f' ∧ InBounded f' ∧ f'.inBuf[f'.rdPtr.toNat + [0x41#8, 0x42#8].length]? = some 0x41#8 ∧
      codeOf f' 0x41#8 = some [false] ∧ outRoom f' ((f'.cnt.val + [false, true].length) / 8) = true ∧
      outRoom f' ((f'.cnt.val + [false, true].length + [false].length) / 8) = false) := by decide +kernel

theorem witness_FlushWritesAPartialByte :
    (0 < (almost 1).cnt.val ∧ outRoom (almost 1) 1 = true) ∧ (0 < (almost 0).cnt.val ∧ outRoom (almost 0) 1 = false) ∧
    v1.cnt.val = 0 := by decide +kernel

theorem witness_PackedStreamIsThePaddedCodes :
    (abIn 2#64).cnt = 0 ∧ (abIn 2#64).acc = 0#8 ∧ InBounded (abIn 2#64) ∧
    [0x41#8, 0x42#8].length = (abIn 2#64).arg.toNat ∧
    (abIn 2#64).rdPtr.toNat + (abIn 2#64).arg.toNat ≤ (abIn 2#64).inBuf.length ∧
    ((abIn 2#64).inBuf.drop (abIn 2#64).rdPtr.toNat).take (abIn 2#64).arg.toNat = [0x41#8, 0x42#8] ∧
    codesOf (abIn 2#64) [0x41#8, 0x42#8] = some [false, true] ∧
    outRoom (withCap 1 (abIn 2#64)) (([false, true].length + 7) / 8) = true := by decide +kernel

/-- The last bit of a one-byte IN, and the first one past it. -/
theorem witness_ReadBitIsMostSignificantFirst :
    (withIn [0x80#8] State.reset).inBuf[({ withIn [0x80#8] State.reset with bitIdx := 7 }).bitIdx / 8]? = some 0x80#8 ∧
    (withIn [0x80#8] State.reset).inBuf.length ≤ ({ withIn [0x80#8] State.reset with bitIdx := 8 }).bitIdx / 8 := by
  decide +kernel

theorem streamHolds_of_all {s : State} {bits : Code}
    (h : ((List.range bits.length).all fun i => readStreamBit s (s.bitIdx + i) == bits[i]?) = true) :
    StreamHolds s bits := by
  intro i hi
  have := List.all_eq_true.1 h i (List.mem_range.2 hi)
  rw [beq_iff_eq.1 this, List.getElem?_eq_getElem hi]

/-- IN `7F` for the tree (A, (C, B)): A, B, B, B, and one bit more (BU4), `n` symbols asked for. -/
def v1In (n : Word) : State := withIn [0x7F#8] { v1 with arg := n }

/-- A walk from node 3, the inside of the tree, to B; then B, B. -/
theorem witness_DecodeEmitsTheSpelledSymbols :
    let s := { v1In 3#64 with bitIdx := 2, cursor := 3 }
    s.rootValid = true ∧ ({ s with arg := 0#64 }).arg = 0#64 ∧ treeOf s s.root = some v1Tree ∧
    treeOf s s.cursor = some (.node (.leaf 0x43#8) (.leaf 0x42#8)) ∧ s.arg.toNat = [0x42#8, 0x42#8].length + 1 ∧
    LeafAt (.node (.leaf 0x43#8) (.leaf 0x42#8)) [true] 0x42#8 ∧ Spells v1Tree [0x42#8, 0x42#8] [true, true, true, true] ∧
    StreamHolds s ([true] ++ [true, true, true, true]) ∧ outRoom (withCap 3 s) ([0x42#8, 0x42#8].length + 1) = true :=
  ⟨by decide +kernel, rfl, by decide +kernel, by decide +kernel, by decide +kernel, rfl,
   ⟨[true, true], _, rfl, rfl, [true, true], _, rfl, rfl, rfl⟩, streamHolds_of_all (by decide +kernel), by decide +kernel⟩

theorem spellsFrom_b : SpellsFrom v1Tree (.node (.leaf 0x43#8) (.leaf 0x42#8)) [0x42#8] [true] v1Tree :=
  ⟨rfl, [true], [], rfl, rfl, rfl⟩

/-- A walk from node 3, inside the tree: it emits B and runs out of bits at node 3 again, it runs out with nothing
emitted, and it reaches B with OUT full; and BU11's full OUT from the root. -/
theorem witness_DecodeKeepsWhatItEmitted :
    (let s := { v1In 9#64 with bitIdx := 6, cursor := 3 }
     s.rootValid = true ∧ treeOf s s.root = some v1Tree ∧
     treeOf s s.cursor = some (.node (.leaf 0x43#8) (.leaf 0x42#8)) ∧ [0x42#8].length < s.arg.toNat ∧
     SpellsFrom v1Tree (.node (.leaf 0x43#8) (.leaf 0x42#8)) [0x42#8] [true] v1Tree ∧ StreamHolds s ([true] ++ [true]) ∧
     outRoom s [0x42#8].length = true ∧ (∃ l r, follow v1Tree [true] = some (.node l r)) ∧
     readStreamBit s (s.bitIdx + ([true] ++ [true]).length) = none) ∧
    (let s := { v1In 9#64 with bitIdx := 8, cursor := 3 }
     let c := CodeTree.node (.leaf 0x43#8) (.leaf 0x42#8)
     treeOf s s.cursor = some c ∧ SpellsFrom v1Tree c [] [] c ∧ StreamHolds s ([] ++ []) ∧
     (∃ l r, follow c [] = some (.node l r)) ∧ readStreamBit s (s.bitIdx + (([] : Code) ++ []).length) = none) ∧
    (let s := withCap 0 { v1In 9#64 with bitIdx := 6, cursor := 3 }
     let c := CodeTree.node (.leaf 0x43#8) (.leaf 0x42#8)
     treeOf s s.cursor = some c ∧ SpellsFrom v1Tree c [] [] c ∧ StreamHolds s ([] ++ [true]) ∧
     outRoom s ([] : List Byte).length = true ∧ (∃ x, LeafAt c [true] x) ∧ outRoom s (([] : List Byte).length + 1) = false) ∧
    (let s := withCap 2 { oneLeaf with arg := 3#64 }
     s.rootValid = true ∧ treeOf s s.root = some (.leaf 0x41#8) ∧ treeOf s s.cursor = some (.leaf 0x41#8) ∧
     [0x41#8, 0x41#8].length < s.arg.toNat ∧
     SpellsFrom (.leaf 0x41#8) (.leaf 0x41#8) [0x41#8, 0x41#8] [] (.leaf 0x41#8) ∧ StreamHolds s ([] ++ []) ∧
     outRoom s [0x41#8, 0x41#8].length = true ∧ (∃ x, LeafAt (.leaf 0x41#8) [] x) ∧
     outRoom s ([0x41#8, 0x41#8].length + 1) = false) :=
  ⟨⟨by decide +kernel, by decide +kernel, by decide +kernel, by decide +kernel, spellsFrom_b,
    streamHolds_of_all (by decide +kernel), by decide +kernel, ⟨_, _, rfl⟩, by decide +kernel⟩,
   ⟨by decide +kernel, ⟨rfl, rfl⟩, streamHolds_of_all (by decide +kernel), ⟨_, _, rfl⟩, by decide +kernel⟩,
   ⟨by decide +kernel, ⟨rfl, rfl⟩, streamHolds_of_all (by decide +kernel), by decide +kernel, ⟨_, rfl⟩,
    by decide +kernel⟩,
   ⟨by decide +kernel, by decide +kernel, by decide +kernel, by decide +kernel,
    ⟨rfl, [], _, rfl, rfl, [], _, rfl, rfl, rfl⟩, streamHolds_of_all (by decide +kernel), by decide +kernel, ⟨_, rfl⟩,
    by decide +kernel⟩⟩

/-- "AB" is packed to `40`, and decoded behind "[AB]" (BU2). -/
theorem witness_DecodeOfEncodeIsTheInput :
    let s := abIn 2#64
    let u := { withIn [0x5B#8, 0x41#8, 0x42#8, 0x5D#8, 0x40#8] ab with arg := 2#64, bitIdx := 32 }
    [0x41#8, 0x42#8] ≠ [] ∧ s.cnt = 0 ∧ s.acc = 0#8 ∧ InBounded s ∧ [0x41#8, 0x42#8].length = s.arg.toNat ∧
    s.rdPtr.toNat + s.arg.toNat ≤ s.inBuf.length ∧ (s.inBuf.drop s.rdPtr.toNat).take s.arg.toNat = [0x41#8, 0x42#8] ∧
    (∀ x p, codeOf s x = some p → LeafAt (.node (.leaf 0x41#8) (.leaf 0x42#8)) p x) ∧
    codesOf s [0x41#8, 0x42#8] = some [false, true] ∧ outRoom s (([false, true].length + 7) / 8) = true ∧
    u.rootValid = true ∧ treeOf u u.root = some (.node (.leaf 0x41#8) (.leaf 0x42#8)) ∧ u.cursor = u.root ∧
    u.arg = s.arg ∧ u.bitIdx = 8 * [0x5B#8, 0x41#8, 0x42#8, 0x5D#8].length ∧ outRoom u [0x41#8, 0x42#8].length = true ∧
    u.inBuf = [0x5B#8, 0x41#8, 0x42#8, 0x5D#8] ++ [0x40#8] ++ [] := by
  refine ⟨by decide, by decide +kernel, by decide +kernel, by decide +kernel, by decide +kernel, by decide +kernel,
    by decide +kernel, ?_, by decide +kernel, by decide +kernel, by decide +kernel, by decide +kernel, by decide +kernel,
    by decide +kernel, by decide +kernel, by decide +kernel, by decide +kernel⟩
  intro x p h
  change codeOf (setCode 0x42#8 [true] (setCode 0x41#8 [false] State.reset)) x = some p at h
  rw [codeOf_setCode, codeOf_setCode] at h
  split at h
  · obtain rfl := Option.some.inj h
    subst x
    rfl
  · split at h
    · obtain rfl := Option.some.inj h
      subst x
      rfl
    · exact absurd (h.symm.trans (Vector.getElem_replicate ..)) (by simp)

theorem witness_SingleStepCommandsAreAllOrNothing :
    ∃ t, State.reset.err = none ∧ exec .merge State.reset = .next t ∧ t.err = some ⟨.emptyInput, 0x11#8⟩ :=
  ⟨_, by decide +kernel, next_nextOf (by decide +kernel), by decide +kernel⟩

theorem witness_ErrorsAreThoseOfTheCommand :
    ∃ t, State.reset.err = none ∧ exec .build State.reset = .next t ∧ t.err = some ⟨.emptyInput, 0x12#8⟩ :=
  ⟨_, by decide +kernel, next_nextOf (by decide +kernel), by decide +kernel⟩

/-- The error is kept by a dropped command, and cleared by CTRL = 2. -/
theorem witness_ErrorsDoNotNest :
    (locked v1).err = some ⟨.emptyInput, 0x12#8⟩ ∧
    (∃ t, step (issue 0x4110#64 (locked v1)) = .next t ∧ t.err = some ⟨.emptyInput, 0x12#8⟩) ∧
    ∃ t, step { locked v1 with turns := [.write 64 8 2#64] } = .next t ∧ t.err = none :=
  ⟨by decide +kernel, ⟨_, next_nextOf (by decide +kernel), by decide +kernel⟩,
    _, next_nextOf (by decide +kernel), by decide +kernel⟩

theorem witness_BusyCoreIgnoresTheHost :
    (issue 0x12#64 v1).pending = some 0x12#64 ∧ (∀ off ∈ [0x00, 0x08, 0x10, 0xF8], off % 8 = 0 ∧ off ≤ 0xF8) ∧
    (1#64).getLsbD 0 = true ∧ (2#64).getLsbD 0 = false := by decide +kernel

/-- The last register is admitted; the next address, a half word and a narrow access are not. -/
theorem witness_OnlyAlignedRegisterAccessesHaveAStep :
    (∃ off, off % 8 = 0 ∧ off ≤ 0xF8 ∧ 0xF8 = v1.cfg.base + off) ∧
    (¬ ∃ off, off % 8 = 0 ∧ off ≤ 0xF8 ∧ 0x100 = v1.cfg.base + off) ∧
    (¬ ∃ off, off % 8 = 0 ∧ off ≤ 0xF8 ∧ 4 = v1.cfg.base + off) ∧ (32 : Nat) ≠ 64 := by
  have hb : v1.cfg.base = 0 := rfl
  rw [hb]
  exact ⟨⟨0xF8, by decide⟩, fun ⟨off, h⟩ => by omega, fun ⟨off, h⟩ => by omega, by decide⟩

theorem witness_IdleWritesReachTheirRegister : v1.pending = none := rfl

/-- IN with room for one byte more, and full; OUT with a byte, and empty. -/
theorem witness_StreamPortsAppendAndPop :
    let s := { withIn [0x11#8] State.reset with cfg := { Config.defaultParams with inCap := 2 } }
    let f := { withIn [0x11#8, 0x22#8] State.reset with cfg := { Config.defaultParams with inCap := 2 } }
    s.pending = none ∧ f.pending = none ∧ s.inBuf.length < s.cfg.inCap ∧ f.cfg.inCap ≤ f.inBuf.length ∧
    ({ s with out := [0x07#8] }).out = 0x07#8 :: [] ∧ s.out = [] := by decide +kernel

theorem witness_ControlBitsActIndependently :
    v1.pending = none ∧ (3#64).getLsbD 0 = true ∧ (0xE#64).getLsbD 0 = false := by decide +kernel

/-- The last entry of the arena and the list, and the first past them; the code of B, and no code of D. -/
theorem witness_WindowsShowTheSelectedEntry :
    v1Codes.pending = none ∧
    ({ v1Codes with nodeSel := 4#64 }).nodes[({ v1Codes with nodeSel := 4#64 }).nodeSel.toNat]? = some (intN 10#64 0 3) ∧
    ({ v1Codes with nodeSel := 5#64 }).nodes.length ≤ ({ v1Codes with nodeSel := 5#64 }).nodeSel.toNat ∧
    v1Codes.list[v1Codes.listSel.toNat]? = some 4 ∧
    ({ v1Codes with listSel := 1#64 }).list.length ≤ ({ v1Codes with listSel := 1#64 }).listSel.toNat ∧
    codeOf { v1Codes with codeSel := 0x344#10 } (BitVec.ofNat 8 ({ v1Codes with codeSel := 0x344#10 }).codeSel.toNat) = none ∧
    codeOf { v1Codes with codeSel := 0x342#10 } (BitVec.ofNat 8 ({ v1Codes with codeSel := 0x342#10 }).codeSel.toNat) =
      some [true, true] ∧ [true, true].length ≤ 255 := by decide +kernel

theorem witness_IdleReadsReturnTheRegister :
    v1.pending = none ∧ v1.err = none ∧ (locked v1).pending = none ∧ (locked v1).err = some ⟨.emptyInput, 0x12#8⟩ ∧
    2 ^ 64 - 1 < 2 ^ 64 := by decide +kernel

theorem witness_ResetEmptiesEverything : 1 ≤ ({ Config.defaultParams with inCap := 1 } : Config.Params).inCap := by decide

theorem witness_CommandsLeaveTheHostsState : ∃ t, exec .decode (v1In 4#64) = .next t := goes (by decide +kernel)

theorem witness_TreeCommandFrames :
    (∃ t, exec (.leafPush 0x44#8) v1 = .next t) ∧ (∃ t, exec .merge abc = .next t) ∧ (∃ t, exec .build abc = .next t) ∧
    ∃ t, exec .genCodes v1 = .next t :=
  ⟨goes (by decide +kernel), goes (by decide +kernel), goes (by decide +kernel), goes (by decide +kernel)⟩

theorem witness_ControlAndSerdesFrames :
    (∃ t, exec .nop v1 = .next t) ∧ (∃ t, exec .treeClear v1 = .next t) ∧ (∃ t, exec .emitU64 v1 = .next t) ∧
    (∃ t, exec .loadU64 strIn = .next t) ∧ (∃ t, exec .bitsFromPtr v1 = .next t) ∧ (∃ t, exec .serLen v1 = .next t) ∧
    (∃ t, exec .serialize v1 = .next t) ∧ ∃ t, exec .deserialize strIn = .next t :=
  ⟨goes (by decide +kernel), goes (by decide +kernel), goes (by decide +kernel), goes (by decide +kernel),
   goes (by decide +kernel), goes (by decide +kernel), goes (by decide +kernel), goes (by decide +kernel)⟩

theorem witness_StreamCommandFrames :
    (∃ t, exec (.packBit 1#8) v1Codes = .next t) ∧ (∃ t, exec (.packSymbol 0x42#8) v1Codes = .next t) ∧
    (∃ t, exec (.flush 1#8) (almost 1) = .next t) ∧ (∃ t, exec .packStream (abIn 2#64) = .next t) ∧
    (∃ t, exec .readBit (v1In 1#64) = .next t) ∧ ∃ t, exec .decode (v1In 4#64) = .next t :=
  ⟨goes (by decide +kernel), goes (by decide +kernel), goes (by decide +kernel), goes (by decide +kernel),
   goes (by decide +kernel), goes (by decide +kernel)⟩

/-- The least parameters the spec allows, and the largest IN_CAP. -/
theorem witness_ResetIsGood :
    (⟨511, 1, some 0, 0⟩ : Config.Params).Wf ∧ (⟨511, 2 ^ 61, none, 0⟩ : Config.Params).Wf := by decide

theorem v1_invariant {s : State} (hn : s.nodes = v1.nodes) (hl : s.list = [4]) (hr : s.root = 4) (hc : s.cursor = 4) :
    TreeInvariant s := by
  refine ⟨⟨by rw [hl, hn]; decide, by rw [hn]; decide⟩, ?_, fun _ => ⟨by rw [hl, hr], ?_⟩⟩
  · unfold ForestStrict
    rw [hl, hn]
    show [4, 0, 3, 2, 1].Nodup
    decide
  · rw [hn, hr, hc]
    show 4 ∈ [4, 0, 3, 2, 1]
    decide

theorem witness_StepKeepsTheTreeInvariants :
    TreeInvariant (issue 0x51#64 (v1In 4#64)) ∧ ∃ t, step (issue 0x51#64 (v1In 4#64)) = .next t :=
  ⟨v1_invariant rfl rfl rfl rfl, _, next_nextOf (by decide +kernel)⟩

/-- The table of v1Codes is that of its tree. -/
theorem v1Codes_table : TableInvariant v1Codes := by
  refine ⟨fun h => absurd h (by decide +kernel), fun _ => ⟨by decide +kernel, v1Tree, by decide +kernel, fun x p => ?_⟩⟩
  rw [leafAt_iff_mem]
  change codeOf (setCode 0x42#8 [true, true] (setCode 0x43#8 [true, false] (setCode 0x41#8 [false] State.reset))) x =
    some p ↔ (p, x) ∈ [([false], 0x41#8), ([true, false], 0x43#8), ([true, true], 0x42#8)]
  have hr : codeOf State.reset x = none := Vector.getElem_replicate ..
  rw [codeOf_setCode, codeOf_setCode, codeOf_setCode, hr]
  by_cases h1 : x = 0x42#8
  · subst h1
    simp [eq_comm]
  · by_cases h2 : x = 0x43#8
    · subst h2
      simp [eq_comm]
    · by_cases h3 : x = 0x41#8
      · subst h3
        simp [eq_comm]
      · simp [h1, h2, h3]

theorem witness_StepKeepsTheTableCurrent :
    TreeInvariant v1Codes ∧ TableInvariant v1Codes ∧ ∃ t, step v1Codes = .next t :=
  ⟨v1_invariant rfl rfl rfl rfl, v1Codes_table, _, next_nextOf (by decide +kernel)⟩

theorem witness_StepKeepsPackerCapacitiesAndCodes :
    (∃ t, step (issue 0x140#64 (almost 1)) = .next t) ∧ PackerInvariant (issue 0x140#64 (almost 1)) ∧
    WithinCapacity (issue 0x140#64 (almost 1)) ∧ NoReservedError (issue 0x140#64 (almost 1)) ∧
    (issue 0x140#64 (almost 1)).cfg.Wf ∧ PointerInRange (issue 0x140#64 (almost 1)) :=
  ⟨⟨_, next_nextOf (by decide +kernel)⟩, by decide +kernel, by decide +kernel, fun _ h => (nomatch h), by decide +kernel,
    by decide +kernel⟩

theorem witness_GoodStatesNeverFault : Good v1Codes :=
  ⟨by decide +kernel, v1_invariant rfl rfl rfl rfl, v1Codes_table, by decide +kernel, by decide +kernel, fun _ h => (nomatch h),
    by decide +kernel⟩

end Sys2Proof.Tests
end

section
/-! SUPPORT. What every command can come to, said once: a rule for each way a command is put together, the frame of each
of the 18 commands with the errors it may raise, and the cases of a step. -/

namespace Sys2Proof.Machine

variable {α β : Type} {es : List ErrorCode} {P : State → Prop} {op : Byte} {s t : State}

/-! ### Where a command ends -/

/-- Wherever `c` ends, completed or stopped by an error, its state meets `P`, and the error is one of `es`. -/
def Cmd.EndsIn (es : List ErrorCode) (P : State → Prop) : Cmd α → Prop
  | .done _ t => P t
  | .raised e t => e ∈ es ∧ P t
  | .broken => True

@[simp] theorem endsIn_done {a : α} : (Cmd.done a t).EndsIn es P ↔ P t := Iff.rfl
@[simp] theorem endsIn_raised {e : ErrorCode} : (Cmd.raised e t : Cmd α).EndsIn es P ↔ e ∈ es ∧ P t := Iff.rfl
@[simp] theorem endsIn_broken : (Cmd.broken : Cmd α).EndsIn es P := trivial

theorem Cmd.EndsIn.andThen {c : Cmd α} {f : α → State → Cmd β} (hc : c.EndsIn es P)
    (hf : ∀ a t, c = .done a t → P t → (f a t).EndsIn es P) : (c.andThen f).EndsIn es P := by
  cases c with
  | done a t => exact hf a t rfl hc
  | raised e t => exact hc
  | broken => trivial

/-- Wherever the outcome `o` of a command with OP byte `op` is a next state, it meets `P`, or it is such a state with one
of the errors `es` latched over it (60_exceptions R192, R195). -/
def AnswersIn (o : Host.Outcome State Fault Refusal) (op : Byte) (es : List ErrorCode) (P : State → Prop) : Prop :=
  ∀ t, o = .next t → P t ∨ ∃ e ∈ es, ∃ u, P u ∧ t = raiseError e op u

theorem finish_answersIn {c : Cmd α} (h : c.EndsIn es P) : AnswersIn (finish op c) op es P := by
  intro t ht
  obtain ⟨a, rfl⟩ | ⟨e, u, rfl, rfl⟩ := finish_eq_next.1 ht
  · exact .inl h
  · exact .inr ⟨e, h.1, u, h.2, rfl⟩

theorem AnswersIn.imp {o : Host.Outcome State Fault Refusal} {Q : State → Prop} (h : AnswersIn o op es P)
    (hPQ : ∀ t, P t → Q t) : AnswersIn o op es Q :=
  fun t ht => (h t ht).imp (hPQ t) fun ⟨e, he, u, hu, htu⟩ => ⟨e, he, u, hPQ u hu, htu⟩

/-- A property that latching an error cannot break holds of the next state. -/
theorem AnswersIn.keeps {o : Host.Outcome State Fault Refusal} (h : AnswersIn o op es P)
    (hP : ∀ e u, P u → P (raiseError e op u)) (ht : o = .next t) : P t := by
  obtain h | ⟨e, -, u, hu, rfl⟩ := h t ht
  · exact h
  · exact hP e u hu

/-! ### The rules of the commands without a loop -/

section Rules
variable {x : Byte} {bs : List Byte}

theorem outAppend_endsIn (he : .capacityExceeded ∈ es) (hs : P s)
    (hd : outRoom s bs.length = true → P { s with out := s.out ++ bs }) : (outAppend bs s).EndsIn es P := by
  cases hr : outRoom s bs.length with
  | true => simpa [outAppend_of_room hr] using hd hr
  | false => simpa [outAppend_of_full hr] using ⟨he, hs⟩

theorem execNop_answersIn (hs : P s) : AnswersIn (execNop s) Opcode.nop (errorsOf .nop) P :=
  finish_answersIn hs

theorem execTreeClear_answersIn (hd : P (treeClearState s)) :
    AnswersIn (execTreeClear s) Opcode.treeClear (errorsOf .treeClear) P :=
  finish_answersIn hd

/-- LEAF_PUSH's effect where its checks pass (40_tree_builder R104). -/
def leafPushed (x : Byte) (s : State) : State :=
  invalidateCT { markPresent x s with
    nodes := s.nodes ++ [⟨.leaf, x, s.arg, 0, 0⟩], list := s.list ++ [s.nodes.length], rootValid := false }

theorem execLeafPush_answersIn (hs : P s)
    (hd : s.list.length ≠ Config.listCap → s.nodes.length ≠ s.cfg.nodeCap → P (leafPushed x s)) :
    AnswersIn (execLeafPush x s) Opcode.leafPush (errorsOf (.leafPush x)) P := by
  refine finish_answersIn ?_
  split
  · exact ⟨by simp [errorsOf], hs⟩
  · split
    · exact ⟨by simp [errorsOf], hs⟩
    · cases ha : allocNode .leaf x s.arg 0 0 s with
      | broken => trivial
      | raised e t =>
        obtain ⟨-, rfl, rfl⟩ := allocNode_eq_raised.1 ha
        exact ⟨by simp [errorsOf], hs⟩
      | done k t =>
        obtain ⟨hcap, rfl, rfl⟩ := allocNode_eq_done.1 ha
        exact hd ‹_› hcap

theorem execSerLen_answersIn (hs : P s) (hd : ∀ v, P { s with result := v }) :
    AnswersIn (execSerLen s) Opcode.serLen (errorsOf .serLen) P := by
  refine finish_answersIn ?_
  split
  · exact ⟨by simp [errorsOf], hs⟩
  · split
    · trivial
    · exact hd _

theorem execSerialize_answersIn (hs : P s)
    (hd : ∀ bs v, outRoom s bs.length = true → P { s with out := s.out ++ bs, result := v }) :
    AnswersIn (execSerialize s) Opcode.serialize (errorsOf .serialize) P := by
  refine finish_answersIn ?_
  split
  · exact ⟨by simp [errorsOf], hs⟩
  · split
    · trivial
    · rename_i tr _
      split
      · exact ⟨by simp [errorsOf], hs⟩
      · cases hr : outRoom s (serBytes tr).length with
        | true => simpa [outAppend_of_room hr] using hd _ _ hr
        | false => simpa [outAppend_of_full hr, errorsOf] using hs

theorem execFlush_answersIn (hs : P s)
    (hd : ∀ b, outRoom s 1 = true → P { s with out := s.out ++ [b], acc := 0#8, cnt := 0 }) :
    AnswersIn (execFlush x s) Opcode.flush (errorsOf (.flush x)) P := by
  refine finish_answersIn ?_
  split
  · cases hr : outRoom s [s.acc].length with
    | true => simpa [outAppend_of_room hr] using hd _ hr
    | false => simpa [outAppend_of_full hr, errorsOf] using hs
  · exact hs

theorem execReadBit_answersIn (hs : P s) (hd : ∀ v, P { s with result := v }) :
    AnswersIn (execReadBit s) Opcode.readBit (errorsOf .readBit) P := by
  refine finish_answersIn ?_
  split
  · exact ⟨by simp [errorsOf], hs⟩
  · exact hd _

theorem execEmitU64_answersIn (hs : P s)
    (hd : ∀ bs, outRoom s bs.length = true → P { s with out := s.out ++ bs }) :
    AnswersIn (execEmitU64 s) Opcode.emitU64 (errorsOf .emitU64) P :=
  finish_answersIn (outAppend_endsIn (by simp [errorsOf]) hs (hd _))

theorem execLoadU64_answersIn (hs : P s) (hd : ∀ v p, P { s with result := v, rdPtr := p }) :
    AnswersIn (execLoadU64 s) Opcode.loadU64 (errorsOf .loadU64) P := by
  refine finish_answersIn ?_
  split
  · exact ⟨by simp [errorsOf], hs⟩
  · exact hd _ _

theorem execBitsFromPtr_answersIn (hd : P { s with bitIdx := 8 * s.rdPtr.toNat % 2 ^ 64 }) :
    AnswersIn (execBitsFromPtr s) Opcode.bitsFromPtr (errorsOf .bitsFromPtr) P :=
  finish_answersIn hd

end Rules

/-! ### The packer's rules: what every pushed bit keeps, every packing command keeps -/

section Packer
variable {x : Byte}

/-- A pushed bit keeps `P`. -/
def PushKeeps (P : State → Prop) : Prop := ∀ b s t, P s → pushBit b s = .done () t → P t

theorem pushBit_eq_raised {b : Bool} {e : ErrorCode} (h : pushBit b s = .raised e t) :
    e = .capacityExceeded ∧ t = s := by
  by_cases hc : s.cnt = 7
  · cases hr : outRoom s 1 with
    | true => simp [pushBit_of_room hc hr] at h
    | false =>
      rw [pushBit_of_full hc hr] at h
      cases h
      exact ⟨rfl, rfl⟩
  · simp [pushBit_of_lt hc] at h

theorem pushBit_endsIn {b : Bool} (hP : PushKeeps P) (he : .capacityExceeded ∈ es) (hs : P s) :
    (pushBit b s).EndsIn es P := by
  cases h : pushBit b s with
  | done a t => exact hP b s t hs h
  | raised e t =>
    obtain ⟨rfl, rfl⟩ := pushBit_eq_raised h
    exact ⟨he, hs⟩
  | broken => trivial

theorem pushBits_endsIn {bits : Code} (hP : PushKeeps P) (he : .capacityExceeded ∈ es) (hs : P s) :
    (pushBits bits s).EndsIn es P := by
  induction bits generalizing s with
  | nil => exact hs
  | cons b bits ih => exact (pushBit_endsIn hP he hs).andThen fun _ _ _ ht => ih ht

theorem packSym_endsIn (hP : PushKeeps P) (hes : errorsOf (.packSymbol x) ⊆ es) (hs : P s) :
    (packSym x s).EndsIn es P := by
  unfold packSym
  split
  · exact ⟨hes (by simp [errorsOf]), hs⟩
  · split
    · exact ⟨hes (by simp [errorsOf]), hs⟩
    · exact pushBits_endsIn hP (hes (by simp [errorsOf])) hs

theorem packLoop_endsIn {n m : Nat} (hP : PushKeeps P) (hd : ∀ u p v, P u → P { u with rdPtr := p, result := v })
    (hs : P s) : (packLoop n m s).EndsIn (errorsOf .packStream) P := by
  induction n generalizing m s with
  | zero => exact hs
  | succ n ih =>
    unfold packLoop
    split
    · exact ⟨by simp [errorsOf], hs⟩
    · exact (packSym_endsIn hP (by simp [errorsOf]) hs).andThen fun _ u _ hu => ih (hd u _ _ hu)

theorem execPackBit_answersIn (hP : PushKeeps P) (hs : P s) :
    AnswersIn (execPackBit x s) Opcode.packBit (errorsOf (.packBit x)) P := by
  refine finish_answersIn ?_
  split
  · exact ⟨by simp [errorsOf], hs⟩
  · exact pushBit_endsIn hP (by simp [errorsOf]) hs

theorem execPackSymbol_answersIn (hP : PushKeeps P) (hs : P s) :
    AnswersIn (execPackSymbol x s) Opcode.packSymbol (errorsOf (.packSymbol x)) P :=
  finish_answersIn (packSym_endsIn hP (List.Subset.refl _) hs)

theorem execPackStream_answersIn (hP : PushKeeps P) (hd : ∀ u p v, P u → P { u with rdPtr := p, result := v })
    (hs : P s) : AnswersIn (execPackStream s) Opcode.packStream (errorsOf .packStream) P :=
  finish_answersIn (packLoop_endsIn hP hd (hd s s.rdPtr 0#64 hs))

end Packer

/-! ### The decode walk's rules -/

/-- A completed step of the decode walk (44_bit_unpacker R162): it emits a leaf's symbol, or descends by one bit. -/
theorem decodeStep_cases {c c' : Nat} (h : decodeStep c s = .done c' t) :
    ∃ n, s.nodes[s.cursor]? = some n ∧
      (n.kind = .leaf ∧ outRoom s 1 = true ∧ c' = c + 1 ∧
          t = { s with out := s.out ++ [n.sym], result := BitVec.ofNat 64 (c + 1), cursor := s.root } ∨
        n.kind = .internal ∧ s.bitIdx / 8 < s.inBuf.length ∧ c' = c ∧
          ∃ b : Bool, t = { s with bitIdx := s.bitIdx + 1, cursor := if b then n.right else n.left }) := by
  cases hn : s.nodes[s.cursor]? with
  | none => simp [decodeStep, hn] at h
  | some n =>
    refine ⟨n, rfl, ?_⟩
    cases hk : n.kind with
    | leaf =>
      cases hr : outRoom s 1 with
      | true =>
        rw [decodeStep_leaf hn hk hr] at h
        cases h
        exact .inl ⟨rfl, rfl, rfl, rfl⟩
      | false =>
        rw [decodeStep_full hn hk hr] at h
        cases h
    | internal =>
      cases hb : readStreamBit s s.bitIdx with
      | none =>
        rw [decodeStep_truncated hn hk hb] at h
        cases h
      | some b =>
        rw [decodeStep_bit hn hk hb] at h
        cases h
        obtain ⟨y, hy, -⟩ := readStreamBit_eq_some.1 hb
        exact .inr ⟨rfl, (List.getElem?_eq_some_iff.1 hy).1, rfl, b, rfl⟩

theorem decodeStep_eq_raised {c : Nat} {e : ErrorCode} (h : decodeStep c s = .raised e t) :
    e ∈ errorsOf .decode ∧ t = s := by
  cases hn : s.nodes[s.cursor]? with
  | none => simp [decodeStep, hn] at h
  | some n =>
    cases hk : n.kind with
    | leaf =>
      cases hr : outRoom s 1 with
      | true => simp [decodeStep_leaf hn hk hr] at h
      | false =>
        rw [decodeStep_full hn hk hr] at h
        cases h
        exact ⟨by simp [errorsOf], rfl⟩
    | internal =>
      cases hb : readStreamBit s s.bitIdx with
      | none =>
        rw [decodeStep_truncated hn hk hb] at h
        cases h
        exact ⟨by simp [errorsOf], rfl⟩
      | some b => simp [decodeStep_bit hn hk hb] at h

/-- With a valid root, a step of the decode walk keeps `P`. -/
def DecodeKeeps (P : State → Prop) : Prop :=
  ∀ c s c' t, s.rootValid = true → P s → decodeStep c s = .done c' t → P t

theorem decodeStep_rootValid {c c' : Nat} (h : decodeStep c s = .done c' t) : t.rootValid = s.rootValid := by
  rw [(decodeStep_eq_done h).1]

theorem decodeLoop_endsIn {n fuel c : Nat} (hP : DecodeKeeps P) (hv : s.rootValid = true) (hs : P s) :
    (decodeLoop n fuel c s).EndsIn (errorsOf .decode) P := by
  induction fuel generalizing c s with
  | zero =>
    unfold decodeLoop
    split
    · trivial
    · exact hs
  | succ fuel ih =>
    unfold decodeLoop
    split
    · cases h : decodeStep c s with
      | done c' t => exact ih ((decodeStep_rootValid h).trans hv) (hP c s c' t hv hs h)
      | raised e t =>
        obtain ⟨he, rfl⟩ := decodeStep_eq_raised h
        exact ⟨he, hs⟩
      | broken => trivial
    · exact hs

theorem execDecode_answersIn (hP : DecodeKeeps P) (hs : P s) (hd : P { s with result := 0#64 }) :
    AnswersIn (execDecode s) Opcode.decode (errorsOf .decode) P := by
  refine finish_answersIn ?_
  split
  · exact ⟨by simp [errorsOf], hs⟩
  · exact decodeLoop_endsIn hP (eq_true_of_ne_false ‹_›) hd

/-! ### The tree builder's rules -/

/-- A merge of two entries keeps `P`. -/
def MergeKeeps (P : State → Prop) : Prop := ∀ s t, P s → 2 ≤ s.list.length → mergeStep s = .done () t → P t

theorem mergeStep_eq_raised {e : ErrorCode} (h : mergeStep s = .raised e t) : e ∈ errorsOf .merge ∧ t = s := by
  unfold mergeStep at h
  split at h
  · cases h
  · obtain ⟨rfl, rfl | ⟨rfl, -⟩⟩ := mergeAt_eq_raised h <;> exact ⟨by simp [errorsOf], rfl⟩

theorem mergeStep_endsIn (hP : MergeKeeps P) (hl : 2 ≤ s.list.length) (hs : P s) :
    (mergeStep s).EndsIn (errorsOf .merge) P := by
  cases h : mergeStep s with
  | done a t => exact hP s t hs hl h
  | raised e t =>
    obtain ⟨he, rfl⟩ := mergeStep_eq_raised h
    exact ⟨he, hs⟩
  | broken => trivial

theorem buildRounds_endsIn {n : Nat} (hP : MergeKeeps P) (hs : P s) :
    (buildRounds n s).EndsIn (errorsOf .build) P := by
  induction n generalizing s with
  | zero => exact hs
  | succ n ih =>
    unfold buildRounds
    split
    · exact (mergeStep_endsIn hP ‹_› hs).andThen fun _ _ _ ht => ih ht
    · exact hs

theorem execMerge_answersIn (hP : MergeKeeps P) (hr : ∀ u, P u → P (rootFromList u)) (hs : P s) :
    AnswersIn (execMerge s) Opcode.merge (errorsOf .merge) P := by
  refine finish_answersIn ?_
  split
  · exact ⟨by simp [errorsOf], hs⟩
  · refine Cmd.EndsIn.andThen (P := P) ?_ fun _ t _ ht => hr t ht
    split
    · exact mergeStep_endsIn hP ‹_› hs
    · exact hs

theorem execBuild_answersIn (hP : MergeKeeps P) (hr : ∀ u, P u → P (rootFromList u)) (hs : P s) :
    AnswersIn (execBuild s) Opcode.build (errorsOf .build) P := by
  refine finish_answersIn ?_
  split
  · exact ⟨by simp [errorsOf], hs⟩
  · exact (buildRounds_endsIn hP hs).andThen fun _ t _ ht => hr t ht

/-! ### The code table generator's rules -/

/-- What a walk comes to (41_code_table R120): it adds to the table exactly the paths of its tree, and changes nothing
else; or it invalidates the table. -/
theorem walk_spec (tr : CodeTree) (p : Code) (n : Nat) (s : State) :
    match walk tr p n s with
    | .done _ u => u = { s with ct := u.ct } ∧
        ∀ x q, codeOf u x = some q ↔ codeOf s x = some q ∨ (q, x) ∈ leafPaths tr p
    | .raised e u => e ∈ errorsOf .genCodes ∧ u = invalidateCT s
    | .broken => False := by
  induction tr generalizing p n s with
  | leaf y =>
    unfold walk
    split_ifs with hlen hdup
    · exact ⟨by simp [errorsOf], rfl⟩
    · exact ⟨by simp [errorsOf], rfl⟩
    · refine ⟨rfl, fun x q => ?_⟩
      rw [Option.not_isSome_iff_eq_none] at hdup
      rw [codeOf_setCode]
      by_cases hx : x = y
      · subst hx
        simp [leafPaths, hdup, eq_comm]
      · simp [leafPaths, hx]
  | node l r ihl ihr =>
    rw [walk]
    have hl := ihl (p ++ [false]) n s
    cases h1 : walk l (p ++ [false]) n s with
    | broken => simp [h1] at hl
    | raised e u => simpa [h1] using hl
    | done m u =>
      simp only [h1] at hl
      obtain ⟨hu, hcl⟩ := hl
      rw [andThen_done]
      have hr := ihr (p ++ [true]) m u
      cases h2 : walk r (p ++ [true]) m u with
      | broken => simp [h2] at hr
      | raised e v =>
        simp only [h2] at hr
        exact ⟨hr.1, by rw [hr.2, hu]; rfl⟩
      | done m' v =>
        simp only [h2] at hr
        obtain ⟨hv, hcr⟩ := hr
        refine ⟨by rw [hv, hu], fun x q => ?_⟩
        rw [hcr, hcl, leafPaths, List.mem_append, or_assoc]

/-- The end of a completed GEN_CODES (41_code_table R121): `ct` is the table of the tree at ROOT. -/
def codesGenerated (ct : Vector (Option Code) 256) (v : Word) (s : State) : State :=
  { s with ct := ct, ctValid := true, result := v }

theorem execGenCodes_answersIn (hs : P s) (hbad : P (invalidateCT s))
    (hd : ∀ tr ct v, s.rootValid = true → treeOf s s.root = some tr →
      (∀ x q, codeOf (codesGenerated ct v s) x = some q ↔ LeafAt tr q x) → P (codesGenerated ct v s)) :
    AnswersIn (execGenCodes s) Opcode.genCodes (errorsOf .genCodes) P := by
  refine finish_answersIn ?_
  split
  · exact ⟨by simp [errorsOf], hs⟩
  · rename_i hv
    split
    · trivial
    · rename_i tr htr
      have hw := walk_spec tr [] 0 (invalidateCT s)
      cases h : walk tr [] 0 (invalidateCT s) with
      | broken => trivial
      | raised e u =>
        simp only [h] at hw
        obtain ⟨he, rfl⟩ := hw
        exact ⟨he, hbad⟩
      | done n u =>
        simp only [h] at hw
        obtain ⟨hu, hc⟩ := hw
        have hend : { u with ctValid := true, result := BitVec.ofNat 64 n } =
            codesGenerated u.ct (BitVec.ofNat 64 n) s := by
          rw [hu]
          rfl
        rw [andThen_done, endsIn_done, hend]
        refine hd tr _ _ (eq_true_of_ne_false hv) htr fun x q => ?_
        rw [leafAt_iff_mem, codeOf_congr (s := codesGenerated u.ct (BitVec.ofNat 64 n) s) (t := u) rfl, hc]
        simp

/-! ### The deserializer's rules -/

/-- Where Parse ends (42_tree_serdes R146): it lays the tree of its range out in preorder behind the arena, within the
arena's capacity; and completed or not it changes the arena and SYM_PRESENT alone. -/
theorem parse_layout (fuel : Nat) (r : List Byte) (s : State) (hcap : s.nodes.length ≤ s.cfg.nodeCap) :
    match parse fuel r s with
    | .done k t => t = { s with nodes := t.nodes, symPresent := t.symPresent } ∧ k = s.nodes.length ∧
        (∃ tr, t.nodes = s.nodes ++ preorder tr k) ∧ t.nodes.length ≤ s.cfg.nodeCap
    | .raised _ t => t = { s with nodes := t.nodes, symPresent := t.symPresent }
    | .broken => False := by
  induction fuel generalizing r s with
  | zero => exact rfl
  | succ fuel ih =>
    cases hf : rangeForm r with
    | malformed =>
      rw [parse, hf]
    | leaf x =>
      simp only [parse, hf]
      cases h1 : allocNode .leaf x 0#64 0 0 (markPresent x s) with
      | broken => exact absurd h1 allocNode_ne_broken
      | raised e t =>
        obtain ⟨-, -, rfl⟩ := allocNode_eq_raised.1 h1
        exact rfl
      | done k t =>
        obtain ⟨hne, rfl, rfl⟩ := allocNode_eq_done.1 h1
        refine ⟨rfl, rfl, ⟨.leaf x, rfl⟩, ?_⟩
        simp only [markPresent_nodes, markPresent_cfg] at hne
        simp only [markPresent_nodes, List.length_append, List.length_singleton]
        omega
    | pair a b =>
      simp only [parse, hf]
      cases h1 : allocNode .internal 0#8 0#64 0 0 s with
      | broken => exact absurd h1 allocNode_ne_broken
      | raised e t =>
        obtain ⟨-, -, rfl⟩ := allocNode_eq_raised.1 h1
        exact rfl
      | done k t =>
        obtain ⟨hne, rfl, ht⟩ := allocNode_eq_done.1 h1
        have htn : t.nodes = s.nodes ++ [⟨.internal, 0#8, 0#64, 0, 0⟩] := by rw [ht]
        have htc : t.cfg = s.cfg := by rw [ht]
        rw [andThen_done]
        have h2 := ih a t (by simp only [htn, htc, List.length_append, List.length_singleton]; omega)
        cases h3 : parse fuel a t with
        | broken => simp [h3] at h2
        | raised e u =>
          simp only [h3] at h2
          rw [andThen_raised, h2, ht]
        | done i u =>
          simp only [h3] at h2
          obtain ⟨hu, rfl, ⟨l, hl⟩, hcap2⟩ := h2
          have huc : u.cfg = t.cfg := by rw [hu]
          rw [andThen_done]
          have h4 := ih b u (huc ▸ hcap2)
          cases h5 : parse fuel b u with
          | broken => simp [h5] at h4
          | raised e v =>
            simp only [h5] at h4
            rw [andThen_raised, h4, hu, ht]
          | done j v =>
            simp only [h5] at h4
            obtain ⟨hv, rfl, ⟨rr, hr⟩, hcap4⟩ := h4
            refine ⟨by rw [hv, hu, ht]; rfl, rfl, ⟨.node l rr, ?_⟩, ?_⟩
            · rw [setChildren_nodes, hr, hl, htn]
              simp [preorder, List.modify_eq_take_drop, Nat.add_comm 1, Nat.add_assoc]
            · rw [setChildren_nodes, List.length_modify]
              rwa [huc, htc] at hcap4

/-- The end of a completed DESERIALIZE (42_tree_serdes R147): the tree alone in the arena, its root at index 0. -/
def deserialized (tr : CodeTree) (present : BitVec 256) (p : Word) (s : State) : State :=
  { treeClearState s with
    nodes := preorder tr 0, symPresent := present, list := [0], rootValid := true, root := 0, cursor := 0, rdPtr := p }

theorem execDeserialize_answersIn (hs : P s) (hc : P (treeClearState s))
    (hd : ∀ tr present p, (preorder tr 0).length ≤ s.cfg.nodeCap → P (deserialized tr present p s)) :
    AnswersIn (execDeserialize s) Opcode.deserialize (errorsOf .deserialize) P := by
  refine finish_answersIn ?_
  split
  · exact ⟨by simp [errorsOf], hs⟩
  · rename_i bytes _
    have hl := parse_layout bytes.length bytes (treeClearState s) (Nat.zero_le _)
    have hsp := parse_spec bytes.length bytes (treeClearState s)
    cases h : parse bytes.length bytes (treeClearState s) with
    | broken => trivial
    | raised e t =>
      simp only [h] at hl hsp
      refine ⟨?_, ?_⟩
      · obtain rfl | ⟨rfl, -⟩ := hsp <;> simp [errorsOf]
      · rw [hl]
        exact hc
    | done k t =>
      simp only [h, treeClearState_nodes, List.nil_append, List.length_nil] at hl
      obtain ⟨ht, rfl, ⟨tr, htr⟩, hcap⟩ := hl
      have hend := hd tr t.symPresent (BitVec.ofNat 64 (s.rdPtr.toNat + argNat s)) (htr ▸ hcap)
      rw [htr] at ht
      show P { setRoot 0 { t with list := [0] } with rdPtr := _ }
      rw [ht]
      exact hend

end Sys2Proof.Machine
end

section
/-! SUPPORT. The frame of every command, with the errors it may raise, and the cases of a step. -/

namespace Sys2Proof.Machine

variable {s t u : State} {i : Instr} {x : Byte}

/-! ### The merge of the two lightest (40_tree_builder R102) -/

/-- MergeStep's effect at the positions `i` and `j` of the list, which hold `a` and `b`. -/
def merged (i j a b : Nat) (w : Word) (s : State) : State :=
  invalidateCT { s with
    nodes := s.nodes ++ [⟨.internal, 0#8, w, a, b⟩]
    list := eraseTwo s.list i j ++ [s.nodes.length]
    rootValid := false }

/-- Select2 never selects one position twice. -/
theorem select2_ne (ws : List Nat) : (select2 ws).1 ≠ (select2 ws).2 := by
  simp only [select2]
  split <;> omega

theorem mergeStep_eq_done (h : mergeStep s = .done () t) :
    ∃ i j a b w, i ≠ j ∧ s.list[i]? = some a ∧ s.list[j]? = some b ∧ s.nodes.length ≠ s.cfg.nodeCap ∧
      t = merged i j a b w s := by
  unfold mergeStep at h
  split at h
  · cases h
  · obtain ⟨a, b, na, nb, hi, hj, -, -, -, hcap, rfl⟩ := mergeAt_eq_done.1 h
    exact ⟨_, _, a, b, na.weight + nb.weight, select2_ne _, hi, hj, hcap, rfl⟩

theorem rootFromList_cases (s : State) :
    rootFromList s = s ∨ ∃ k, s.list = [k] ∧ rootFromList s = setRoot k s := by
  unfold rootFromList
  split
  · exact .inr ⟨_, ‹_›, rfl⟩
  · exact .inl rfl

/-! ### Frames -/

/-- What a command leaves as it was, ERR_CODE aside: `t` is `s` with at most what the command's rule writes, the old
arena kept as the beginning of the new one (LEAF_PUSH, MERGE, BUILD) and the old OUT as the beginning of the new one. -/
def frameOf : Instr → State → State → Prop
  | .nop, s, t => t = s
  | .treeClear, s, t => t = treeClearState s
  | .leafPush _, s, t =>
    t = { s with nodes := t.nodes, list := t.list, symPresent := t.symPresent, rootValid := t.rootValid,
                 ct := t.ct, ctValid := t.ctValid } ∧ ∃ ns, t.nodes = s.nodes ++ ns
  | .merge, s, t | .build, s, t =>
    t = { s with nodes := t.nodes, list := t.list, rootValid := t.rootValid, root := t.root, cursor := t.cursor,
                 ct := t.ct, ctValid := t.ctValid } ∧ ∃ ns, t.nodes = s.nodes ++ ns
  | .genCodes, s, t => t = { s with ct := t.ct, ctValid := t.ctValid, result := t.result }
  | .serLen, s, t | .readBit, s, t => t = { s with result := t.result }
  | .serialize, s, t => t = { s with out := t.out, result := t.result } ∧ ∃ bs, t.out = s.out ++ bs
  | .deserialize, s, t =>
    t = { s with nodes := t.nodes, list := t.list, symPresent := t.symPresent, rootValid := t.rootValid,
                 root := t.root, cursor := t.cursor, ct := t.ct, ctValid := t.ctValid, rdPtr := t.rdPtr }
  | .packBit _, s, t | .packSymbol _, s, t | .flush _, s, t =>
    t = { s with acc := t.acc, cnt := t.cnt, out := t.out } ∧ ∃ bs, t.out = s.out ++ bs
  | .packStream, s, t =>
    t = { s with acc := t.acc, cnt := t.cnt, out := t.out, rdPtr := t.rdPtr, result := t.result } ∧
      ∃ bs, t.out = s.out ++ bs
  | .decode, s, t =>
    t = { s with out := t.out, result := t.result, bitIdx := t.bitIdx, cursor := t.cursor } ∧ ∃ bs, t.out = s.out ++ bs
  | .emitU64, s, t => t = { s with out := t.out } ∧ ∃ bs, t.out = s.out ++ bs
  | .loadU64, s, t => t = { s with result := t.result, rdPtr := t.rdPtr }
  | .bitsFromPtr, s, t => t = { s with bitIdx := t.bitIdx }

theorem pushKeeps_frameOf_packBit : PushKeeps (frameOf (.packBit x) s) := by
  rintro b t u ⟨ht, bs, hbs⟩ h
  obtain ⟨hu, cs, hcs⟩ := pushBit_eq_done h
  exact ⟨by rw [hu, ht], bs ++ cs, by rw [hcs, hbs, List.append_assoc]⟩

theorem pushKeeps_frameOf_packStream : PushKeeps (frameOf .packStream s) := by
  rintro b t u ⟨ht, bs, hbs⟩ h
  obtain ⟨hu, cs, hcs⟩ := pushBit_eq_done h
  exact ⟨by rw [hu, ht], bs ++ cs, by rw [hcs, hbs, List.append_assoc]⟩

theorem decodeKeeps_frameOf : DecodeKeeps (frameOf .decode s) := by
  rintro c t c' u - ⟨ht, bs, hbs⟩ h
  obtain ⟨hu, cs, hcs⟩ := decodeStep_eq_done h
  exact ⟨by rw [hu, ht], bs ++ cs, by rw [hcs, hbs, List.append_assoc]⟩

theorem mergeKeeps_frameOf : MergeKeeps (frameOf .build s) := by
  rintro t u ⟨ht, ns, hns⟩ - h
  obtain ⟨i, j, a, b, w, -, -, -, -, rfl⟩ := mergeStep_eq_done h
  refine ⟨by rw [ht]; rfl, ns ++ [⟨.internal, 0#8, w, a, b⟩], ?_⟩
  rw [← List.append_assoc, ← hns]
  rfl

theorem rootFromList_frameOf (h : frameOf .build s t) : frameOf .build s (rootFromList t) := by
  obtain hr | ⟨k, -, hr⟩ := rootFromList_cases t
  · rwa [hr]
  · obtain ⟨ht, hns⟩ := h
    rw [hr]
    exact ⟨by rw [ht]; rfl, hns⟩

/-- What a command that answers a next state comes to: its frame, or its frame with one of its errors latched
(60_exceptions R191, R192, R195). -/
theorem exec_frame (i : Instr) (s : State) : AnswersIn (exec i s) i.opcode (errorsOf i) (frameOf i s) := by
  have nodes_refl : ∃ ns, s.nodes = s.nodes ++ ns := ⟨[], (List.append_nil _).symm⟩
  have out_refl : ∃ bs, s.out = s.out ++ bs := ⟨[], (List.append_nil _).symm⟩
  cases i with
  | nop => exact execNop_answersIn (P := frameOf .nop s) rfl
  | treeClear => exact execTreeClear_answersIn (P := frameOf .treeClear s) rfl
  | leafPush x =>
    exact execLeafPush_answersIn (P := frameOf (.leafPush x) s) ⟨rfl, nodes_refl⟩ fun _ _ => ⟨rfl, _, rfl⟩
  | merge => exact execMerge_answersIn mergeKeeps_frameOf (fun _ => rootFromList_frameOf) ⟨rfl, nodes_refl⟩
  | build => exact execBuild_answersIn mergeKeeps_frameOf (fun _ => rootFromList_frameOf) ⟨rfl, nodes_refl⟩
  | genCodes => exact execGenCodes_answersIn (P := frameOf .genCodes s) rfl rfl fun _ _ _ _ _ _ => rfl
  | serLen => exact execSerLen_answersIn (P := frameOf .serLen s) rfl fun _ => rfl
  | serialize =>
    exact execSerialize_answersIn (P := frameOf .serialize s) ⟨rfl, out_refl⟩ fun _ _ _ => ⟨rfl, _, rfl⟩
  | deserialize => exact execDeserialize_answersIn (P := frameOf .deserialize s) rfl rfl fun _ _ _ _ => rfl
  | packBit x => exact execPackBit_answersIn pushKeeps_frameOf_packBit ⟨rfl, out_refl⟩
  | packSymbol x => exact execPackSymbol_answersIn (pushKeeps_frameOf_packBit (x := x)) ⟨rfl, out_refl⟩
  | packStream =>
    refine execPackStream_answersIn pushKeeps_frameOf_packStream (fun u p v hu => ?_) ⟨rfl, out_refl⟩
    exact ⟨by rw [hu.1], hu.2⟩
  | flush x => exact execFlush_answersIn (P := frameOf (.flush x) s) ⟨rfl, out_refl⟩ fun _ _ => ⟨rfl, _, rfl⟩
  | readBit => exact execReadBit_answersIn (P := frameOf .readBit s) rfl fun _ => rfl
  | decode => exact execDecode_answersIn decodeKeeps_frameOf ⟨rfl, out_refl⟩ ⟨rfl, out_refl⟩
  | emitU64 => exact execEmitU64_answersIn (P := frameOf .emitU64 s) ⟨rfl, out_refl⟩ fun _ _ => ⟨rfl, _, rfl⟩
  | loadU64 => exact execLoadU64_answersIn (P := frameOf .loadU64 s) rfl fun _ _ => rfl
  | bitsFromPtr => exact execBitsFromPtr_answersIn (P := frameOf .bitsFromPtr s) rfl

/-- What only the host changes (10_state R19, 20_memory R52, R65), and the model's own fields. -/
def HostKept (s t : State) : Prop :=
  t.arg = s.arg ∧ t.inBuf = s.inBuf ∧ t.nodeSel = s.nodeSel ∧ t.listSel = s.listSel ∧ t.codeSel = s.codeSel ∧
    t.hostDrop = s.hostDrop ∧ t.pending = s.pending ∧ t.cfg = s.cfg ∧ t.turns = s.turns ∧ t.seen = s.seen

theorem hostKept_of_frameOf (h : frameOf i s t) : HostKept s t := by
  cases i with
  | nop | treeClear | genCodes | serLen | deserialize | readBit | loadU64 | bitsFromPtr =>
    simp only [frameOf] at h
    rw [h]
    exact ⟨rfl, rfl, rfl, rfl, rfl, rfl, rfl, rfl, rfl, rfl⟩
  | leafPush | merge | build | serialize | packBit | packSymbol | packStream | flush | decode | emitU64 =>
    rw [h.1]
    exact ⟨rfl, rfl, rfl, rfl, rfl, rfl, rfl, rfl, rfl, rfl⟩

theorem exec_hostKept (h : exec i s = .next t) : HostKept s t :=
  ((exec_frame i s).imp fun _ => hostKept_of_frameOf).keeps (fun _ _ h => h) h

end Sys2Proof.Machine
end

section
/-! SUPPORT. The tree invariants of 10_state R51: what `treeIndices` and `forestIndices` answer, and how each command that
writes the tree keeps (a), (b) and (c). -/

namespace Sys2Proof.Machine

variable {nodes more : List Node} {fuel fuel' k j : Nat} {n : Node} {ks l : List Nat} {s t : State}

/-! ### The indices of a tree -/

theorem treeIndices_leaf (hn : nodes[k]? = some n) (hk : n.kind = .leaf) :
    treeIndices nodes (fuel + 1) k = some [k] := by
  simp [treeIndices, hn, hk]

theorem treeIndices_internal (hn : nodes[k]? = some n) (hk : n.kind = .internal) {a b : List Nat}
    (ha : treeIndices nodes fuel n.left = some a) (hb : treeIndices nodes fuel n.right = some b) :
    treeIndices nodes (fuel + 1) k = some (k :: (a ++ b)) := by
  simp [treeIndices, hn, hk, ha, hb]

/-- The tree of an entry is a leaf, or the entry over the trees of its two children. -/
theorem treeIndices_cases (h : treeIndices nodes (fuel + 1) k = some ks) :
    ∃ n, nodes[k]? = some n ∧
      (n.kind = .leaf ∧ ks = [k] ∨
        n.kind = .internal ∧ ∃ a b, treeIndices nodes fuel n.left = some a ∧
          treeIndices nodes fuel n.right = some b ∧ ks = k :: (a ++ b)) := by
  unfold treeIndices at h
  split at h
  · cases h
  · rename_i n hn
    refine ⟨n, hn, ?_⟩
    split at h
    · exact .inl ⟨‹_›, (Option.some.inj h).symm⟩
    · split at h
      · exact .inr ⟨‹_›, _, _, ‹_›, ‹_›, (Option.some.inj h).symm⟩
      · cases h

/-- A tree is read the same in a larger arena and with more fuel. -/
theorem treeIndices_append (h : treeIndices nodes fuel k = some ks) (hf : fuel ≤ fuel') (more : List Node) :
    treeIndices (nodes ++ more) fuel' k = some ks := by
  induction fuel generalizing fuel' k ks with
  | zero => cases h
  | succ fuel ih =>
    obtain ⟨fuel', rfl⟩ : ∃ f, fuel' = f + 1 := ⟨fuel' - 1, by omega⟩
    obtain ⟨n, hn, ⟨hk, rfl⟩ | ⟨hk, a, b, ha, hb, rfl⟩⟩ := treeIndices_cases h
    all_goals have hn' := List.getElem?_append_left (l₂ := more) (List.getElem?_eq_some_iff.1 hn).1 ▸ hn
    · exact treeIndices_leaf hn' hk
    · exact treeIndices_internal hn' hk (ih ha (by omega)) (ih hb (by omega))

/-- An entry is the root of its own tree. -/
theorem mem_treeIndices_self (h : treeIndices nodes fuel k = some ks) : k ∈ ks := by
  cases fuel with
  | zero => cases h
  | succ fuel =>
    obtain ⟨n, -, ⟨-, rfl⟩ | ⟨-, a, b, -, -, rfl⟩⟩ := treeIndices_cases h <;> exact List.mem_cons_self

/-- A node of a tree is allocated, and a child of a node of a tree is a node of it. -/
theorem mem_treeIndices (h : treeIndices nodes fuel k = some ks) (hj : j ∈ ks) :
    ∃ n, nodes[j]? = some n ∧ (n.kind = .internal → n.left ∈ ks ∧ n.right ∈ ks) := by
  induction fuel generalizing k ks with
  | zero => cases h
  | succ fuel ih =>
    obtain ⟨n, hn, ⟨hk, rfl⟩ | ⟨-, a, b, ha, hb, rfl⟩⟩ := treeIndices_cases h
    · obtain rfl := List.mem_singleton.1 hj
      exact ⟨n, hn, fun hi => absurd (hk.symm.trans hi) (by decide)⟩
    · simp only [List.mem_cons, List.mem_append] at hj ⊢
      obtain rfl | hj | hj := hj
      · exact ⟨n, hn, fun _ => ⟨.inr (.inl (mem_treeIndices_self ha)), .inr (.inr (mem_treeIndices_self hb))⟩⟩
      · obtain ⟨m, hm, hc⟩ := ih ha hj
        exact ⟨m, hm, fun hi => (hc hi).imp (.inr ∘ .inl) (.inr ∘ .inl)⟩
      · obtain ⟨m, hm, hc⟩ := ih hb hj
        exact ⟨m, hm, fun hi => (hc hi).imp (.inr ∘ .inr) (.inr ∘ .inr)⟩

theorem lt_of_mem_treeIndices (h : treeIndices nodes fuel k = some ks) (hj : j ∈ ks) : j < nodes.length := by
  obtain ⟨n, hn, -⟩ := mem_treeIndices h hj
  exact (List.getElem?_eq_some_iff.1 hn).1

/-- A tree whose indices are read is read as a tree. -/
theorem readTree_of_treeIndices (h : treeIndices nodes fuel k = some ks) : ∃ tr, readTree nodes fuel k = some tr := by
  induction fuel generalizing k ks with
  | zero => cases h
  | succ fuel ih =>
    obtain ⟨n, hn, ⟨hk, -⟩ | ⟨hk, a, b, ha, hb, -⟩⟩ := treeIndices_cases h
    · exact ⟨.leaf n.sym, by simp [readTree, hn, hk]⟩
    · obtain ⟨l, hl⟩ := ih ha
      obtain ⟨r, hr⟩ := ih hb
      exact ⟨.node l r, by simp [readTree, hn, hk, hl, hr]⟩

/-- The indices of a tree laid out in preorder are consecutive (42_tree_serdes R146). -/
theorem treeIndices_preorder (tr : CodeTree) (before behind : List Node) (fuel : Nat) (h : treeSize tr ≤ fuel) :
    treeIndices (before ++ preorder tr before.length ++ behind) fuel before.length =
      some (List.range' before.length (treeSize tr)) := by
  induction tr generalizing before behind fuel with
  | leaf x =>
    obtain ⟨fuel, rfl⟩ : ∃ f, fuel = f + 1 := ⟨fuel - 1, by simp only [treeSize] at h; omega⟩
    exact treeIndices_leaf (n := ⟨.leaf, x, 0#64, 0, 0⟩) (by simp [preorder]) rfl
  | node l r ihl ihr =>
    simp only [treeSize] at h
    obtain ⟨fuel, rfl⟩ : ∃ f, fuel = f + 1 := ⟨fuel - 1, by omega⟩
    let root : Node := ⟨.internal, 0#8, 0#64, before.length + 1, before.length + 1 + treeSize l⟩
    have hl := ihl (before ++ [root]) (preorder r (before.length + 1 + treeSize l) ++ behind) fuel (by omega)
    have hr := ihr (before ++ [root] ++ preorder l (before.length + 1)) behind fuel (by omega)
    have hlen1 : (before ++ [root]).length = before.length + 1 := by simp
    have hlen2 : (before ++ [root] ++ preorder l (before.length + 1)).length = before.length + 1 + treeSize l := by
      simp [Nat.add_assoc, Nat.add_comm]
    rw [hlen1] at hl
    rw [hlen2] at hr
    simp only [List.append_assoc, List.cons_append, List.nil_append] at hl hr
    have hlayout : before ++ preorder (.node l r) before.length ++ behind = before ++ root ::
        (preorder l (before.length + 1) ++ (preorder r (before.length + 1 + treeSize l) ++ behind)) := by
      simp [preorder, root]
    have hroot (rest : List Node) : (before ++ root :: rest)[before.length]? = some root := by
      rw [List.getElem?_append_right (Nat.le_refl _), Nat.sub_self, List.getElem?_cons_zero]
    rw [hlayout, treeIndices_internal (hroot _) rfl hl hr, List.range'_append_1, ← List.range'_succ]
    congr 2
    simp only [treeSize]
    omega

/-- Every child in a tree laid out in preorder is one of its nodes. -/
theorem preorder_children (tr : CodeTree) (b : Nat) (hn : n ∈ preorder tr b) (hk : n.kind = .internal) :
    n.left < b + treeSize tr ∧ n.right < b + treeSize tr := by
  induction tr generalizing b with
  | leaf x =>
    obtain rfl := List.mem_singleton.1 hn
    cases hk
  | node l r ihl ihr =>
    have := treeSize_pos l
    have := treeSize_pos r
    simp only [preorder, List.mem_cons, List.mem_append] at hn
    simp only [treeSize]
    obtain rfl | hn | hn := hn
    · simp only
      omega
    · have := ihl _ hn
      omega
    · have := ihr _ hn
      omega

/-! ### The indices of a forest -/

/-- The indices of the tree of entry `k`, none where it is not read as a tree. -/
def indicesAt (nodes : List Node) (k : Nat) : List Nat := (treeIndices nodes nodes.length k).getD []

/-- Every entry of a list is read as a tree. -/
def AllTrees (nodes : List Node) (l : List Nat) : Prop :=
  ∀ k ∈ l, treeIndices nodes nodes.length k = some (indicesAt nodes k)

theorem treeIndices_eq_indicesAt (h : treeIndices nodes nodes.length k = some ks) : indicesAt nodes k = ks := by
  rw [indicesAt, h, Option.getD_some]

/-- A forest's indices are those of its trees, one tree after another. -/
theorem forestIndices_eq_some :
    forestIndices nodes l = some ks ↔ AllTrees nodes l ∧ ks = l.flatMap (indicesAt nodes) := by
  induction l generalizing ks with
  | nil => simp [forestIndices, AllTrees, eq_comm]
  | cons k l ih =>
    simp only [AllTrees, List.forall_mem_cons] at ih ⊢
    unfold forestIndices
    constructor
    · intro h
      split at h
      · rename_i a b ha hb
        obtain ⟨hl, rfl⟩ := ih.1 hb
        have hk := treeIndices_eq_indicesAt ha
        exact ⟨⟨hk ▸ ha, hl⟩, by rw [List.flatMap_cons, hk, Option.some.inj h]⟩
      · cases h
    · rintro ⟨⟨hk, hl⟩, rfl⟩
      rw [hk, ih.2 ⟨hl, rfl⟩]
      rfl

/-- 10_state R51 (b) by trees: every list entry is read as a tree, and no index occurs twice. -/
theorem forestStrict_iff : ForestStrict s ↔ AllTrees s.nodes s.list ∧ (s.list.flatMap (indicesAt s.nodes)).Nodup := by
  unfold ForestStrict
  constructor
  · intro h
    split at h
    · cases h
    · obtain ⟨ha, rfl⟩ := forestIndices_eq_some.1 ‹_›
      exact ⟨ha, h⟩
  · rintro ⟨ha, hn⟩
    rw [forestIndices_eq_some.2 ⟨ha, rfl⟩]
    exact hn

theorem AllTrees.append_nodes (h : AllTrees nodes l) (more : List Node) : AllTrees (nodes ++ more) l := by
  intro k hk
  have := treeIndices_append (h k hk) (fuel' := (nodes ++ more).length) (by simp) more
  rwa [treeIndices_eq_indicesAt this]

theorem AllTrees.indicesAt_append (h : AllTrees nodes l) (hk : k ∈ l) (more : List Node) :
    indicesAt (nodes ++ more) k = indicesAt nodes k :=
  treeIndices_eq_indicesAt (treeIndices_append (h k hk) (by simp) more)

theorem AllTrees.flatMap_append (h : AllTrees nodes l) (more : List Node) :
    l.flatMap (indicesAt (nodes ++ more)) = l.flatMap (indicesAt nodes) :=
  List.flatMap_congr fun _ hk => h.indicesAt_append hk more

theorem AllTrees.lt (h : AllTrees nodes l) (hj : j ∈ l.flatMap (indicesAt nodes)) : j < nodes.length := by
  obtain ⟨k, hk, hj⟩ := List.mem_flatMap.1 hj
  exact lt_of_mem_treeIndices (h k hk) hj

end Sys2Proof.Machine
end

section
/-! SUPPORT. The tree invariants of 10_state R51 under every command, and the commands' freedom from the fault of log 6. -/

namespace Sys2Proof.Machine

variable {s t : State} {i : Instr} {n : Node} {ks l : List Nat}

/-! ### The tree invariants -/

/-- 10_state R51 (c), with the indices of the tree at ROOT named. -/
theorem rootListed_iff :
    RootListed s ↔ (s.rootValid = true → s.list = [s.root] ∧
      ∃ ks, treeIndices s.nodes s.nodes.length s.root = some ks ∧ s.cursor ∈ ks) := by
  unfold RootListed
  cases treeIndices s.nodes s.nodes.length s.root <;> simp

theorem treeInvariant_of_empty (hn : s.nodes = []) (hl : s.list = []) (hv : s.rootValid = false) :
    TreeInvariant s := by
  refine ⟨⟨by simp [hl], by simp [hn]⟩, ?_, by simp [RootListed, hv]⟩
  rw [forestStrict_iff, hl]
  exact ⟨fun k hk => (nomatch hk), List.nodup_nil⟩

/-- One more node at the end of the arena, the root of a tree whose other indices are `ks`, and its index at the end of a
part `l` of the list that shares no node with `ks`: LEAF_PUSH (no `ks`) and MERGE (the two trees it joins). -/
theorem treeInvariant_grow (hs : TreeInvariant s) (hl : l ⊆ s.list)
    (hdisj : (l.flatMap (indicesAt s.nodes) ++ ks).Nodup) (hks : ∀ j ∈ ks, j < s.nodes.length)
    (hnew : treeIndices (s.nodes ++ [n]) (s.nodes.length + 1) s.nodes.length = some (s.nodes.length :: ks))
    (hc : n.kind = .internal → n.left < s.nodes.length ∧ n.right < s.nodes.length)
    (htn : t.nodes = s.nodes ++ [n]) (htl : t.list = l ++ [s.nodes.length]) (hv : t.rootValid = false) :
    TreeInvariant t := by
  obtain ⟨⟨hlist, hchild⟩, hforest, -⟩ := hs
  have hall : AllTrees s.nodes l := fun k hk => (forestStrict_iff.1 hforest).1 k (hl hk)
  have hlen : (s.nodes ++ [n]).length = s.nodes.length + 1 := List.length_append
  refine ⟨⟨fun k hk => ?_, fun m hm hmk => ?_⟩, forestStrict_iff.2 ⟨?_, ?_⟩, by simp [RootListed, hv]⟩
  · rw [htl, List.mem_append, List.mem_singleton] at hk
    rw [htn, hlen]
    obtain hk | rfl := hk
    · exact Nat.lt_succ_of_lt (hlist k (hl hk))
    · exact Nat.lt_succ_self _
  · rw [htn, List.mem_append, List.mem_singleton] at hm
    rw [htn, hlen]
    have : m.left < s.nodes.length ∧ m.right < s.nodes.length := hm.elim (hchild m · hmk) fun h => h ▸ hc (h ▸ hmk)
    omega
  · rw [htn, htl]
    intro k hk
    obtain hk | hk := List.mem_append.1 hk
    · exact hall.append_nodes [n] k hk
    · obtain rfl := List.mem_singleton.1 hk
      rw [← hlen] at hnew
      rw [hnew, treeIndices_eq_indicesAt hnew]
  · rw [← hlen] at hnew
    rw [htn, htl, List.flatMap_append, hall.flatMap_append, List.flatMap_singleton, treeIndices_eq_indicesAt hnew,
      List.perm_middle.nodup_iff, List.nodup_cons]
    refine ⟨fun hmem => ?_, hdisj⟩
    obtain hmem | hmem := List.mem_append.1 hmem
    · exact absurd (hall.lt hmem) (Nat.lt_irrefl _)
    · exact absurd (hks _ hmem) (Nat.lt_irrefl _)

theorem leafPushed_treeInvariant {x : Byte} (hs : TreeInvariant s) : TreeInvariant (leafPushed x s) := by
  refine treeInvariant_grow (ks := []) (n := ⟨.leaf, x, s.arg, 0, 0⟩) hs (List.Subset.refl _) ?_ ?_ ?_ ?_ rfl rfl rfl
  · rw [List.append_nil]
    exact (forestStrict_iff.1 hs.2.1).2
  · exact fun j hj => (nomatch hj)
  · exact treeIndices_leaf List.getElem?_concat_length rfl
  · exact fun h => (nomatch h)

/-- Without the entries at two positions, the list holds the others. -/
theorem perm_eraseTwo {i j a b : Nat} (hij : i ≠ j) (hi : l[i]? = some a) (hj : l[j]? = some b) :
    l.Perm (a :: b :: eraseTwo l i j) := by
  wlog h : i < j generalizing i j a b
  · have := this hij.symm hj hi (by omega)
    rw [eraseTwo, Nat.max_comm, Nat.min_comm]
    exact this.trans (List.Perm.swap ..)
  obtain ⟨hjl, rfl⟩ := List.getElem?_eq_some_iff.1 hj
  have hi' : (l.eraseIdx j)[i]? = some a := by rwa [List.getElem?_eraseIdx_of_lt h]
  obtain ⟨hil, rfl⟩ := List.getElem?_eq_some_iff.1 hi'
  rw [eraseTwo, Nat.max_eq_right h.le, Nat.min_eq_left h.le]
  exact ((List.getElem_cons_eraseIdx_perm hjl).symm.trans
    (.cons _ (List.getElem_cons_eraseIdx_perm hil).symm)).trans (List.Perm.swap ..)

theorem merged_treeInvariant {i j a b : Nat} {w : Word} (hs : TreeInvariant s) (hij : i ≠ j)
    (hi : s.list[i]? = some a) (hj : s.list[j]? = some b) : TreeInvariant (merged i j a b w s) := by
  have hperm := perm_eraseTwo hij hi hj
  obtain ⟨hall, hnodup⟩ := forestStrict_iff.1 hs.2.1
  have ha := hall a (hperm.mem_iff.2 (by simp))
  have hb := hall b (hperm.mem_iff.2 (by simp))
  refine treeInvariant_grow (n := ⟨.internal, 0#8, w, a, b⟩) (l := eraseTwo s.list i j)
    (ks := indicesAt s.nodes a ++ indicesAt s.nodes b) hs ?_ ?_ ?_ ?_ ?_ rfl rfl rfl
  · exact fun k hk => hperm.mem_iff.2 (by simp [hk])
  · have := (hperm.flatMap_right (indicesAt s.nodes)).nodup_iff.1 hnodup
    rw [List.flatMap_cons, List.flatMap_cons, ← List.append_assoc] at this
    exact List.perm_append_comm.nodup_iff.1 this
  · intro k hk
    obtain hk | hk := List.mem_append.1 hk
    · exact lt_of_mem_treeIndices ha hk
    · exact lt_of_mem_treeIndices hb hk
  · exact treeIndices_internal List.getElem?_concat_length rfl
      (treeIndices_append ha (Nat.le_refl _) _) (treeIndices_append hb (Nat.le_refl _) _)
  · exact fun _ =>
      ⟨lt_of_mem_treeIndices ha (mem_treeIndices_self ha), lt_of_mem_treeIndices hb (mem_treeIndices_self hb)⟩

theorem mergeKeeps_treeInvariant : MergeKeeps TreeInvariant := by
  intro s t hs _ h
  obtain ⟨i, j, a, b, w, hij, hi, hj, -, rfl⟩ := mergeStep_eq_done h
  exact merged_treeInvariant hs hij hi hj

theorem rootFromList_treeInvariant (hs : TreeInvariant s) : TreeInvariant (rootFromList s) := by
  obtain hr | ⟨k, hk, hr⟩ := rootFromList_cases s <;> rw [hr]
  · exact hs
  · obtain ⟨hidx, hforest, -⟩ := hs
    have hroot := (forestStrict_iff.1 hforest).1 k (by simp [hk])
    exact ⟨hidx, hforest, rootListed_iff.2 fun _ => ⟨hk, _, hroot, mem_treeIndices_self hroot⟩⟩

/-- The decode walk stays in the tree at ROOT (10_state R51 (c)). -/
theorem decodeKeeps_treeInvariant : DecodeKeeps TreeInvariant := by
  rintro c s c' t hv ⟨hidx, hforest, hroot⟩ h
  obtain ⟨hlist, ks, hks, hcur⟩ := rootListed_iff.1 hroot hv
  obtain ⟨n, hn, ⟨-, -, -, rfl⟩ | ⟨hk, -, -, b, rfl⟩⟩ := decodeStep_cases h
  · exact ⟨hidx, hforest, rootListed_iff.2 fun _ => ⟨hlist, ks, hks, mem_treeIndices_self hks⟩⟩
  · obtain ⟨m, hm, hchild⟩ := mem_treeIndices hks hcur
    obtain rfl : m = n := Option.some.inj (hm.symm.trans hn)
    refine ⟨hidx, hforest, rootListed_iff.2 fun _ => ⟨hlist, ks, hks, ?_⟩⟩
    cases b
    · exact (hchild hk).1
    · exact (hchild hk).2

theorem deserialized_treeInvariant {tr : CodeTree} {present : BitVec 256} {p : Word} :
    TreeInvariant (deserialized tr present p s) := by
  have hlen : (preorder tr 0).length = treeSize tr := preorder_length tr 0
  have hidx : treeIndices (preorder tr 0) (preorder tr 0).length 0 = some (List.range' 0 (treeSize tr)) := by
    simpa using treeIndices_preorder tr [] [] (preorder tr 0).length hlen.ge
  refine ⟨⟨fun k hk => ?_, fun m hm hk => ?_⟩, forestStrict_iff.2 ⟨fun k hk => ?_, ?_⟩, rootListed_iff.2 fun _ => ?_⟩
  · obtain rfl := List.mem_singleton.1 hk
    exact hlen ▸ treeSize_pos tr
  · have hchild := preorder_children tr 0 hm hk
    rwa [Nat.zero_add, ← hlen] at hchild
  · obtain rfl := List.mem_singleton.1 hk
    exact treeIndices_eq_indicesAt hidx ▸ hidx
  · show ([0].flatMap (indicesAt (preorder tr 0))).Nodup
    rw [List.flatMap_singleton, treeIndices_eq_indicesAt hidx]
    exact List.nodup_range'
  · exact ⟨rfl, _, hidx, mem_treeIndices_self hidx⟩

/-- Every command keeps the tree invariants, whether it completes or raises. -/
theorem exec_treeInvariant (hs : TreeInvariant s) : AnswersIn (exec i s) i.opcode (errorsOf i) TreeInvariant := by
  cases i with
  | treeClear => exact execTreeClear_answersIn (treeInvariant_of_empty rfl rfl rfl)
  | leafPush x => exact execLeafPush_answersIn hs fun _ _ => leafPushed_treeInvariant hs
  | merge => exact execMerge_answersIn mergeKeeps_treeInvariant (fun _ => rootFromList_treeInvariant) hs
  | build => exact execBuild_answersIn mergeKeeps_treeInvariant (fun _ => rootFromList_treeInvariant) hs
  | deserialize =>
    exact execDeserialize_answersIn hs (treeInvariant_of_empty rfl rfl rfl) fun _ _ _ _ => deserialized_treeInvariant
  | decode => exact execDecode_answersIn decodeKeeps_treeInvariant hs hs
  | nop | genCodes | serLen | readBit | loadU64 | bitsFromPtr =>
    refine (exec_frame _ s).imp fun t (ht : t = _) => ?_
    rw [ht]
    exact hs
  | serialize | packBit | packSymbol | packStream | flush | emitU64 =>
    refine (exec_frame _ s).imp fun t ⟨ht, _⟩ => ?_
    rw [ht]
    exact hs

/-! ### The code table (10_state R46, R49, 41_code_table R124) -/

/-- An invalid table belongs to any tree (10_state R46). -/
theorem tableInvariant_of_invalid (hv : s.ctValid = false) (hc : ∀ x, codeOf s x = none) : TableInvariant s :=
  ⟨fun _ => hc, fun h => absurd (hv.symm.trans h) Bool.false_ne_true⟩

theorem invalidateCT_tableInvariant : TableInvariant (invalidateCT s) :=
  tableInvariant_of_invalid rfl (codeOf_invalidateCT s)

/-- `SetRoot(LIST[0])` sets again the root that the table belongs to. -/
theorem rootFromList_tableInvariant (hs : TreeInvariant s) (ht : TableInvariant s) :
    TableInvariant (rootFromList s) := by
  obtain hr | ⟨k, hk, hr⟩ := rootFromList_cases s <;> rw [hr]
  · exact ht
  · refine ⟨ht.1, fun hv => ⟨rfl, ?_⟩⟩
    obtain ⟨hroot, htable⟩ := ht.2 hv
    obtain ⟨hlist, -⟩ := hs.2.2 hroot
    obtain rfl : k = s.root := by simpa using hk.symm.trans hlist
    exact htable

theorem mergeKeeps_tableInvariant : MergeKeeps fun s => TreeInvariant s ∧ TableInvariant s := by
  rintro s t ⟨hs, -⟩ hl h
  refine ⟨mergeKeeps_treeInvariant s t hs hl h, ?_⟩
  obtain ⟨i, j, a, b, w, -, -, -, -, rfl⟩ := mergeStep_eq_done h
  exact invalidateCT_tableInvariant

theorem codesGenerated_tableInvariant {tr : CodeTree} {ct : Vector (Option Code) 256} {v : Word}
    (hv : s.rootValid = true) (htr : treeOf s s.root = some tr)
    (hc : ∀ x p, codeOf (codesGenerated ct v s) x = some p ↔ LeafAt tr p x) :
    TableInvariant (codesGenerated ct v s) :=
  ⟨fun h => absurd h.symm Bool.false_ne_true, fun _ => ⟨hv, tr, htr, hc⟩⟩

/-- Every command keeps the table a table of the current tree, whether it completes or raises. -/
theorem exec_tableInvariant (hs : TreeInvariant s) (ht : TableInvariant s) :
    AnswersIn (exec i s) i.opcode (errorsOf i) TableInvariant := by
  have root_keeps (u : State) (hu : TreeInvariant u ∧ TableInvariant u) :
      TreeInvariant (rootFromList u) ∧ TableInvariant (rootFromList u) :=
    ⟨rootFromList_treeInvariant hu.1, rootFromList_tableInvariant hu.1 hu.2⟩
  cases i with
  | treeClear => exact execTreeClear_answersIn invalidateCT_tableInvariant
  | leafPush x => exact execLeafPush_answersIn ht fun _ _ => invalidateCT_tableInvariant
  | merge => exact (execMerge_answersIn mergeKeeps_tableInvariant root_keeps ⟨hs, ht⟩).imp fun _ hu => hu.2
  | build => exact (execBuild_answersIn mergeKeeps_tableInvariant root_keeps ⟨hs, ht⟩).imp fun _ hu => hu.2
  | genCodes =>
    exact execGenCodes_answersIn ht invalidateCT_tableInvariant fun _ _ _ => codesGenerated_tableInvariant
  | deserialize =>
    exact execDeserialize_answersIn ht invalidateCT_tableInvariant fun _ _ _ _ =>
      tableInvariant_of_invalid rfl (codeOf_treeClearState s)
  | nop | serLen | readBit | loadU64 | bitsFromPtr =>
    refine (exec_frame _ s).imp fun t (h : t = _) => ?_
    rw [h]
    exact ht
  | serialize | packBit | packSymbol | packStream | flush | decode | emitU64 =>
    refine (exec_frame _ s).imp fun t ⟨h, _⟩ => ?_
    rw [h]
    exact ht

end Sys2Proof.Machine
end

section
/-! SUPPORT. With the tree invariants of 10_state R51 no command ends in the fault brokenTree (log 6). -/

namespace Sys2Proof.Machine

variable {α β : Type} {s t : State} {i : Instr}

theorem andThen_ne_broken {c : Cmd α} {f : α → State → Cmd β} (hc : c ≠ .broken)
    (hf : ∀ a t, c = .done a t → f a t ≠ .broken) : c.andThen f ≠ .broken := by
  rw [ne_eq, andThen_eq_broken, not_or]
  exact ⟨hc, fun ⟨a, t, h, hb⟩ => hf a t h hb⟩

theorem finish_ne_fault {op : Byte} {c : Cmd α} {r : Fault} (h : c ≠ .broken) : finish op c ≠ .fault r :=
  fun hf => h (finish_eq_fault.1 hf).1

/-! ### The packer -/

theorem pushBit_ne_broken {b : Bool} : pushBit b s ≠ .broken := by
  unfold pushBit
  split_ifs
  · simp
  · exact andThen_ne_broken outAppend_ne_broken (by simp)
  · simp

theorem pushBits_ne_broken {bits : Code} : pushBits bits s ≠ .broken := by
  induction bits generalizing s with
  | nil => simp [pushBits]
  | cons b bits ih => exact andThen_ne_broken pushBit_ne_broken fun _ _ _ => ih

theorem packSym_ne_broken {x : Byte} : packSym x s ≠ .broken := by
  unfold packSym
  split
  · simp
  · split
    · simp
    · exact pushBits_ne_broken

theorem packLoop_ne_broken {n m : Nat} : packLoop n m s ≠ .broken := by
  induction n generalizing m s with
  | zero => simp [packLoop]
  | succ n ih =>
    unfold packLoop
    split
    · simp
    · exact andThen_ne_broken packSym_ne_broken fun _ _ _ => ih

/-! ### The merges (40_tree_builder R100, R102) -/

/-- The entries of a list of allocated indices have weights. -/
theorem exists_weightsOf {nodes : List Node} {l : List Nat} (h : ∀ k ∈ l, k < nodes.length) :
    ∃ ws, weightsOf nodes l = some ws ∧ ws.length = l.length := by
  induction l with
  | nil => exact ⟨[], rfl, rfl⟩
  | cons k l ih =>
    rw [List.forall_mem_cons] at h
    obtain ⟨ws, hws, hlen⟩ := ih h.2
    exact ⟨nodes[k].weight.toNat :: ws, by simp [weightsOf, List.getElem?_eq_getElem h.1, hws], by simp [hlen]⟩

theorem leastWeight_mem {ws : List Nat} (h : ws ≠ []) : leastWeight ws ∈ ws := by
  fun_induction leastWeight ws with
  | case1 => exact absurd rfl h
  | case2 w => exact List.mem_singleton_self w
  | case3 w ws hne ih =>
    have hws : ws ≠ [] := fun hnil => hne (by simp [hnil])
    rcases min_choice w (leastWeight ws) with hmin | hmin <;> rw [hmin]
    · exact List.mem_cons_self
    · exact List.mem_cons_of_mem _ (ih hws)

theorem firstLeast_lt {ws : List Nat} (h : ws ≠ []) : firstLeast ws < ws.length :=
  List.findIdx_lt_length_of_exists ⟨_, leastWeight_mem h, beq_self_eq_true _⟩

/-- Select2 selects positions of its list. -/
theorem select2_lt {ws : List Nat} (h : 2 ≤ ws.length) : (select2 ws).1 < ws.length ∧ (select2 ws).2 < ws.length := by
  have h1 : firstLeast ws < ws.length := firstLeast_lt (List.ne_nil_of_length_pos (by omega))
  have hlen := List.length_eraseIdx_of_lt h1
  have h2 : firstLeast (ws.eraseIdx (firstLeast ws)) < (ws.eraseIdx (firstLeast ws)).length :=
    firstLeast_lt (List.ne_nil_of_length_pos (by omega))
  simp only [select2]
  split <;> omega

theorem mergeAt_ne_broken {i j : Nat} (hs : IndicesAllocated s) (hi : i < s.list.length) (hj : j < s.list.length) :
    mergeAt i j s ≠ .broken := by
  have ha := hs.1 _ (List.getElem_mem hi)
  have hb := hs.1 _ (List.getElem_mem hj)
  simp only [mergeAt, List.getElem?_eq_getElem hi, List.getElem?_eq_getElem hj, List.getElem?_eq_getElem ha,
    List.getElem?_eq_getElem hb]
  split
  · simp
  · exact andThen_ne_broken allocNode_ne_broken (by simp)

theorem mergeStep_ne_broken (hs : IndicesAllocated s) (hl : 2 ≤ s.list.length) : mergeStep s ≠ .broken := by
  obtain ⟨ws, hws, hlen⟩ := exists_weightsOf hs.1
  rw [← hlen] at hl
  simp only [mergeStep, hws]
  exact mergeAt_ne_broken hs (hlen ▸ (select2_lt hl).1) (hlen ▸ (select2_lt hl).2)

theorem buildRounds_ne_broken {n : Nat} (hs : TreeInvariant s) : buildRounds n s ≠ .broken := by
  induction n generalizing s with
  | zero => simp [buildRounds]
  | succ n ih =>
    unfold buildRounds
    split
    · exact andThen_ne_broken (mergeStep_ne_broken hs.1 ‹_›) fun _ t ht =>
        ih (mergeKeeps_treeInvariant s t hs ‹_› ht)
    · simp

/-! ### The decode walk (44_bit_unpacker R162) -/

theorem decodeStep_ne_broken {c : Nat} (hs : TreeInvariant s) (hv : s.rootValid = true) :
    decodeStep c s ≠ .broken := by
  obtain ⟨-, ks, hks, hcur⟩ := rootListed_iff.1 hs.2.2 hv
  obtain ⟨n, hn, -⟩ := mem_treeIndices hks hcur
  simp only [decodeStep, hn]
  split
  · exact andThen_ne_broken outAppend_ne_broken (by simp)
  · split <;> simp

/-- Every step of the walk emits one of the symbols still asked for or consumes one of the bits left in IN, so a number
of steps that covers both suffices (log 6). -/
theorem decodeLoop_ne_broken {n fuel c : Nat} (hs : TreeInvariant s) (hv : s.rootValid = true)
    (hf : (n - c) + (8 * s.inBuf.length - s.bitIdx) ≤ fuel) : decodeLoop n fuel c s ≠ .broken := by
  induction fuel generalizing c s with
  | zero =>
    rw [decodeLoop, if_neg (by omega)]
    simp
  | succ fuel ih =>
    unfold decodeLoop
    split
    · refine andThen_ne_broken (decodeStep_ne_broken hs hv) fun c' t h =>
        ih (decodeKeeps_treeInvariant c s c' t hv hs h) ((decodeStep_rootValid h).trans hv) ?_
      obtain ⟨n, -, ⟨-, -, rfl, rfl⟩ | ⟨-, hbit, rfl, b, rfl⟩⟩ := decodeStep_cases h
      · simp only
        omega
      · simp only
        omega
    · simp

/-! ### Every command -/

theorem exists_treeOf_root (hs : TreeInvariant s) (hv : s.rootValid = true) : ∃ tr, treeOf s s.root = some tr := by
  obtain ⟨-, ks, hks, -⟩ := rootListed_iff.1 hs.2.2 hv
  exact readTree_of_treeIndices hks

theorem walk_ne_broken {tr : CodeTree} {p : Code} {n : Nat} : walk tr p n s ≠ .broken := by
  intro h
  have := walk_spec tr p n s
  simp [h] at this

theorem clearOnError_parse_ne_broken {fuel : Nat} {r : List Byte} : clearOnError (parse fuel r s) ≠ .broken := by
  have := parse_spec fuel r s
  cases h : parse fuel r s with
  | broken => simp [h] at this
  | done => simp [clearOnError]
  | raised => simp [clearOnError]

/-- No command faults in a state that meets the tree invariants. -/
theorem exec_ne_fault {r : Fault} (hs : TreeInvariant s) : exec i s ≠ .fault r := by
  cases i with
  | nop | treeClear | bitsFromPtr => exact fun h => (nomatch h)
  | leafPush x =>
    refine finish_ne_fault ?_
    split_ifs
    · simp
    · simp
    · exact andThen_ne_broken allocNode_ne_broken (by simp)
  | merge =>
    refine finish_ne_fault ?_
    split
    · simp
    · refine andThen_ne_broken ?_ (by simp)
      split
      · exact mergeStep_ne_broken hs.1 ‹_›
      · simp
  | build =>
    refine finish_ne_fault ?_
    split
    · simp
    · exact andThen_ne_broken (buildRounds_ne_broken hs) (by simp)
  | genCodes =>
    refine finish_ne_fault ?_
    split
    · simp
    · obtain ⟨tr, htr⟩ := exists_treeOf_root hs (eq_true_of_ne_false ‹_›)
      rw [htr]
      exact andThen_ne_broken walk_ne_broken (by simp)
  | serLen =>
    refine finish_ne_fault ?_
    split
    · simp
    · obtain ⟨tr, htr⟩ := exists_treeOf_root hs (eq_true_of_ne_false ‹_›)
      simp [htr]
  | serialize =>
    refine finish_ne_fault ?_
    split
    · simp
    · obtain ⟨tr, htr⟩ := exists_treeOf_root hs (eq_true_of_ne_false ‹_›)
      simp only [htr]
      split
      · simp
      · exact andThen_ne_broken outAppend_ne_broken (by simp)
  | deserialize =>
    refine finish_ne_fault ?_
    split
    · simp
    · exact andThen_ne_broken clearOnError_parse_ne_broken (by simp)
  | packBit x =>
    refine finish_ne_fault ?_
    split
    · simp
    · exact pushBit_ne_broken
  | packSymbol x => exact finish_ne_fault packSym_ne_broken
  | packStream => exact finish_ne_fault packLoop_ne_broken
  | flush x =>
    refine finish_ne_fault ?_
    split
    · exact andThen_ne_broken outAppend_ne_broken (by simp)
    · simp
  | readBit | loadU64 =>
    refine finish_ne_fault ?_
    split <;> simp
  | decode =>
    refine finish_ne_fault ?_
    split
    · simp
    · refine decodeLoop_ne_broken hs (eq_true_of_ne_false ‹_›) ?_
      simp only [decodeFuel]
      omega
  | emitU64 => exact finish_ne_fault outAppend_ne_broken

end Sys2Proof.Machine
end

section
/-! SUPPORT. What a step comes to (20_memory R69): a turn without a command, a soft reset, a command, or a refused access. -/

namespace Sys2Proof.Machine

variable {s t : State} {i : Instr}

/-! ### Turns without a command -/

/-- What a step that neither runs a command nor resets the core can change: the host's fields, IN and OUT within what
they may hold, the pointers, the slot, and the error latch, which is kept, cleared, or set to ILLEGAL_COMMAND. -/
structure HostStep (s t : State) : Prop where
  frame : t = { s with
    arg := t.arg, err := t.err, hostDrop := t.hostDrop, inBuf := t.inBuf, rdPtr := t.rdPtr, bitIdx := t.bitIdx,
    out := t.out, nodeSel := t.nodeSel, listSel := t.listSel, codeSel := t.codeSel, pending := t.pending,
    turns := t.turns, seen := t.seen }
  err : t.err = s.err ∨ t.err = none ∨ ∃ op, t.err = some ⟨.illegalCommand, op⟩
  inBuf : t.inBuf.length ≤ max s.inBuf.length s.cfg.inCap
  out : t.out.length ≤ s.out.length
  bitIdx : t.bitIdx ≤ max s.bitIdx (2 ^ 64)

theorem HostStep.cfg (h : HostStep s t) : t.cfg = s.cfg := by
  rw [h.frame]

/-- A step that touches neither the error latch, IN, OUT nor BIT_IDX. -/
theorem HostStep.of_quiet
    (h : t = { s with
      arg := t.arg, hostDrop := t.hostDrop, rdPtr := t.rdPtr, nodeSel := t.nodeSel, listSel := t.listSel,
      codeSel := t.codeSel, pending := t.pending, turns := t.turns, seen := t.seen }) : HostStep s t := by
  rw [h]
  exact ⟨rfl, .inl rfl, le_max_left .., Nat.le_refl _, le_max_left ..⟩

/-- The core's turn: without a command to run it is a host step, and a command runs with the slot emptied. -/
theorem coreMove_cases (s : State) :
    (∃ t, coreMove s = .moved t ∧ HostStep s t) ∨ ∃ i, coreMove s = .run i { s with pending := none } := by
  unfold coreMove
  split
  · exact .inl ⟨_, rfl, .of_quiet rfl⟩
  · split
    · exact .inl ⟨_, rfl, .of_quiet rfl⟩
    · split
      · exact .inr ⟨_, rfl⟩
      · exact .inl ⟨_, rfl, rfl, .inr (.inr ⟨_, rfl⟩), le_max_left .., Nat.le_refl _, le_max_left ..⟩

theorem accessMove_cases (p : Config.Params) (width addr : Nat) (f : Reg → State) :
    (∃ r, accessMove p width addr f = .moved (f r)) ∨ accessMove p width addr f = .refused .accessNotAdmitted := by
  unfold accessMove
  split
  · exact .inr rfl
  · exact .inl ⟨_, rfl⟩

theorem hostRead_hostStep (r : Reg) (ts : List Turn) : HostStep s (hostRead r { s with turns := ts }) := by
  unfold hostRead readEffect
  split
  · exact ⟨rfl, .inl rfl, le_max_left .., by simp, le_max_left ..⟩
  · exact .of_quiet rfl

/-- A write of CTRL without SOFT_RESET (10_state R25): each of the other three bits acts by itself. -/
theorem writeCtrl_of_no_reset {v : Word} (h : v.getLsbD 0 = false) (s : State) :
    writeCtrl v s = { s with
      err := if v.getLsbD 1 then none else s.err
      hostDrop := if v.getLsbD 1 then false else s.hostDrop
      inBuf := if v.getLsbD 2 then [] else s.inBuf
      rdPtr := if v.getLsbD 2 then 0#64 else s.rdPtr
      bitIdx := if v.getLsbD 2 then 0 else s.bitIdx
      out := if v.getLsbD 3 then [] else s.out } := by
  simp only [writeCtrl, h]
  cases v.getLsbD 1 <;> cases v.getLsbD 2 <;> cases v.getLsbD 3 <;> rfl

theorem writeCtrl_cases (v : Word) (ts : List Turn) :
    HostStep s (writeCtrl v { s with turns := ts }) ∨
      writeCtrl v { s with turns := ts } = softReset { s with turns := ts } := by
  cases h : v.getLsbD 0 with
  | true => exact .inr (if_pos h)
  | false =>
    refine .inl ?_
    rw [writeCtrl_of_no_reset h]
    refine ⟨rfl, ?_, ?_, ?_, ?_⟩ <;> simp only <;> split <;> simp

theorem writeIdle_cases (r : Reg) (v : Word) (ts : List Turn) :
    HostStep s (writeIdle v { s with turns := ts } r) ∨
      writeIdle v { s with turns := ts } r = softReset { s with turns := ts } := by
  cases r with
  | ctrl => exact writeCtrl_cases v ts
  | inData =>
    refine .inl ?_
    simp only [writeIdle, inAppend]
    split
    · refine ⟨rfl, .inl rfl, ?_, Nat.le_refl _, le_max_left ..⟩
      simp only [List.length_append, List.length_singleton]
      omega
    · exact .of_quiet rfl
  | bitIdx => exact .inl ⟨rfl, .inl rfl, le_max_left .., Nat.le_refl _, le_max_of_le_right v.isLt.le⟩
  | _ => exact .inl (.of_quiet rfl)

theorem hostWrite_cases (r : Reg) (v : Word) (ts : List Turn) :
    HostStep s (hostWrite r v { s with turns := ts }) ∨
      hostWrite r v { s with turns := ts } = softReset { s with turns := ts } := by
  unfold hostWrite
  split
  · split
    · exact .inr rfl
    · exact .inl (.of_quiet rfl)
  · exact writeIdle_cases r v ts

/-! ### Steps -/

/-- A turn is complete without a command, is refused by the bus, or is the core's and runs a command. -/
theorem nextMove_cases (s : State) :
    (∃ t, nextMove s = .moved t ∧ (HostStep s t ∨ t = softReset { s with turns := s.turns.tail })) ∨
      nextMove s = .refused .accessNotAdmitted ∨ ∃ i, nextMove s = .run i (taken s) := by
  have core (h : CoreNext s) :
      (∃ t, nextMove s = .moved t ∧ (HostStep s t ∨ t = softReset { s with turns := s.turns.tail })) ∨
        nextMove s = .refused .accessNotAdmitted ∨ ∃ i, nextMove s = .run i (taken s) := by
    rw [nextMove_core h]
    obtain ⟨t, ht, hst⟩ | ⟨i, hi⟩ := coreMove_cases { s with turns := s.turns.tail }
    · refine .inl ⟨t, ht, .inl ⟨?_, hst.err, hst.inBuf, hst.out, hst.bitIdx⟩⟩
      rw [hst.frame]
    · exact .inr (.inr ⟨i, hi⟩)
  cases hturns : s.turns with
  | nil => exact hturns ▸ core (.inl hturns)
  | cons a ts =>
    cases a with
    | core => exact hturns ▸ core (.inr (by simp [hturns]))
    | read width addr =>
      simp only [nextMove, hturns, List.tail_cons]
      obtain ⟨r, hr⟩ | hr := accessMove_cases s.cfg width addr fun r => hostRead r { s with turns := ts }
      · exact .inl ⟨_, hr, .inl (hostRead_hostStep r ts)⟩
      · exact .inr (.inl hr)
    | write width addr v =>
      simp only [nextMove, hturns, List.tail_cons]
      obtain ⟨r, hr⟩ | hr := accessMove_cases s.cfg width addr fun r => hostWrite r v { s with turns := ts }
      · exact .inl ⟨_, hr, hostWrite_cases r v ts⟩
      · exact .inr (.inl hr)

theorem step_cases (s : State) :
    (∃ t, step s = .next t ∧ (HostStep s t ∨ t = softReset { s with turns := s.turns.tail })) ∨
      step s = .refused .accessNotAdmitted ∨ ∃ i, step s = exec i (taken s) := by
  unfold step
  obtain ⟨t, ht, h⟩ | h | ⟨i, h⟩ := nextMove_cases s
  · exact .inl ⟨t, by rw [ht], h⟩
  · exact .inr (.inl (by rw [h]))
  · exact .inr (.inr ⟨i, by rw [h]⟩)

/-- What every host step, a soft reset and every command lead to, every step leads to. -/
theorem step_keeps {P : State → Prop} (hhost : ∀ t, HostStep s t → P t)
    (hreset : P (softReset { s with turns := s.turns.tail }))
    (hexec : ∀ i t, exec i (taken s) = .next t → P t) (h : step s = .next t) : P t := by
  obtain ⟨u, hu, hst⟩ | hr | ⟨i, hi⟩ := step_cases s
  · obtain rfl : u = t := Host.Outcome.next.inj (hu.symm.trans h)
    obtain hst | rfl := hst
    · exact hhost _ hst
    · exact hreset
  · exact nomatch hr.symm.trans h
  · exact hexec i t (hi.symm.trans h)

theorem exec_ne_refused {r : Refusal} : exec i s ≠ .refused r := by
  cases i with
  | nop | treeClear | bitsFromPtr => exact fun h => (nomatch h)
  | _ => exact finish_ne_refused

end Sys2Proof.Machine
end

section
/-! SUPPORT. The packer's, the capacity and the pointer invariants under every command (10_state R37, 00_scope R10 to R14,
44_bit_unpacker R163). -/

namespace Sys2Proof.Machine

variable {s t : State} {i : Instr}

/-! ### ACC's unwritten bits (10_state R37) -/

theorem packerInvariant_of_empty (h : s.acc = 0#8) : PackerInvariant s := by
  intro j _
  rw [h, BitVec.getLsbD_zero]

theorem pushKeeps_packerInvariant : PushKeeps PackerInvariant := by
  intro b s t hs h
  by_cases hc : s.cnt = 7
  · cases hr : outRoom s 1 with
    | true =>
      rw [pushBit_of_room hc hr] at h
      cases h
      exact packerInvariant_of_empty rfl
    | false => simp [pushBit_of_full hc hr] at h
  · rw [pushBit_of_lt hc] at h
    cases h
    have hlt : s.cnt.val < 7 := by omega
    have hcnt : (s.cnt + 1).val = s.cnt.val + 1 := Fin.val_add_one_of_lt' (by omega)
    intro j hj
    simp only [hcnt] at hj
    rw [getLsbD_writeBit _ _ (by omega) (by omega), if_neg (by omega)]
    exact hs j (by omega)

theorem exec_packerInvariant (hs : PackerInvariant s) :
    AnswersIn (exec i s) i.opcode (errorsOf i) PackerInvariant := by
  cases i with
  | packBit x => exact execPackBit_answersIn pushKeeps_packerInvariant hs
  | packSymbol x => exact execPackSymbol_answersIn pushKeeps_packerInvariant hs
  | packStream => exact execPackStream_answersIn pushKeeps_packerInvariant (fun _ _ _ h => h) hs
  | flush x => exact execFlush_answersIn hs fun _ _ => packerInvariant_of_empty rfl
  | nop | treeClear | genCodes | serLen | deserialize | readBit | loadU64 | bitsFromPtr =>
    refine (exec_frame _ s).imp fun t (h : t = _) => ?_
    rw [h]
    exact hs
  | leafPush | merge | build | serialize | decode | emitU64 =>
    refine (exec_frame _ s).imp fun t ⟨h, _⟩ => ?_
    rw [h]
    exact hs

/-! ### Capacities (00_scope R10, R11, R13, R14) -/

theorem withinCapacity_append {bs : List Byte} (hs : WithinCapacity s) (hr : outRoom s bs.length = true) :
    WithinCapacity { s with out := s.out ++ bs } :=
  ⟨hs.1, hs.2.1, outAppend_wf hs.2.2 (outAppend_of_room hr)⟩

/-- The tree builder keeps the capacities: it adds one entry to an arena with room for it. -/
theorem withinCapacity_grow {n : Node} (hs : WithinCapacity s)
    (hcap : s.nodes.length ≠ s.cfg.nodeCap) (hl : t.list.length ≤ Config.listCap) (htc : t.cfg = s.cfg)
    (htn : t.nodes = s.nodes ++ [n]) (hti : t.inBuf = s.inBuf) (hto : t.out = s.out) :
    WithinCapacity t := by
  obtain ⟨hn, -, hwf⟩ := hs
  refine ⟨?_, hl, (memory_wf_congr htc hti hto).trans hwf⟩
  rw [htn, htc, List.length_append, List.length_singleton]
  omega

theorem leafPushed_withinCapacity {x : Byte} (hs : WithinCapacity s) (hl : s.list.length ≠ Config.listCap)
    (hcap : s.nodes.length ≠ s.cfg.nodeCap) : WithinCapacity (leafPushed x s) := by
  refine withinCapacity_grow hs hcap ?_ rfl rfl rfl rfl
  have := hs.2.1
  show (s.list ++ [s.nodes.length]).length ≤ _
  rw [List.length_append, List.length_singleton]
  omega

theorem length_eraseTwo {l : List Nat} {i j a b : Nat} (hij : i ≠ j) (hi : l[i]? = some a) (hj : l[j]? = some b) :
    (eraseTwo l i j).length + 2 = l.length :=
  (perm_eraseTwo hij hi hj).length_eq.symm

theorem mergeKeeps_withinCapacity : MergeKeeps WithinCapacity := by
  intro s t hs _ h
  obtain ⟨i, j, a, b, w, hij, hi, hj, hcap, rfl⟩ := mergeStep_eq_done h
  refine withinCapacity_grow hs hcap ?_ rfl rfl rfl rfl
  have := hs.2.1
  have := length_eraseTwo hij hi hj
  show (eraseTwo s.list i j ++ [s.nodes.length]).length ≤ _
  rw [List.length_append, List.length_singleton]
  omega

theorem rootFromList_withinCapacity (hs : WithinCapacity s) : WithinCapacity (rootFromList s) := by
  obtain hr | ⟨k, -, hr⟩ := rootFromList_cases s <;> rw [hr] <;> exact hs

theorem pushKeeps_withinCapacity : PushKeeps WithinCapacity := by
  intro b s t hs h
  by_cases hc : s.cnt = 7
  · cases hr : outRoom s 1 with
    | true =>
      rw [pushBit_of_room hc hr] at h
      cases h
      exact withinCapacity_append (bs := [_]) hs hr
    | false => simp [pushBit_of_full hc hr] at h
  · rw [pushBit_of_lt hc] at h
    cases h
    exact hs

theorem decodeKeeps_withinCapacity : DecodeKeeps WithinCapacity := by
  intro c s c' t _ hs h
  obtain ⟨n, -, ⟨-, hr, -, rfl⟩ | ⟨-, -, -, b, rfl⟩⟩ := decodeStep_cases h
  · exact withinCapacity_append (bs := [_]) hs hr
  · exact hs

theorem treeClearState_withinCapacity (hs : WithinCapacity s) : WithinCapacity (treeClearState s) :=
  ⟨Nat.zero_le _, Nat.zero_le _, hs.2.2⟩

theorem exec_withinCapacity (hs : WithinCapacity s) : AnswersIn (exec i s) i.opcode (errorsOf i) WithinCapacity := by
  cases i with
  | treeClear => exact execTreeClear_answersIn (treeClearState_withinCapacity hs)
  | leafPush x => exact execLeafPush_answersIn hs (leafPushed_withinCapacity hs)
  | merge => exact execMerge_answersIn mergeKeeps_withinCapacity (fun _ => rootFromList_withinCapacity) hs
  | build => exact execBuild_answersIn mergeKeeps_withinCapacity (fun _ => rootFromList_withinCapacity) hs
  | serialize => exact execSerialize_answersIn hs fun _ _ => withinCapacity_append hs
  | deserialize =>
    exact execDeserialize_answersIn hs (treeClearState_withinCapacity hs) fun tr _ _ hcap =>
      ⟨hcap, (by decide : 1 ≤ Config.listCap), hs.2.2⟩
  | packBit x => exact execPackBit_answersIn pushKeeps_withinCapacity hs
  | packSymbol x => exact execPackSymbol_answersIn pushKeeps_withinCapacity hs
  | packStream => exact execPackStream_answersIn pushKeeps_withinCapacity (fun _ _ _ h => h) hs
  | flush x => exact execFlush_answersIn hs fun b => withinCapacity_append (bs := [b]) hs
  | decode => exact execDecode_answersIn decodeKeeps_withinCapacity hs hs
  | emitU64 => exact execEmitU64_answersIn hs fun _ => withinCapacity_append hs
  | nop | genCodes | serLen | readBit | loadU64 | bitsFromPtr =>
    refine (exec_frame _ s).imp fun t (h : t = _) => ?_
    rw [h]
    exact hs

/-! ### BIT_IDX (44_bit_unpacker R163) -/

theorem inBounded_of_wf (hc : s.cfg.Wf) (hs : WithinCapacity s) : InBounded s :=
  ((memory_wf_iff s).1 hs.2.2).1.trans hc.2.2

/-- A bit that IN holds is at a position before 2^64, so BIT_IDX behind it is at most 2^64. -/
theorem decodeKeeps_pointerInRange : DecodeKeeps fun s => InBounded s ∧ PointerInRange s := by
  rintro c s c' t - ⟨hin, hptr⟩ h
  obtain ⟨n, -, ⟨-, -, -, rfl⟩ | ⟨-, hbit, -, b, rfl⟩⟩ := decodeStep_cases h
  · exact ⟨hin, hptr⟩
  · refine ⟨hin, ?_⟩
    simp only [InBounded, PointerInRange] at *
    omega

theorem exec_pointerInRange (hin : InBounded s) (hs : PointerInRange s) :
    AnswersIn (exec i s) i.opcode (errorsOf i) PointerInRange := by
  cases i with
  | decode =>
    exact (execDecode_answersIn decodeKeeps_pointerInRange ⟨hin, hs⟩ ⟨hin, hs⟩).imp fun _ h => h.2
  | bitsFromPtr => exact execBitsFromPtr_answersIn (Nat.mod_lt _ (by decide)).le
  | nop | treeClear | genCodes | serLen | deserialize | readBit | loadU64 =>
    refine (exec_frame _ s).imp fun t (h : t = _) => ?_
    rw [h]
    exact hs
  | leafPush | merge | build | serialize | packBit | packSymbol | packStream | flush | emitU64 =>
    refine (exec_frame _ s).imp fun t ⟨h, _⟩ => ?_
    rw [h]
    exact hs

/-! ### The error latch (60_exceptions R191) -/

theorem err_of_frameOf (h : frameOf i s t) : t.err = s.err := by
  cases i with
  | nop | treeClear | genCodes | serLen | deserialize | readBit | loadU64 | bitsFromPtr =>
    exact (congrArg State.err h).trans rfl
  | leafPush | merge | build | serialize | packBit | packSymbol | packStream | flush | decode | emitU64 =>
    exact (congrArg State.err h.1).trans rfl

/-- A command keeps the latch as it was, or latches one of its own errors with its opcode. -/
theorem exec_err (h : exec i s = .next t) : t.err = s.err ∨ ∃ e ∈ errorsOf i, t.err = some ⟨e, i.opcode⟩ := by
  obtain h | ⟨e, he, u, -, rfl⟩ := exec_frame i s t h
  · exact .inl (err_of_frameOf h)
  · exact .inr ⟨e, he, rfl⟩

theorem ioFailure_notMem_errorsOf : .ioFailure ∉ errorsOf i := by
  cases i <;> simp [errorsOf]

theorem exec_noReservedError (hs : NoReservedError s) (h : exec i s = .next t) : NoReservedError t := by
  intro l hl hio
  obtain herr | ⟨e, he, herr⟩ := exec_err h
  · exact hs l (herr.symm.trans hl) hio
  · obtain rfl : ErrLatch.mk e i.opcode = l := Option.some.inj (herr.symm.trans hl)
    obtain rfl : e = .ioFailure := hio
    exact ioFailure_notMem_errorsOf he

end Sys2Proof.Machine
end

section
/-! OBLIGATIONS. What every step and every command keeps (10_state R17, R37, R46, R49, R51, 60_exceptions R191). -/

namespace Sys2Proof.Machine

variable {s t : State}

theorem step_treeInvariant (hs : TreeInvariant s) (h : step s = .next t) : TreeInvariant t := by
  refine step_keeps (fun u hu => ?_) (treeInvariant_of_empty rfl rfl rfl) (fun i u hu => ?_) h
  · rw [hu.frame]
    exact hs
  · exact (exec_treeInvariant (s := taken s) hs).keeps (fun _ _ h => h) hu

/-- Settles O57: 10_state R51 is an invariant of the steps, a command that moves the tree growing the forest by one node
at a time or laying a whole tree out. -/
theorem stepKeepsTheTreeInvariants : Obligations.StepKeepsTheTreeInvariants :=
  fun _ _ => step_treeInvariant

theorem step_tableInvariant (hs : TreeInvariant s) (ht : TableInvariant s) (h : step s = .next t) :
    TableInvariant t := by
  refine step_keeps (fun u hu => ?_) (tableInvariant_of_invalid rfl fun _ => Vector.getElem_replicate ..)
    (fun i u hu => ?_) h
  · rw [hu.frame]
    exact ht
  · exact (exec_tableInvariant (s := taken s) hs ht).keeps (fun _ _ h => h) hu

/-- Settles O58: a command that changes the tree invalidates the table, and GEN_CODES writes the paths of the tree. -/
theorem stepKeepsTheTableCurrent : Obligations.StepKeepsTheTableCurrent :=
  fun _ _ => step_tableInvariant

theorem step_packerInvariant (hs : PackerInvariant s) (h : step s = .next t) : PackerInvariant t := by
  refine step_keeps (fun u hu => ?_) (packerInvariant_of_empty rfl) (fun i u hu => ?_) h
  · rw [hu.frame]
    exact hs
  · exact (exec_packerInvariant (s := taken s) hs).keeps (fun _ _ h => h) hu

theorem HostStep.memory_wf (h : HostStep s t) (hs : Memory.wf s = true) : Memory.wf t = true := by
  rw [memory_wf_iff, outRoom_iff] at *
  rw [h.cfg]
  refine ⟨h.inBuf.trans (max_le hs.1 (Nat.le_refl _)), fun cap hcap => ?_⟩
  exact h.out.trans (hs.2 cap hcap)

theorem step_withinCapacity (hs : WithinCapacity s) (h : step s = .next t) : WithinCapacity t := by
  refine step_keeps (fun u hu => ?_) ⟨Nat.zero_le _, Nat.zero_le _, softReset_wf _⟩ (fun i u hu => ?_) h
  · have hwf := hu.memory_wf hs.2.2
    rw [WithinCapacity, hwf, hu.frame]
    exact ⟨hs.1, hs.2.1, rfl⟩
  · exact (exec_withinCapacity (s := taken s) hs).keeps (fun _ _ h => h) hu

theorem step_noReservedError (hs : NoReservedError s) (h : step s = .next t) : NoReservedError t := by
  refine step_keeps (fun u hu => ?_) (fun l hl => (nomatch hl)) (fun i u => exec_noReservedError (s := taken s) hs) h
  intro l hl
  obtain herr | herr | ⟨op, herr⟩ := hu.err <;> rw [herr] at hl
  · exact hs l hl
  · cases hl
  · cases hl
    exact fun h => (nomatch h)

theorem step_cfg (h : step s = .next t) : t.cfg = s.cfg := by
  refine step_keeps (P := fun u => u.cfg = s.cfg) (fun u hu => hu.cfg) rfl (fun i u hu => ?_) h
  obtain ⟨-, -, -, -, -, -, -, hcfg, -, -⟩ := exec_hostKept hu
  exact hcfg

theorem step_pointerInRange (hc : s.cfg.Wf) (hw : WithinCapacity s) (hs : PointerInRange s) (h : step s = .next t) :
    PointerInRange t := by
  refine step_keeps (fun u hu => hu.bitIdx.trans (max_le hs (Nat.le_refl _))) (Nat.zero_le _) (fun i u hu => ?_) h
  exact (exec_pointerInRange (s := taken s) (inBounded_of_wf hc hw) hs).keeps (fun _ _ h => h) hu

/-- Settles O59, each invariant by itself over the three kinds of step. -/
theorem stepKeepsPackerCapacitiesAndCodes : Obligations.StepKeepsPackerCapacitiesAndCodes :=
  fun _ _ h => ⟨(step_packerInvariant · h), (step_withinCapacity · h), (step_noReservedError · h), step_cfg h,
    (step_pointerInRange · · · h)⟩

theorem step_good (hs : Good s) (h : step s = .next t) : Good t := by
  obtain ⟨hcfg, htree, htable, hpack, hcap, herr, hptr⟩ := hs
  exact ⟨step_cfg h ▸ hcfg, step_treeInvariant htree h, step_tableInvariant htree htable h, step_packerInvariant hpack h,
    step_withinCapacity hcap h, step_noReservedError herr h, step_pointerInRange hcfg hcap hptr h⟩

/-- Settles O60: a command run from a good state neither faults nor is refused. -/
theorem goodStatesNeverFault : Obligations.GoodStatesNeverFault := by
  intro s hs
  obtain ⟨t, ht, -⟩ | hr | ⟨i, hi⟩ := step_cases s
  · exact .inl ⟨t, ht, step_good hs ht⟩
  · exact .inr hr
  · cases ho : exec i (taken s) with
    | next t => exact .inl ⟨t, hi.trans ho, step_good hs (hi.trans ho)⟩
    | fault r => exact absurd ho (exec_ne_fault (s := taken s) hs.2.1)
    | refused r => exact absurd ho exec_ne_refused

/-- Settles O52 from the frames of the commands. -/
theorem commandsLeaveTheHostsState : Obligations.CommandsLeaveTheHostsState :=
  fun _ _ _ => exec_hostKept

end Sys2Proof.Machine
end

section
/-! OBLIGATIONS. The host's reads and writes of the registers (10_state R22 to R42). -/

namespace Sys2Proof.Machine

variable {s : State} {off : Nat} {r : Reg}

/-! ### Accesses of an idle core -/

/-- A read of an idle core returns the register's value, and of OUT_DATA's only it has an effect (10_state R23). -/
theorem readStep_idle (r : Reg) {v : Word} (hp : s.pending = none) (hv : regValue s r = v)
    (hr : off % 8 = 0 ∧ registerMap[off / 8]? = some r ∧ r ≠ .outData := by decide) :
    readStep off s = .next (sawOnly v s) := by
  obtain ⟨h8, hmap, hne⟩ := hr
  rw [readStep_eq h8 hmap, ← hv]
  simp [hostRead, readEffect, readValue, busy, hp, hne, sawOnly]

theorem readStep_outData (hp : s.pending = none) :
    readStep 0x80 s = .next (sawOnly (outDataWord s) (outPop s)) := by
  rw [readStep_eq (r := .outData) rfl rfl]
  simp [hostRead, readEffect, readValue, busy, hp, sawOnly, regValue]

/-- STATUS reads the same busy or idle (10_state R26, 20_memory R65). -/
theorem readStep_status (s : State) : readStep 0x10 s = .next (sawOnly (statusWord s) s) := by
  rw [readStep_eq (r := .status) rfl rfl]
  simp [hostRead, readEffect, readValue, sawOnly, regValue]

theorem writeStep_idle (r : Reg) {v : Word} {t : State} (hp : s.pending = none) (hv : writeIdle v s r = t)
    (hr : off % 8 = 0 ∧ registerMap[off / 8]? = some r := by decide) : writeStep off v s = .next t := by
  rw [writeStep_eq hr.1 hr.2, ← hv]
  simp [hostWrite, busy, hp]

/-! ### The bits of STATUS (10_state R26) -/

theorem rootIsLeaf_iff :
    rootIsLeaf s = true ↔ s.rootValid = true ∧ ∃ n, s.nodes[s.root]? = some n ∧ n.kind = .leaf := by
  unfold rootIsLeaf
  cases s.nodes[s.root]? <;> simp

theorem outNonempty_iff : outNonempty s = true ↔ s.out ≠ [] := by
  simp [outNonempty]

theorem getLsbD_append_ofBool {w : Nat} (x : BitVec w) (b : Bool) (i : Nat) :
    (x ++ BitVec.ofBool b).getLsbD i = if i = 0 then b else x.getLsbD (i - 1) := by
  rw [BitVec.getLsbD_append]
  cases i <;> simp

/-- The flags of STATUS, bit 0 first (10_state R26). -/
def statusFlags (s : State) : List Bool :=
  [busy s, errorLatched s, s.hostDrop, s.rootValid, rootIsLeaf s, s.ctValid, outNonempty s, inFull s]

theorem getLsbD_statusWord (s : State) (i : Nat) : (statusWord s).getLsbD i = (statusFlags s).getD i false := by
  show (0#56 ++ BitVec.ofBool (inFull s) ++ BitVec.ofBool (outNonempty s) ++ BitVec.ofBool s.ctValid
    ++ BitVec.ofBool (rootIsLeaf s) ++ BitVec.ofBool s.rootValid ++ BitVec.ofBool s.hostDrop
    ++ BitVec.ofBool (errorLatched s) ++ BitVec.ofBool (busy s)).getLsbD i = _
  simp only [getLsbD_append_ofBool]
  rcases i with _ | _ | _ | _ | _ | _ | _ | _ | i <;> simp [statusFlags]

/-- Settles O48: STATUS is its eight flags. -/
theorem statusBitsReadAsNamed : Obligations.StatusBitsReadAsNamed := by
  intro s
  refine ⟨statusWord s, readStep_status s, ?_⟩
  simp only [getLsbD_statusWord]
  refine ⟨rfl, rfl, rfl, rfl, rootIsLeaf_iff, rfl, outNonempty_iff, ?_, fun i hi => ?_⟩
  · simp [statusFlags, inFull]
  · exact List.getD_eq_default _ _ hi

/-! ### Registers put together from fields -/

theorem toNat_append_eq_add {w m : Nat} (x : BitVec w) (y : BitVec m) :
    (x ++ y).toNat = 2 ^ m * x.toNat + y.toNat := by
  rw [BitVec.toNat_append, ← Nat.shiftLeft_add_eq_or_of_lt y.isLt, Nat.shiftLeft_eq, Nat.mul_comm]

theorem eq_ofNat_of_toNat {w n : Nat} {x : BitVec w} (h : x.toNat = n) : x = BitVec.ofNat w n := by
  rw [← h, BitVec.ofNat_toNat, BitVec.setWidth_eq]

theorem packStateWord_eq (s : State) : packStateWord s = BitVec.ofNat 64 (256 * s.cnt.val + s.acc.toNat) := by
  rw [packStateWord]
  refine eq_ofNat_of_toNat (w := 52 + 4 + 8) ?_
  rw [toNat_append_eq_add, toNat_append_eq_add, BitVec.toNat_ofNat, BitVec.toNat_ofNat]
  omega

theorem errCodeWord_of_err {l : ErrLatch} (h : s.err = some l) :
    errCodeWord s = BitVec.ofNat 64 (256 * l.op.toNat + (errorNumber l.code).toNat) := by
  rw [errCodeWord, h]
  exact eq_ofNat_of_toNat (commandWord_toNat (errorNumber l.code) l.op)

theorem nodeInfoWord_eq (n : Node) :
    nodeInfoWord n = BitVec.ofNat 64 (1 + (if n.kind = .internal then 2 else 0) + 256 * n.sym.toNat) := by
  rw [nodeInfoWord]
  refine eq_ofNat_of_toNat (w := 48 + 8 + 6 + 1 + 1) ?_
  simp only [toNat_append_eq_add, BitVec.toNat_ofNat, BitVec.toNat_ofBool]
  split <;> simp [*] <;> omega

theorem outDataWord_cons {b : Byte} {rest : List Byte} (h : s.out = b :: rest) :
    outDataWord s = BitVec.ofNat 64 (256 + b.toNat) := by
  rw [outDataWord, h]
  refine eq_ofNat_of_toNat (w := 55 + 1 + 8) ?_
  rw [toNat_append_eq_add, toNat_append_eq_add]
  rfl

theorem regWord_toNat {n : Nat} (h : n < 2 ^ 64) : (regWord n).toNat = n := by
  rw [regWord, if_pos h, BitVec.toNat_ofNat, Nat.mod_eq_of_lt h]

/-! ### CODE_SEL and the code window (10_state R42, 20_memory R60) -/

theorem codeSelSym_eq (s : State) : codeSelSym s = BitVec.ofNat 8 s.codeSel.toNat := rfl

theorem codeSelWord_eq (s : State) : codeSelWord s = s.codeSel.toNat / 256 := by
  have := s.codeSel.isLt
  rw [codeSelWord, BitVec.extractLsb'_toNat, Nat.shiftRight_eq_div_pow]
  omega

/-- A number built bit by bit, most significant first, holds the bits it was built from. -/
theorem testBit_foldl_bits (f : Nat → Bool) {n i : Nat} (h : i < n) :
    ((List.range n).foldl (fun v k => 2 * v + (f k).toNat) 0).testBit (n - 1 - i) = f i := by
  induction n with
  | zero => omega
  | succ n ih =>
    rw [List.range_succ, List.foldl_append, List.foldl_cons, List.foldl_nil]
    have hb := Bool.toNat_lt (f n)
    obtain rfl | hi := Nat.eq_or_lt_of_le (Nat.le_of_lt_succ h)
    · rw [Nat.add_sub_cancel, Nat.sub_self, Nat.testBit_zero, Nat.mul_add_mod]
      cases f i <;> rfl
    · rw [show n + 1 - 1 - i = n - 1 - i + 1 by omega, Nat.testBit_succ, ← ih hi]
      congr 1
      omega

theorem getLsbD_codeBitsWord (bits : Code) (w : Nat) {i : Nat} (h : i < 64) :
    (codeBitsWord bits w).getLsbD (63 - i) = bits.getD (64 * w + i) false := by
  rw [codeBitsWord, BitVec.getLsbD_ofNat, testBit_foldl_bits (fun k => bits.getD (64 * w + k) false) h]
  simp [show 63 - i < 64 by omega]

theorem codeInfoWord_eq {bits : Code} (hc : codeOf s (codeSelSym s) = some bits) (hl : bits.length ≤ 255) :
    codeInfoWord s = BitVec.ofNat 64 (1 + 256 * bits.length) := by
  rw [codeInfoWord, hc]
  refine eq_ofNat_of_toNat ((commandWord_toNat 1#8 (BitVec.ofNat 8 bits.length)).trans ?_)
  rw [BitVec.toNat_ofNat, BitVec.toNat_ofNat]
  omega

/-! ### The node and list windows (10_state R40, R41) -/

theorem nodeWindow_of_some {n : Node} (h : s.nodes[s.nodeSel.toNat]? = some n) (f : Node → Word) :
    nodeWindow s f = f n := by
  rw [nodeWindow, h]

theorem nodeWindow_of_none (h : s.nodes.length ≤ s.nodeSel.toNat) (f : Node → Word) : nodeWindow s f = 0#64 := by
  rw [nodeWindow, List.getElem?_eq_none h]

/-- Settles O49: the windows by the entry they select. -/
theorem windowsShowTheSelectedEntry : Obligations.WindowsShowTheSelectedEntry := by
  intro s hp
  refine ⟨fun n hn => ?_, fun hn => ?_, fun k hk => ?_, fun hl => ?_, fun hc => ?_, fun bits hc hlen => ?_⟩
  · exact ⟨readStep_idle .nodeInfo hp ((nodeWindow_of_some hn _).trans (nodeInfoWord_eq n)),
      readStep_idle .nodeLeft hp (nodeWindow_of_some hn _), readStep_idle .nodeRight hp (nodeWindow_of_some hn _),
      readStep_idle .nodeWeight hp (nodeWindow_of_some hn _)⟩
  · simp only [List.forall_mem_cons]
    exact ⟨readStep_idle .nodeInfo hp (nodeWindow_of_none hn _), readStep_idle .nodeLeft hp (nodeWindow_of_none hn _),
      readStep_idle .nodeRight hp (nodeWindow_of_none hn _), readStep_idle .nodeWeight hp (nodeWindow_of_none hn _),
      fun _ h => (nomatch h)⟩
  · exact readStep_idle .listEntry hp (by simp [regValue, listEntryWord, hk])
  · exact readStep_idle .listEntry hp (by simp [regValue, listEntryWord, List.getElem?_eq_none hl])
  · rw [← codeSelSym_eq] at hc
    exact ⟨readStep_idle .codeInfo hp (by simp [regValue, codeInfoWord, hc]),
      readStep_idle .codeWord hp (by simp [regValue, codeWordWord, hc])⟩
  · rw [← codeSelSym_eq] at hc
    refine ⟨readStep_idle .codeInfo hp (codeInfoWord_eq hc hlen), codeBitsWord bits (codeSelWord s), ?_, fun i hi => ?_⟩
    · exact readStep_idle .codeWord hp (by simp [regValue, codeWordWord, hc])
    · rw [getLsbD_codeBitsWord bits _ hi, codeSelWord_eq]

/-! ### Plain reads and writes -/

theorem codeSel_zext_eq (s : State) : regValue s .codeSel = BitVec.ofNat 64 s.codeSel.toNat := by
  refine eq_ofNat_of_toNat ((toNat_append_eq_add 0#54 s.codeSel).trans ?_)
  rw [BitVec.toNat_ofNat, Nat.zero_mod, Nat.mul_zero, Nat.zero_add]

/-- Settles O50: a plain read is the register's value. -/
theorem idleReadsReturnTheRegister : Obligations.IdleReadsReturnTheRegister := by
  refine ⟨fun n => regWord_toNat, ⟨rfl, rfl, rfl, rfl, rfl, rfl, rfl, rfl, rfl, rfl, rfl, rfl⟩, fun s hp => ?_⟩
  refine ⟨readStep_idle .id hp rfl, readStep_idle .arg hp rfl, readStep_idle .result hp rfl, readStep_idle .root hp rfl,
    readStep_idle .nodeCount hp rfl, readStep_idle .listLen hp rfl, readStep_idle .rdPtr hp rfl,
    readStep_idle .inLen hp rfl, readStep_idle .bitIdx hp rfl, readStep_idle .cursor hp rfl,
    readStep_idle .packState hp (packStateWord_eq s), readStep_idle .outLevel hp rfl, readStep_idle .nodeSel hp rfl,
    readStep_idle .listSel hp rfl, readStep_idle .codeSel hp (codeSel_zext_eq s), fun he => ?_, fun l hl => ?_, ?_⟩
  · exact readStep_idle .errCode hp (by simp [regValue, errCodeWord, he])
  · exact readStep_idle .errCode hp (errCodeWord_of_err hl)
  · simp only [List.forall_mem_cons]
    exact ⟨readStep_idle .ctrl hp rfl, readStep_idle .cmd hp rfl, readStep_idle .inData hp rfl,
      readStep_idle .reserved hp rfl, readStep_idle .reserved hp rfl, readStep_idle .reserved hp rfl,
      readStep_idle .reserved hp rfl, fun _ h => (nomatch h)⟩

/-- The registers that a write can change something through: WO and RW (10_state R22, R23). -/
def writableRegs : List Reg := [.ctrl, .cmd, .arg, .rdPtr, .inData, .bitIdx, .nodeSel, .listSel, .codeSel]

theorem writeIdle_of_not_writable {r : Reg} (h : r ∉ writableRegs) (v : Word) (s : State) : writeIdle v s r = s := by
  cases r with
  | ctrl | cmd | arg | rdPtr | inData | bitIdx | nodeSel | listSel | codeSel => exact absurd (by decide) h
  | _ => rfl

/-- The offsets of the RO registers and the reserved offsets (10_state R22). -/
theorem registerMap_not_writable :
    ∀ off ∈ [0x00, 0x10, 0x18, 0x30, 0x38, 0x40, 0x48, 0x58, 0x70, 0x78, 0x80, 0x88, 0x98, 0xA0, 0xA8, 0xB0, 0xC0, 0xD0,
      0xD8, 0xE0, 0xE8, 0xF0, 0xF8], off % 8 = 0 ∧ (registerMap[off / 8]?).any (· ∉ writableRegs) = true := by
  decide

/-- Settles O45: a write reaches the one register it names. -/
theorem idleWritesReachTheirRegister : Obligations.IdleWritesReachTheirRegister := by
  intro s v hp
  refine ⟨⟨writeStep_idle .cmd hp rfl, ?_⟩, writeStep_idle .arg hp rfl, writeStep_idle .rdPtr hp rfl,
    writeStep_idle .bitIdx hp rfl, writeStep_idle .nodeSel hp rfl, writeStep_idle .listSel hp rfl,
    writeStep_idle .codeSel hp rfl, fun off hoff => ?_⟩
  · rw [getLsbD_statusWord]
    rfl
  · obtain ⟨h8, hmap⟩ := registerMap_not_writable off hoff
    obtain ⟨r, hr, hro⟩ := (Option.any_eq_true _ _).1 hmap
    exact writeStep_idle r hp (writeIdle_of_not_writable (of_decide_eq_true hro) v s) ⟨h8, hr⟩

/-- Settles O46: IN_DATA and OUT_DATA at the full and the empty end of their streams. -/
theorem streamPortsAppendAndPop : Obligations.StreamPortsAppendAndPop := by
  intro s v hp
  refine ⟨fun h => ?_, fun h => ?_, readStep_idle .inData hp rfl, fun b rest h => ?_, fun h => ?_⟩
  · exact writeStep_idle .inData hp (if_pos h)
  · exact writeStep_idle .inData hp (if_neg (Nat.not_lt.2 h))
  · rw [readStep_outData hp, outDataWord_cons h, outPop, h]
    rfl
  · have hpop : outPop s = s := by rw [outPop, h, List.tail_nil, ← h]
    rw [readStep_outData hp, hpop, outDataWord, h]

/-- Settles O47: SOFT_RESET alone, or each of the other three bits. -/
theorem controlBitsActIndependently : Obligations.ControlBitsActIndependently :=
  fun s _ hp => ⟨fun h => writeStep_idle .ctrl hp (if_pos h),
    fun h => writeStep_idle .ctrl hp (writeCtrl_of_no_reset h s)⟩

end Sys2Proof.Machine
end

section
/-! OBLIGATIONS. Which host accesses the bus admits, and what they do while a command is pending (20_memory R57, R65). -/

namespace Sys2Proof.Machine

variable {s : State} {width addr off : Nat} {v : Word} {r : Reg} {ts : List Turn}

/-! ### The turn of an access (20_memory R57) -/

theorem step_read (h : regAt s.cfg width addr = some r) :
    step { s with turns := .read width addr :: ts } = .next (hostRead r { s with turns := ts }) := by
  simp only [step, nextMove, accessMove, h]

theorem step_write (h : regAt s.cfg width addr = some r) :
    step { s with turns := .write width addr v :: ts } = .next (hostWrite r v { s with turns := ts }) := by
  simp only [step, nextMove, accessMove, h]

theorem step_read_refused (h : regAt s.cfg width addr = none) :
    step { s with turns := .read width addr :: ts } = .refused .accessNotAdmitted := by
  simp only [step, nextMove, accessMove, h]

theorem step_write_refused (h : regAt s.cfg width addr = none) :
    step { s with turns := .write width addr v :: ts } = .refused .accessNotAdmitted := by
  simp only [step, nextMove, accessMove, h]

/-! ### An access leaves the turns that are still to be taken -/

@[simp] theorem hostRead_turns (r : Reg) (s : State) : (hostRead r s).turns = s.turns := by
  simp only [hostRead, readEffect]
  split
  · exact outPop_turns s
  · rfl

@[simp] theorem writeCtrl_turns (v : Word) (s : State) : (writeCtrl v s).turns = s.turns := by
  cases h : v.getLsbD 0 with
  | true => rw [writeCtrl, if_pos h, softReset_turns]
  | false => rw [writeCtrl_of_no_reset h]

@[simp] theorem writeIdle_turns (v : Word) (s : State) (r : Reg) : (writeIdle v s r).turns = s.turns := by
  cases r with
  | ctrl => exact writeCtrl_turns v s
  | inData =>
    simp only [writeIdle, inAppend]
    split <;> rfl
  | _ => rfl

@[simp] theorem hostWrite_turns (r : Reg) (v : Word) (s : State) : (hostWrite r v s).turns = s.turns := by
  unfold hostWrite
  split
  · split
    · exact softReset_turns s
    · rfl
  · exact writeIdle_turns v s r

/-- Settles O44: an access has a step exactly where `regAt` names a register. -/
theorem onlyAlignedRegisterAccessesHaveAStep : Obligations.OnlyAlignedRegisterAccessesHaveAStep := by
  intro s width addr v ts admitted
  refine ⟨fun h => ?_, fun h => ?_⟩
  · have hnone : regAt s.cfg width addr = none := regAt_eq_none.2 h
    exact ⟨step_read_refused hnone, step_write_refused hnone⟩
  · obtain ⟨r, hr⟩ := Option.ne_none_iff_exists'.1 fun hnone => regAt_eq_none.1 hnone h
    exact ⟨⟨_, step_read hr, hostRead_turns ..⟩, ⟨_, step_write hr, hostWrite_turns ..⟩⟩

/-! ### Accesses of a busy core (20_memory R65) -/

theorem hostRead_busy (hb : busy s = true) :
    hostRead r s = sawOnly (if r = .status then statusWord s else 0#64) s := by
  simp [hostRead, readEffect, readValue, hb, sawOnly]

theorem hostWrite_busy (hb : busy s = true) :
    hostWrite r v s = if r = .ctrl ∧ v.getLsbD 0 = true then softReset s else { s with hostDrop := true } :=
  if_pos hb

/-- The two registers that answer while the core is busy stand at offsets 0x08 and 0x10 only (10_state R22). -/
theorem registerMap_ctrl_status :
    ∀ i : Fin registerMap.length,
      (registerMap[i] = .ctrl ↔ i.val = 1) ∧ (registerMap[i] = .status ↔ i.val = 2) := by
  decide

/-- Every admitted offset names a register, CTRL at 0x08 and STATUS at 0x10 only (10_state R22). -/
theorem register_at_offset (h8 : off % 8 = 0) (hle : off ≤ 0xF8) :
    ∃ r, registerMap[off / 8]? = some r ∧ (r = .ctrl ↔ off = 0x08) ∧ (r = .status ↔ off = 0x10) := by
  have hlt : off / 8 < registerMap.length := by
    show off / 8 < 32
    omega
  obtain ⟨hctrl, hstatus⟩ := registerMap_ctrl_status ⟨off / 8, hlt⟩
  refine ⟨registerMap[off / 8], List.getElem?_eq_getElem hlt, hctrl.trans ?_, hstatus.trans ?_⟩
  · show off / 8 = 1 ↔ off = 0x08
    omega
  · show off / 8 = 2 ↔ off = 0x10
    omega

/-- Settles O43: a busy core answers STATUS and obeys SOFT_RESET, and every other write only sets HOST_DROP. -/
theorem busyCoreIgnoresTheHost : Obligations.BusyCoreIgnoresTheHost := by
  intro s w v off hw h8 hle
  have hb : busy s = true := Option.isSome_of_mem hw
  obtain ⟨r, hr, hctrl, hstatus⟩ := register_at_offset h8 hle
  rw [readStep_eq h8 hr, writeStep_eq h8 hr, hostRead_busy hb, hostWrite_busy hb]
  simp only [hctrl, hstatus]
  exact ⟨fun h => by rw [if_pos h], fun h => by rw [if_neg h],
    fun h hv => by rw [if_pos ⟨h, hv⟩, softReset], fun h => by rw [if_neg h]⟩

end Sys2Proof.Machine
end

section
/-! SUPPORT. The opcode map as a list of commands, and the checks of the decoder on the fields of a word (30_encoding R76,
R78, R79). -/

namespace Sys2Proof

variable {op imm : Byte} {w : Word} {i : Instr}

/-! ### The opcode map (30_encoding R79) -/

/-- The 18 commands, in the order of the opcode map, those that use IMM with the operand `imm`. -/
def commandsWith (imm : Byte) : List Instr :=
  [.nop, .treeClear, .leafPush imm, .merge, .build, .genCodes, .serLen, .serialize, .deserialize, .packBit imm,
    .packSymbol imm, .packStream, .flush imm, .readBit, .decode, .emitU64, .loadU64, .bitsFromPtr]

theorem find?_opcode_cons (op : Byte) (a : Instr) (l : List Instr) :
    (a :: l).find? (·.opcode = op) = if op = a.opcode then some a else l.find? (·.opcode = op) := by
  by_cases h : op = a.opcode
  · rw [if_pos h, List.find?_cons_of_pos (by simpa using h.symm)]
  · rw [if_neg h, List.find?_cons_of_neg (by simpa using Ne.symm h)]

/-- The chain of tests of `instrOf` is the search for the command whose opcode is OP. -/
theorem instrOf_eq_find? (op imm : Byte) : instrOf op imm = (commandsWith imm).find? (·.opcode = op) := by
  simp only [commandsWith, find?_opcode_cons]
  rfl

theorem instrOf_eq_none : instrOf op imm = none ↔ op ∉ (commandsWith imm).map Instr.opcode := by
  simp [instrOf_eq_find?]

theorem instrOf_opcode_imm (i : Instr) : instrOf i.opcode i.imm = some i := by
  cases i <;> rfl

theorem opcode_of_instrOf (h : instrOf op imm = some i) : i.opcode = op := by
  rw [instrOf_eq_find?] at h
  simpa using List.find?_some h

/-- The IMM of a command of the map is the word's, or 0 where the opcode does not use IMM (30_encoding R76). -/
theorem imm_of_instrOf (h : instrOf op imm = some i) : i.imm = if usesImm i.opcode then imm else 0#8 := by
  rw [instrOf_eq_find?] at h
  have himm : ∀ j ∈ commandsWith imm, j.imm = if usesImm j.opcode then imm else 0#8 := List.map_inj_left.1 rfl
  exact himm i (List.mem_of_find?_eq_some h)

/-! ### The four checks (30_encoding R78) -/

/-- FLUSH with IMM above 1 is the one term of Instr that no legal word stands for (30_encoding R76). -/
theorem wellFormed_iff : i.wellFormed = true ↔ ¬ (i.opcode = Opcode.flush ∧ 1#8 < i.imm) := by
  cases i with
  | flush force => simp [Instr.wellFormed, Instr.opcode, Instr.imm]
  | _ => exact iff_of_true rfl fun h => absurd h.1 (of_decide_eq_false rfl)

theorem imm_of_not_usesImm (h : usesImm i.opcode = false) : i.imm = 0#8 := by
  cases i with
  | leafPush | packBit | packSymbol | flush => exact nomatch h
  | _ => rfl

/-- The words that fail one of the four checks, which raise ILLEGAL_COMMAND. -/
def IllegalWord (w : Word) : Prop :=
  rsvOf w ≠ 0#48 ∨ instrOf (opOf w) (immOf w) = none ∨ (opOf w = Opcode.flush ∧ 1#8 < immOf w) ∨
    (usesImm (opOf w) = false ∧ immOf w ≠ 0#8)

theorem decodeWord_eq_ok :
    decodeWord w = .ok i ↔ ¬ IllegalWord w ∧ instrOf (opOf w) (immOf w) = some i := by
  unfold decodeWord IllegalWord
  by_cases hrsv : rsvOf w = 0#48
  · rw [if_neg (not_not.2 hrsv)]
    cases hi : instrOf (opOf w) (immOf w) with
    | none => simp
    | some j =>
      dsimp only
      split_ifs with hflush hunused
      · simp [hflush]
      · simp [hunused]
      · simp [hrsv, hflush, hunused]
  · simp [hrsv]

theorem decodeWord_legal (h : ¬ IllegalWord w) : ∃ i, decodeWord w = .ok i := by
  obtain ⟨i, hi⟩ := Option.ne_none_iff_exists'.1 fun hnone => h (.inr (.inl hnone))
  exact ⟨i, decodeWord_eq_ok.2 ⟨h, hi⟩⟩

theorem decodeWord_illegal (h : IllegalWord w) : ∃ e, decodeWord w = .error e := by
  cases hd : decodeWord w with
  | ok i => exact absurd h (decodeWord_eq_ok.1 hd).1
  | error e => exact ⟨e, rfl⟩

/-! ### The checks on the fields as numbers -/

/-- The OP byte that the latch records (30_encoding R78). -/
theorem ofNat_toNat_mod (w : Word) : BitVec.ofNat 8 (w.toNat % 256) = opOf w := by
  rw [← opOf_toNat, BitVec.ofNat_toNat, BitVec.setWidth_eq]

theorem instrOf_eq_none_iff_toNat : instrOf op imm = none ↔ op.toNat ∉
    [0x00, 0x01, 0x10, 0x11, 0x12, 0x20, 0x30, 0x31, 0x32, 0x40, 0x41, 0x42, 0x43, 0x50, 0x51, 0x60, 0x61, 0x62] := by
  rw [instrOf_eq_none, ← List.mem_map_of_injective BitVec.toNat_injective]
  rfl

theorem usesImm_eq_false : usesImm op = false ↔ op.toNat ∉ [0x10, 0x41, 0x40, 0x43] := by
  simp [usesImm, ← BitVec.toNat_inj, Opcode.leafPush, Opcode.packSymbol, Opcode.packBit, Opcode.flush, and_assoc]

end Sys2Proof
end

section
/-! OBLIGATIONS. Commands and legal words match one to one, and the decode checks of a core step (30_encoding R74 to R79,
60_exceptions R193). -/

namespace Sys2Proof.Machine

variable {s : State} {w : Word} {i : Instr}

/-! ### Commands and their words -/

/-- The word of a well-formed command passes the four checks. -/
theorem encode_legal (h : i.wellFormed = true) : ¬ IllegalWord (encode i) := by
  have hmap : instrOf i.opcode i.imm = some i := instrOf_opcode_imm i
  simpa [IllegalWord, encode, hmap, wellFormed_iff.1 h] using imm_of_not_usesImm

theorem decodeWord_encode (h : i.wellFormed = true) : decodeWord (encode i) = .ok i :=
  decodeWord_eq_ok.2 ⟨encode_legal h, by rw [encode, opOf_commandWord, immOf_commandWord, instrOf_opcode_imm]⟩

/-- The fields of a word that decodes: RSV is 0, and OP and IMM are those of the command. -/
theorem fields_of_decodeWord (h : decodeWord w = .ok i) :
    rsvOf w = 0#48 ∧ i.opcode = opOf w ∧ i.imm = immOf w := by
  obtain ⟨hlegal, hi⟩ := decodeWord_eq_ok.1 h
  simp only [IllegalWord, not_or, not_and, not_not] at hlegal
  obtain ⟨hrsv, -, -, hunused⟩ := hlegal
  have hop : i.opcode = opOf w := opcode_of_instrOf hi
  refine ⟨hrsv, hop, ?_⟩
  rw [imm_of_instrOf hi, hop]
  split
  · rfl
  · next hu => exact (hunused (eq_false_of_ne_true hu)).symm

theorem wellFormed_of_decodeWord (h : decodeWord w = .ok i) : i.wellFormed = true := by
  obtain ⟨-, hop, himm⟩ := fields_of_decodeWord h
  obtain ⟨hlegal, -⟩ := decodeWord_eq_ok.1 h
  rw [wellFormed_iff, hop, himm]
  exact fun hflush => hlegal (.inr (.inr (.inl hflush)))

theorem encode_of_decodeWord (h : decodeWord w = .ok i) : encode i = w := by
  obtain ⟨hrsv, hop, himm⟩ := fields_of_decodeWord h
  rw [encode, hop, himm, commandWord_fields hrsv]

/-- Settles O2: encode and decode undo each other on the well-formed commands and the legal words. -/
theorem commandsAndLegalWordsMatch : Obligations.CommandsAndLegalWordsMatch :=
  ⟨fun _ h => decodeWord_encode h, fun _ _ h => ⟨encode_of_decodeWord h, wellFormed_of_decodeWord h⟩⟩

/-- Settles O1: the decoder evaluated on the thirteen words. -/
theorem sampleWordsDecode : Obligations.SampleWordsDecode := by
  unfold Obligations.SampleWordsDecode
  decide

/-! ### The core's turn with a word pending and no error latched (60_exceptions R193) -/

theorem step_of_decodeWord_ok (hc : CoreNext s) (hp : s.pending = some w) (he : s.err = none)
    (hd : decodeWord w = .ok i) : step s = exec i (taken s) := by
  simp [step, nextMove_core hc, coreMove, hp, errorLatched, he, hd, taken]

theorem step_of_decodeWord_error {e : DecodeError} (hc : CoreNext s) (hp : s.pending = some w) (he : s.err = none)
    (hd : decodeWord w = .error e) : step s = .next (raiseError .illegalCommand (opOf w) (taken s)) := by
  simp [step, nextMove_core hc, coreMove, hp, errorLatched, he, hd, taken]

/-- Settles O3: an illegal word is refused by the decoder, and a legal one runs the command of its fields. -/
theorem decodeChecksOfACoreStep : Obligations.DecodeChecksOfACoreStep := by
  intro s w hc hp he op imm illegal
  have hillegal : illegal ↔ IllegalWord w := by
    simp only [IllegalWord, ne_eq, instrOf_eq_none_iff_toNat, usesImm_eq_false, ← BitVec.toNat_inj, BitVec.lt_def,
      rsvOf_toNat, opOf_toNat, immOf_toNat]
    rfl
  constructor
  · intro h
    obtain ⟨e, hd⟩ := decodeWord_illegal (hillegal.1 h)
    rw [step_of_decodeWord_error hc hp he hd, ← ofNat_toNat_mod w]
    rfl
  · intro h
    obtain ⟨i, hd⟩ := decodeWord_legal (mt hillegal.2 h)
    obtain ⟨-, hop, himm⟩ := fields_of_decodeWord hd
    exact ⟨i, by rw [hop, opOf_toNat], by rw [himm, immOf_toNat], wellFormed_of_decodeWord hd,
      step_of_decodeWord_ok hc hp he hd⟩

end Sys2Proof.Machine
end

section
/-! OBLIGATIONS. Select2 (40_tree_builder R100): which two positions it answers, and that no others answer its rule. -/

namespace Sys2Proof.Machine

variable {ws : List Nat} {p : Nat → Prop} {i j : Nat}

/-- Of the positions of `ws` that meet `p`, `i` is the lowest one of the least weight (40_tree_builder R100). -/
def LightestAt (ws : List Nat) (p : Nat → Prop) (i : Nat) : Prop :=
  p i ∧ ∃ w, ws[i]? = some w ∧ ∀ j v, p j → ws[j]? = some v → w ≤ v ∧ (v = w → i ≤ j)

theorem LightestAt.unique (hi : LightestAt ws p i) (hj : LightestAt ws p j) : i = j := by
  obtain ⟨hpi, w, hw, hleast⟩ := hi
  obtain ⟨hpj, v, hv, hleast'⟩ := hj
  obtain ⟨hwv, hij⟩ := hleast j v hpj hv
  obtain ⟨hvw, hji⟩ := hleast' i w hpi hw
  have heq : w = v := Nat.le_antisymm hwv hvw
  exact Nat.le_antisymm (hij heq.symm) (hji heq)

theorem LightestAt.getD (h : LightestAt ws p i) (j : Nat) (hj : j < ws.length) (hp : p j) :
    ws.getD i 0 ≤ ws[j] ∧ (ws[j] = ws.getD i 0 → i ≤ j) := by
  obtain ⟨-, w, hw, hleast⟩ := h
  rw [List.getD_eq_getElem?_getD, hw]
  exact hleast j _ hp (List.getElem?_eq_getElem hj)

theorem leastWeight_le {w : Nat} (h : w ∈ ws) : leastWeight ws ≤ w := by
  fun_induction leastWeight ws with
  | case1 => exact nomatch h
  | case2 v => exact (List.mem_singleton.1 h).ge
  | case3 v ws _ ih =>
    obtain rfl | h := List.mem_cons.1 h
    · exact Nat.min_le_left ..
    · exact (Nat.min_le_right ..).trans (ih h)

theorem firstLeast_lightestAt (h : ws ≠ []) : LightestAt ws (fun _ => True) (firstLeast ws) := by
  have hlt : firstLeast ws < ws.length := firstLeast_lt h
  have hleast : ws[firstLeast ws] = leastWeight ws :=
    eq_of_beq (List.findIdx_getElem (p := (· == leastWeight ws)) (w := hlt))
  refine ⟨trivial, leastWeight ws, by rw [List.getElem?_eq_getElem hlt, hleast], fun j v _ hv => ?_⟩
  obtain ⟨hj, rfl⟩ := List.getElem?_eq_some_iff.1 hv
  refine ⟨leastWeight_le (List.getElem_mem hj), fun heq => Nat.le_of_not_lt fun hji => ?_⟩
  exact ne_of_beq_false (List.not_of_lt_findIdx hji) heq

/-- The lightest position behind a removed one, counted in the list it was removed from. -/
theorem lightestAt_of_eraseIdx (h : LightestAt (ws.eraseIdx i) (fun _ => True) j) :
    LightestAt ws (· ≠ i) (if j < i then j else j + 1) := by
  obtain ⟨-, w, hw, hleast⟩ := h
  refine ⟨by split <;> omega, w, ?_, fun k v hk hv => ?_⟩
  · rw [List.getElem?_eraseIdx] at hw
    split at hw
    · rwa [if_pos ‹_›]
    · rwa [if_neg ‹_›]
  · obtain hki | hki := Nat.lt_or_gt_of_ne hk
    · obtain ⟨hle, hpos⟩ := hleast k v trivial (by rwa [List.getElem?_eraseIdx_of_lt hki])
      refine ⟨hle, fun heq => ?_⟩
      have := hpos heq
      split <;> omega
    · have hat : (ws.eraseIdx i)[k - 1]? = some v := by
        rwa [List.getElem?_eraseIdx_of_ge (by omega), Nat.sub_add_cancel (by omega)]
      obtain ⟨hle, hpos⟩ := hleast (k - 1) v trivial hat
      refine ⟨hle, fun heq => ?_⟩
      have := hpos heq
      split <;> omega

/-- Select2 takes the lightest position, and the lightest of the others. -/
theorem select2_lightestAt (h : 2 ≤ ws.length) :
    LightestAt ws (fun _ => True) (select2 ws).1 ∧ LightestAt ws (· ≠ (select2 ws).1) (select2 ws).2 := by
  have hne : ws ≠ [] := List.ne_nil_of_length_pos (by omega)
  have hlen := List.length_eraseIdx_of_lt (firstLeast_lt hne)
  have herase : ws.eraseIdx (firstLeast ws) ≠ [] := List.ne_nil_of_length_pos (by omega)
  exact ⟨firstLeast_lightestAt hne, lightestAt_of_eraseIdx (firstLeast_lightestAt herase)⟩

/-- The rule of R100 names one pair of positions. -/
theorem select2_eq (h : 2 ≤ ws.length) (hi : LightestAt ws (fun _ => True) i) (hj : LightestAt ws (· ≠ i) j) :
    select2 ws = (i, j) := by
  obtain ⟨hfst, hsnd⟩ := select2_lightestAt h
  obtain rfl := hi.unique hfst
  obtain rfl := hj.unique hsnd
  rfl

/-- Settles O12: both positions are the lightest of those they are chosen from. -/
theorem selectTakesTheTwoLightestInListOrder : Obligations.SelectTakesTheTwoLightestInListOrder := by
  intro ws h i1 i2
  obtain ⟨hlt1, hlt2⟩ := select2_lt h
  obtain ⟨hfst, hsnd⟩ := select2_lightestAt h
  exact ⟨hlt1, hlt2, (select2_ne ws).symm, fun j hj => hfst.getD j hj trivial, fun j hj hne => hsnd.getD j hj hne⟩

end Sys2Proof.Machine
end

section
/-! SUPPORT. A round of the tree builder, said once: the weights of a list, the two entries R100 selects, and what
MergeStep comes to (40_tree_builder R100, R102). -/

namespace Sys2Proof.Machine

variable {nodes : List Node} {n : Node} {l ws : List Nat} {i j k a b : Nat} {s t : State}

/-! ### The weights of a list -/

/-- The weight of entry `k`, 0 where it is not allocated. -/
def weightAt (nodes : List Node) (k : Nat) : Word := (nodes[k]?.map Node.weight).getD 0#64

theorem weightAt_of_getElem? (h : nodes[k]? = some n) : weightAt nodes k = n.weight := by
  rw [weightAt, h]
  rfl

/-- The weights of a list of entries, as numbers. -/
def listWeights (nodes : List Node) (l : List Nat) : List Nat := l.map fun k => (weightAt nodes k).toNat

@[simp] theorem listWeights_length (nodes : List Node) (l : List Nat) : (listWeights nodes l).length = l.length :=
  List.length_map _

theorem listWeights_getElem? (h : l[i]? = some a) :
    (listWeights nodes l)[i]? = some (weightAt nodes a).toNat := by
  rw [listWeights, List.getElem?_map, h, Option.map_some]

/-- A list has weights exactly where its entries are allocated. -/
theorem weightsOf_eq_some :
    weightsOf nodes l = some ws ↔ (∀ k ∈ l, k < nodes.length) ∧ ws = listWeights nodes l := by
  induction l generalizing ws with
  | nil => simp [weightsOf, listWeights, eq_comm]
  | cons k l ih =>
    simp only [listWeights, List.forall_mem_cons, List.map_cons] at ih ⊢
    unfold weightsOf
    constructor
    · intro h
      split at h
      · rename_i n vs hn hvs
        obtain ⟨hall, rfl⟩ := ih.1 hvs
        exact ⟨⟨(List.getElem?_eq_some_iff.1 hn).1, hall⟩, by rw [weightAt_of_getElem? hn, Option.some.inj h]⟩
      · cases h
    · rintro ⟨⟨hk, hall⟩, rfl⟩
      rw [ih.2 ⟨hall, rfl⟩, weightAt_of_getElem? (List.getElem?_eq_getElem hk), List.getElem?_eq_getElem hk]

theorem weightAt_append (h : k < nodes.length) (more : List Node) :
    weightAt (nodes ++ more) k = weightAt nodes k := by
  rw [weightAt, weightAt, List.getElem?_append_left h]

/-- The weights of a list with a new node at its tail. -/
theorem listWeights_concat (hall : ∀ k ∈ l, k < nodes.length) (m : Node) :
    listWeights (nodes ++ [m]) (l ++ [nodes.length]) = listWeights nodes l ++ [m.weight.toNat] := by
  rw [listWeights, List.map_append, List.map_singleton, weightAt_of_getElem? List.getElem?_concat_length]
  congr 1
  exact List.map_congr_left fun k hk => by rw [weightAt_append (hall k hk)]

/-! ### The two selected entries (R100) -/

/-- The entries `a` and `b` of the list, at the positions `i` and `j`, are the two R100 selects. -/
structure Selected (s : State) (i j a b : Nat) : Prop where
  fst : LightestAt (listWeights s.nodes s.list) (fun _ => True) i
  snd : LightestAt (listWeights s.nodes s.list) (· ≠ i) j
  fst_entry : s.list[i]? = some a
  snd_entry : s.list[j]? = some b

theorem Selected.ne (h : Selected s i j a b) : i ≠ j := h.snd.1.symm

theorem Selected.two_le (h : Selected s i j a b) : 2 ≤ s.list.length := by
  have hi := (List.getElem?_eq_some_iff.1 h.fst_entry).1
  have hj := (List.getElem?_eq_some_iff.1 h.snd_entry).1
  have := h.ne
  omega

/-- Select2's answer on the weights of the list selects two of its entries. -/
theorem exists_selected (hl : 2 ≤ s.list.length) :
    ∃ a b, Selected s (select2 (listWeights s.nodes s.list)).1 (select2 (listWeights s.nodes s.list)).2 a b := by
  rw [← listWeights_length s.nodes] at hl
  obtain ⟨hfst, hsnd⟩ := select2_lightestAt hl
  obtain ⟨h1, h2⟩ := select2_lt hl
  rw [listWeights_length] at h1 h2
  exact ⟨_, _, hfst, hsnd, List.getElem?_eq_getElem h1, List.getElem?_eq_getElem h2⟩

/-- The two selected entries and the others are the list. -/
theorem Selected.perm (h : Selected s i j a b) : s.list.Perm (a :: b :: eraseTwo s.list i j) :=
  perm_eraseTwo h.ne h.fst_entry h.snd_entry

theorem Selected.mem_of_mem_eraseTwo (h : Selected s i j a b) (hk : k ∈ eraseTwo s.list i j) : k ∈ s.list :=
  h.perm.mem_iff.2 (List.mem_cons_of_mem _ (List.mem_cons_of_mem _ hk))

theorem Selected.fst_mem (h : Selected s i j a b) : a ∈ s.list := List.mem_of_getElem? h.fst_entry

theorem Selected.snd_mem (h : Selected s i j a b) : b ∈ s.list := List.mem_of_getElem? h.snd_entry

/-- The weights before a round: the two selected, and those of the rest. -/
theorem Selected.perm_weights (h : Selected s i j a b) :
    (listWeights s.nodes s.list).Perm ((weightAt s.nodes a).toNat :: (weightAt s.nodes b).toNat ::
      listWeights s.nodes (eraseTwo s.list i j)) :=
  h.perm.map _

/-- The two weights Select2 chooses, read at its positions and at its entries. -/
theorem Selected.weights (h : Selected s i j a b) :
    (listWeights s.nodes s.list).getD i 0 = (weightAt s.nodes a).toNat ∧
      (listWeights s.nodes s.list).getD j 0 = (weightAt s.nodes b).toNat := by
  rw [List.getD_eq_getElem?_getD, List.getD_eq_getElem?_getD, listWeights_getElem? h.fst_entry,
    listWeights_getElem? h.snd_entry]
  exact ⟨rfl, rfl⟩

/-! ### MergeStep (R102) -/

theorem mergeStep_eq_mergeAt (hall : ∀ k ∈ s.list, k < s.nodes.length) (h : Selected s i j a b) :
    mergeStep s = mergeAt i j s := by
  rw [mergeStep, weightsOf_eq_some.2 ⟨hall, rfl⟩]
  show mergeAt _ _ s = _
  rw [select2_eq (h.two_le.trans_eq (listWeights_length ..).symm) h.fst h.snd]

/-- A round on an allocated list: the overflow check, the room in the arena, then the merge. -/
theorem mergeStep_of_selected (hall : ∀ k ∈ s.list, k < s.nodes.length) (h : Selected s i j a b) :
    mergeStep s =
      if 2 ^ 64 ≤ (weightAt s.nodes a).toNat + (weightAt s.nodes b).toNat then .raised .weightOverflow s
      else if s.nodes.length = s.cfg.nodeCap then .raised .capacityExceeded s
      else .done () (merged i j a b (weightAt s.nodes a + weightAt s.nodes b) s) := by
  have ha := List.getElem?_eq_getElem (hall a h.fst_mem)
  have hb := List.getElem?_eq_getElem (hall b h.snd_mem)
  rw [mergeStep_eq_mergeAt hall h, weightAt_of_getElem? ha, weightAt_of_getElem? hb]
  simp only [mergeAt, h.fst_entry, h.snd_entry, ha, hb]
  split
  · rfl
  · split
    · rw [allocNode_eq_raised.2 ⟨‹_›, rfl, rfl⟩, andThen_raised]
    · rw [allocNode_eq_done.2 ⟨‹_›, rfl, rfl⟩, andThen_done]
      rfl

/-- A completed round, with what Select2 and the checks have found. -/
theorem mergeStep_done_selected (hl : 2 ≤ s.list.length) (h : mergeStep s = .done () t) :
    ∃ i j a b, (∀ k ∈ s.list, k < s.nodes.length) ∧ Selected s i j a b ∧
      (weightAt s.nodes a).toNat + (weightAt s.nodes b).toNat < 2 ^ 64 ∧
      t = merged i j a b (weightAt s.nodes a + weightAt s.nodes b) s := by
  have hall : ∀ k ∈ s.list, k < s.nodes.length := by
    unfold mergeStep at h
    split at h
    · cases h
    · exact (weightsOf_eq_some.1 ‹_›).1
  obtain ⟨a, b, hsel⟩ := exists_selected hl
  rw [mergeStep_of_selected hall hsel] at h
  split at h
  · cases h
  · split at h
    · cases h
    · exact ⟨_, _, a, b, hall, hsel, Nat.lt_of_not_le ‹_›, (Cmd.done.inj h).2.symm⟩

/-! ### The list after a round -/

/-- A round shortens the list by one. -/
theorem length_list_merged {w : Word} (hij : i ≠ j) (hi : s.list[i]? = some a) (hj : s.list[j]? = some b) :
    (merged i j a b w s).list.length + 1 = s.list.length := by
  rw [← length_eraseTwo hij hi hj]
  exact congrArg (· + 1) List.length_append

theorem mergeStep_done_length (h : mergeStep s = .done () t) : t.list.length + 1 = s.list.length := by
  obtain ⟨i, j, a, b, w, hij, hi, hj, -, rfl⟩ := mergeStep_eq_done h
  exact length_list_merged hij hi hj

/-- No error of a round is latched while the round runs. -/
theorem mergeStep_done_err (h : mergeStep s = .done () t) : t.err = s.err := by
  obtain ⟨i, j, a, b, w, -, -, -, -, rfl⟩ := mergeStep_eq_done h
  rfl

/-- The weights after a round: those of the rest, and the sum of the two selected. -/
theorem Selected.listWeights_merged (h : Selected s i j a b) (hall : ∀ k ∈ s.list, k < s.nodes.length)
    (hsum : (weightAt s.nodes a).toNat + (weightAt s.nodes b).toNat < 2 ^ 64)
    (ht : t = merged i j a b (weightAt s.nodes a + weightAt s.nodes b) s) :
    listWeights t.nodes t.list =
      listWeights s.nodes (eraseTwo s.list i j) ++ [(weightAt s.nodes a).toNat + (weightAt s.nodes b).toNat] := by
  rw [ht, ← BitVec.toNat_add_of_lt hsum]
  exact listWeights_concat (fun k hk => hall k (h.mem_of_mem_eraseTwo hk)) _

/-- A round leaves a list of allocated entries. -/
theorem Selected.allocated_merged (h : Selected s i j a b) (hall : ∀ k ∈ s.list, k < s.nodes.length) (w : Word) :
    ∀ k ∈ (merged i j a b w s).list, k < (merged i j a b w s).nodes.length := by
  intro k hk
  show k < (s.nodes ++ [_]).length
  rw [List.length_append, List.length_singleton]
  obtain hk | hk := List.mem_append.1 hk
  · exact Nat.lt_succ_of_lt (hall k (h.mem_of_mem_eraseTwo hk))
  · exact Nat.lt_succ_of_le (List.mem_singleton.1 hk).le

end Sys2Proof.Machine
end

section
/-! OBLIGATIONS. The tree builder's commands (40_tree_builder R104 to R106, 60_exceptions R194): what LEAF_PUSH comes
to, MERGE and BUILD by their rounds, the errors, and the frames of the tree commands. -/

namespace Sys2Proof.Machine

variable {s t : State} {x : Byte} {k : Nat}

/-! ### LEAF_PUSH (R104) -/

theorem exec_leafPush_of_present (h : isPresent s x = true) :
    exec (.leafPush x) s = .next (raiseError .duplicateSymbol Opcode.leafPush s) := by
  simp [exec, execLeafPush, h]

theorem exec_leafPush_of_full (h : isPresent s x = false)
    (hfull : s.list.length = 256 ∨ s.nodes.length = s.cfg.nodeCap) :
    exec (.leafPush x) s = .next (raiseError .capacityExceeded Opcode.leafPush s) := by
  by_cases hl : s.list.length = 256
  · simp [exec, execLeafPush, h, Config.listCap, hl]
  · simp [exec, execLeafPush, h, Config.listCap, hl, allocNode_eq_raised.2 ⟨hfull.resolve_left hl, rfl, rfl⟩]

theorem exec_leafPush_of_room (h : isPresent s x = false) (hl : s.list.length ≠ 256)
    (hcap : s.nodes.length ≠ s.cfg.nodeCap) : exec (.leafPush x) s = .next (leafPushed x s) := by
  simp [exec, execLeafPush, h, Config.listCap, hl, allocNode_eq_done.2 ⟨hcap, rfl, rfl⟩, leafPushed, markPresent]

/-- Settles O11: where no check fails LEAF_PUSH answers `leafPushed`. -/
theorem leafPushAddsALeaf : Obligations.LeafPushAddsALeaf := by
  intro s x h hl hcap
  refine ⟨leafPushed x s, exec_leafPush_of_room h hl hcap, rfl, fun y => isPresent_markPresent x y s, fun y => ?_⟩
  exact codeOf_invalidateCT _ y

/-! ### MERGE and BUILD by their rounds (R105, R106) -/

theorem rootFromList_of_two (h : 2 ≤ s.list.length) : rootFromList s = s := by
  obtain hr | ⟨k, hk, -⟩ := rootFromList_cases s
  · exact hr
  · simp [hk] at h

theorem rootFromList_of_one (h : s.list = [k]) : rootFromList s = setRoot k s := by
  rw [rootFromList, h]

theorem rootFromList_err : (rootFromList s).err = s.err := by
  obtain hr | ⟨k, -, hr⟩ := rootFromList_cases s <;> rw [hr]
  exact setRoot_err k s

theorem rootFromList_list : (rootFromList s).list = s.list := by
  obtain hr | ⟨k, -, hr⟩ := rootFromList_cases s <;> rw [hr]
  exact setRoot_list k s

theorem exec_merge_of_two (h : 2 ≤ s.list.length) :
    exec .merge s = finish Opcode.merge ((mergeStep s).andThen fun _ t => .done () (rootFromList t)) := by
  rw [exec, execMerge, if_neg (by omega), if_pos h]

theorem exec_build_of_entries (h : s.list ≠ []) :
    exec .build s =
      finish Opcode.build ((buildRounds s.list.length s).andThen fun _ t => .done () (rootFromList t)) := by
  rw [exec, execBuild, if_neg (mt List.length_eq_zero_iff.1 h)]

theorem buildRounds_of_le_one {n : Nat} (h : s.list.length ≤ 1) : buildRounds n s = .done () s := by
  cases n with
  | zero => rfl
  | succ n => rw [buildRounds, if_neg (by omega)]

theorem buildRounds_succ {n : Nat} (h : 2 ≤ s.list.length) :
    buildRounds (n + 1) s = (mergeStep s).andThen fun _ t => buildRounds n t := by
  rw [buildRounds, if_pos h]

/-- Settles O14: no round runs, and the one entry becomes the root. -/
theorem mergeOfOneEntrySetsTheRoot : Obligations.MergeOfOneEntrySetsTheRoot := by
  intro s k h
  have hlen : s.list.length = 1 := by rw [h, List.length_singleton]
  rw [exec, execMerge, if_neg (by omega), if_neg (by omega), andThen_done, rootFromList_of_one h, finish_done]
  rfl

/-- Settles O15: each command's first check fails. -/
theorem missingListOrTreeIsAnError : Obligations.MissingListOrTreeIsAnError := by
  refine ⟨fun s h => ⟨?_, ?_⟩, fun s h => ⟨?_, ?_, ?_, ?_⟩⟩
  · rw [exec, execMerge, if_pos (by rw [h, List.length_nil])]
    rfl
  · rw [exec, execBuild, if_pos (by rw [h, List.length_nil])]
    rfl
  · rw [exec, execGenCodes, if_pos h]
    rfl
  · rw [exec, execSerLen, if_pos h]
    rfl
  · rw [exec, execSerialize, if_pos h]
    rfl
  · rw [exec, execDecode, if_pos h]
    rfl

/-- Settles O20: the checks of LEAF_PUSH and of a round of MERGE, in their order. -/
theorem treeBuilderErrorsInOrder : Obligations.TreeBuilderErrorsInOrder := by
  refine ⟨fun s x h => exec_leafPush_of_present h, fun s x h hfull => exec_leafPush_of_full h hfull,
    fun s ws hl hws hsum => ?_, fun s ws hl hws hsum hcap => ?_⟩
  all_goals
    obtain ⟨hall, rfl⟩ := weightsOf_eq_some.1 hws
    obtain ⟨a, b, hsel⟩ := exists_selected hl
    rw [hsel.weights.1, hsel.weights.2] at hsum
    rw [exec_merge_of_two hl, mergeStep_of_selected hall hsel]
  · rw [if_pos hsum]
    rfl
  · rw [if_neg (Nat.not_le.2 hsum), if_pos hcap]
    rfl

/-- Settles O19: BUILD's first round is MERGE's, and the rounds after it are those of BUILD from there. -/
theorem buildIsRepeatedMerge : Obligations.BuildIsRepeatedMerge := by
  intro s t herr hl hmerge
  have hbuild : exec .build s = finish Opcode.build (((mergeStep s).andThen fun _ u =>
      buildRounds (s.list.length - 1) u).andThen fun _ u => .done () (rootFromList u)) := by
    rw [exec_build_of_entries (List.ne_nil_of_length_pos (by omega)), ← buildRounds_succ hl,
      Nat.sub_add_cancel (by omega)]
  rw [exec_merge_of_two hl] at hmerge
  rw [hbuild]
  cases hstep : mergeStep s with
  | broken => simp [hstep] at hmerge
  | raised e u =>
    obtain ⟨-, rfl⟩ := mergeStep_eq_raised hstep
    rw [hstep] at hmerge
    cases hmerge
    refine ⟨fun h => (nomatch h), fun h => (nomatch h), fun l hlatch => ?_⟩
    cases hlatch
    rfl
  | done _ u =>
    rw [hstep] at hmerge
    have hlen : s.list.length - 1 = u.list.length := by
      have := mergeStep_done_length hstep
      omega
    obtain rfl : rootFromList u = t := by simpa using hmerge
    rw [andThen_done, hlen, rootFromList_list, rootFromList_err, mergeStep_done_err hstep, herr]
    refine ⟨fun _ htwo => ?_, fun _ hone => ?_, fun l hlatch => (nomatch hlatch)⟩
    · rw [rootFromList_of_two htwo, exec_build_of_entries (List.ne_nil_of_length_pos (by omega))]
    · rw [buildRounds_of_le_one hone]
      rfl

/-- The frame of MERGE and BUILD, the latch named beside it. -/
theorem AnswersIn.roundFrame {o : Host.Outcome State Fault Refusal} {op : Byte} {es : List ErrorCode}
    (h : AnswersIn o op es (frameOf .build s)) (ho : o = .next t) :
    t = { s with nodes := t.nodes, list := t.list, rootValid := t.rootValid, root := t.root, cursor := t.cursor,
                 ct := t.ct, ctValid := t.ctValid, err := t.err } ∧ ∃ ns, t.nodes = s.nodes ++ ns := by
  obtain ⟨ht, hns⟩ | ⟨e, -, u, ⟨hu, hns⟩, rfl⟩ := h t ho
  · exact ⟨by rw [ht], hns⟩
  · exact ⟨by rw [hu]; rfl, hns⟩

/-- Settles O53: the frames of `exec_frame`, the latch named beside them. -/
theorem treeCommandFrames : Obligations.TreeCommandFrames := by
  refine fun s t => ⟨fun x h => ?_, fun h => ?_, fun h => ?_⟩
  · obtain ⟨ht, hns⟩ | ⟨e, -, u, ⟨hu, hns⟩, rfl⟩ := exec_frame _ s t h
    · exact ⟨by rw [ht], hns⟩
    · exact ⟨by rw [hu]; rfl, hns⟩
  · exact h.elim (exec_frame .merge s).roundFrame (exec_frame .build s).roundFrame
  · obtain ht | ⟨e, -, u, hu, rfl⟩ := exec_frame _ s t h
    · rw [ht]
    · rw [hu]
      rfl

end Sys2Proof.Machine
end

section
/-! OBLIGATIONS. MERGE of two or more entries, with the two positions and the new list written out (40_tree_builder
R100, R102, R103, R105). -/

namespace Sys2Proof.Machine

variable {s : State} {i j a b : Nat} {na nb : Node} {l : List Nat}

/-! ### The list without two positions -/

/-- Dropping positions of a list, its head apart. -/
theorem filterMap_range_cons (p : Nat → Prop) [DecidablePred p] (x : Nat) (l : List Nat) :
    ((List.range (x :: l).length).filterMap fun k => if p k then none else (x :: l)[k]?) =
      (if p 0 then [] else [x]) ++ (List.range l.length).filterMap fun k => if p (k + 1) then none else l[k]? := by
  rw [List.length_cons, List.range_succ_eq_map, List.filterMap_cons, List.filterMap_map]
  by_cases h : p 0
  · simp only [h, if_true, List.nil_append]
    rfl
  · simp only [h, if_false, List.getElem?_cons_zero]
    rfl

theorem filterMap_range_eq_self (l : List Nat) : ((List.range l.length).filterMap fun k => l[k]?) = l := by
  induction l with
  | nil => rfl
  | cons x l ih => simpa [ih] using filterMap_range_cons (fun _ => False) x l

theorem filterMap_range_eq_eraseIdx (l : List Nat) (i : Nat) :
    ((List.range l.length).filterMap fun k => if k = i then none else l[k]?) = l.eraseIdx i := by
  induction l generalizing i with
  | nil => rfl
  | cons x l ih =>
    rw [filterMap_range_cons (· = i)]
    cases i with
    | zero => simp [filterMap_range_eq_self]
    | succ i => simp [ih]

/-- The list without two positions is the rest of it in increasing order (R102). -/
theorem filterMap_range_eq_eraseTwo (l : List Nat) (hij : i ≠ j) :
    ((List.range l.length).filterMap fun k => if k = i ∨ k = j then none else l[k]?) = eraseTwo l i j := by
  wlog h : i < j generalizing i j
  · have := this hij.symm (by omega)
    simp only [Or.comm (a := _ = j)] at this
    rw [this, eraseTwo, eraseTwo, Nat.max_comm, Nat.min_comm]
  rw [eraseTwo, Nat.max_eq_right h.le, Nat.min_eq_left h.le]
  induction l generalizing i j with
  | nil => rfl
  | cons x l ih =>
    obtain ⟨j, rfl⟩ : ∃ m, j = m + 1 := ⟨j - 1, by omega⟩
    rw [filterMap_range_cons fun k => k = i ∨ k = j + 1]
    cases i with
    | zero => simp [filterMap_range_eq_eraseIdx]
    | succ i => simp [ih (i := i) (j := j) (by omega) (by omega)]

/-! ### The two selected entries by their nodes -/

/-- The rule of R100 on the nodes of the entries: the lowest position of the least weight among those that meet `p`. -/
theorem lightestAt_of_nodes {p : Nat → Prop} (hall : ∀ k ∈ s.list, k < s.nodes.length) (hp : p i)
    (hi : s.list[i]? = some a) (ha : s.nodes[a]? = some na)
    (hleast : ∀ j k n, p j → s.list[j]? = some k → s.nodes[k]? = some n →
      na.weight ≤ n.weight ∧ (n.weight = na.weight → i ≤ j)) :
    LightestAt (listWeights s.nodes s.list) p i := by
  refine ⟨hp, na.weight.toNat, by rw [listWeights_getElem? hi, weightAt_of_getElem? ha], fun j v hj hv => ?_⟩
  rw [listWeights, List.getElem?_map, Option.map_eq_some_iff] at hv
  obtain ⟨k, hk, rfl⟩ := hv
  have hn := List.getElem?_eq_getElem (hall k (List.mem_of_getElem? hk))
  rw [weightAt_of_getElem? hn]
  obtain ⟨hle, hpos⟩ := hleast j k _ hj hk hn
  exact ⟨BitVec.le_def.1 hle, fun heq => hpos (BitVec.eq_of_toNat_eq heq)⟩

theorem codeOf_merged (i j a b : Nat) (w : Word) (s : State) (x : Byte) : codeOf (merged i j a b w s) x = none :=
  codeOf_invalidateCT _ x

/-- What MERGE leaves of a round: the node is the root exactly where the round was the last (R105). -/
theorem rootFromList_merged {w : Word} (hij : i ≠ j) (hi : s.list[i]? = some a) (hj : s.list[j]? = some b) :
    rootFromList (merged i j a b w s) =
      if s.list.length = 2 then setRoot s.nodes.length (merged i j a b w s) else merged i j a b w s := by
  have hlen := length_eraseTwo hij hi hj
  have hlist : (merged i j a b w s).list = eraseTwo s.list i j ++ [s.nodes.length] := rfl
  split
  · have hnil : eraseTwo s.list i j = [] := List.length_eq_zero_iff.1 (by omega)
    rw [hnil, List.nil_append] at hlist
    exact rootFromList_of_one hlist
  · refine rootFromList_of_two ?_
    rw [hlist, List.length_append, List.length_singleton]
    have := (List.getElem?_eq_some_iff.1 hi).1
    omega

/-- Settles O13: the hypotheses say what Select2 answers, and the checks of the round pass. -/
theorem mergeJoinsTheTwoLightest : Obligations.MergeJoinsTheTwoLightest := by
  intro s i1 i2 a b na nb hl hall hij hi hj ha hb hfst hsnd hsum hcap k kept
  have hsel : Selected s i1 i2 a b :=
    { fst := lightestAt_of_nodes hall trivial hi ha fun j k n _ => hfst j k n
      snd := lightestAt_of_nodes hall hij.symm hj hb hsnd
      fst_entry := hi
      snd_entry := hj }
  have hmerge : exec .merge s = .next (rootFromList (merged i1 i2 a b (na.weight + nb.weight) s)) := by
    rw [exec_merge_of_two hl, mergeStep_of_selected hall hsel, weightAt_of_getElem? ha, weightAt_of_getElem? hb,
      if_neg (Nat.not_le.2 hsum), if_neg hcap]
    rfl
  have hkept : kept = eraseTwo s.list i1 i2 := filterMap_range_eq_eraseTwo s.list hij
  refine ⟨_, hmerge, ?_⟩
  rw [rootFromList_merged hij hi hj, hkept]
  split
  · next h =>
    exact ⟨by rw [h]; rfl, codeOf_merged i1 i2 a b (na.weight + nb.weight) s⟩
  · next h =>
    exact ⟨by rw [decide_eq_false h]; rfl, codeOf_merged i1 i2 a b (na.weight + nb.weight) s⟩

end Sys2Proof.Machine
end

section
/-! OBLIGATIONS. BUILD to its end (40_tree_builder R106): an invariant of the rounds holds of the one entry left, rounds
that cannot fail complete, and the nodes, the weight and the table BUILD leaves. -/

namespace Sys2Proof.Machine

variable {P : State → Prop} {s t u : State} {n : Nat}

/-! ### The rounds -/

/-- The rounds of a non-empty list end with one entry. -/
theorem buildRounds_done_length (hl : 1 ≤ s.list.length) (hn : s.list.length ≤ n + 1)
    (h : buildRounds n s = .done () t) : t.list.length = 1 := by
  induction n generalizing s with
  | zero =>
    cases h
    omega
  | succ n ih =>
    by_cases htwo : 2 ≤ s.list.length
    · rw [buildRounds_succ htwo, andThen_eq_done] at h
      obtain ⟨_, u, hstep, hrest⟩ := h
      have := mergeStep_done_length hstep
      exact ih (by omega) (by omega) hrest
    · rw [buildRounds_of_le_one (by omega)] at h
      cases h
      omega

/-- A BUILD without an error makes the one entry its rounds leave the root, and what every round keeps holds there. -/
theorem exec_build_keeps (hP : MergeKeeps P) (hs : P s) (hl : s.list ≠ []) (h : exec .build s = .next t)
    (herr : t.err = none) : ∃ u k, P u ∧ u.list = [k] ∧ t = setRoot k u := by
  rw [exec_build_of_entries hl, finish_eq_next] at h
  obtain ⟨_, h⟩ | ⟨e, u, -, rfl⟩ := h
  · obtain ⟨_, u, hrounds, h⟩ := andThen_eq_done.1 h
    have hu : (buildRounds s.list.length s).EndsIn (errorsOf .build) P := buildRounds_endsIn hP hs
    rw [hrounds] at hu
    obtain ⟨k, hk⟩ := List.length_eq_one_iff.1
      (buildRounds_done_length (List.length_pos_iff.2 hl) (Nat.le_succ _) hrounds)
    exact ⟨u, k, hu, hk, (Cmd.done.inj h).2.symm.trans (rootFromList_of_one hk)⟩
  · cases herr

/-- A round from a state with `P` completes, and keeps `P`. -/
def MergeRuns (P : State → Prop) : Prop := ∀ s, P s → 2 ≤ s.list.length → ∃ t, mergeStep s = .done () t ∧ P t

theorem MergeRuns.buildRounds (hP : MergeRuns P) (hs : P s) (n : Nat) : ∃ t, buildRounds n s = .done () t ∧ P t := by
  induction n generalizing s with
  | zero => exact ⟨s, rfl, hs⟩
  | succ n ih =>
    by_cases htwo : 2 ≤ s.list.length
    · obtain ⟨u, hstep, hu⟩ := hP s hs htwo
      rw [buildRounds_succ htwo, hstep]
      exact ih hu
    · exact ⟨s, buildRounds_of_le_one (by omega), hs⟩

/-- Where every round completes, so does BUILD. -/
theorem MergeRuns.exec_build (hP : MergeRuns P) (hs : P s) (hl : s.list ≠ []) :
    ∃ u k, P u ∧ u.list = [k] ∧ exec .build s = .next (setRoot k u) := by
  obtain ⟨u, hrounds, hu⟩ := hP.buildRounds hs s.list.length
  obtain ⟨k, hk⟩ := List.length_eq_one_iff.1
    (buildRounds_done_length (List.length_pos_iff.2 hl) (Nat.le_succ _) hrounds)
  refine ⟨u, k, hu, hk, ?_⟩
  rw [exec_build_of_entries hl, hrounds, ← rootFromList_of_one hk]
  rfl

/-! ### What the rounds of BUILD add up to -/

/-- `u` is `s` after some rounds: a node for each entry less, the list's weight and everything else as it was, and the
table as it was until the first round. -/
structure Reduced (s u : State) : Prop where
  frame : ∃ added, u = { s with nodes := s.nodes ++ added, list := u.list, rootValid := u.rootValid, ct := u.ct,
                                ctValid := u.ctValid } ∧
    added.length + u.list.length = s.list.length ∧ ∀ n ∈ added, n.kind = .internal ∧ n.sym = 0#8
  allocated : ∀ k ∈ u.list, k < u.nodes.length
  sum : (listWeights u.nodes u.list).sum = (listWeights s.nodes s.list).sum
  table : u.list.length = s.list.length ∧ u.ct = s.ct ∧ u.ctValid = s.ctValid ∨
    u.list.length < s.list.length ∧ u.ctValid = false ∧ ∀ x, codeOf u x = none

theorem Reduced.refl (hall : ∀ k ∈ s.list, k < s.nodes.length) : Reduced s s :=
  ⟨⟨[], by rw [List.append_nil], Nat.zero_add _, fun _ h => (nomatch h)⟩, hall, rfl, .inl ⟨rfl, rfl, rfl⟩⟩

theorem Reduced.merged {i j a b : Nat} (h : Reduced s u) (hsel : Selected u i j a b)
    (hsum : (weightAt u.nodes a).toNat + (weightAt u.nodes b).toNat < 2 ^ 64) :
    Reduced s (merged i j a b (weightAt u.nodes a + weightAt u.nodes b) u) := by
  obtain ⟨added, hu, hlen, hnew⟩ := h.frame
  have hshort := length_list_merged (w := weightAt u.nodes a + weightAt u.nodes b) hsel.ne hsel.fst_entry hsel.snd_entry
  refine ⟨⟨added ++ [⟨.internal, 0#8, weightAt u.nodes a + weightAt u.nodes b, a, b⟩], ?_, ?_, ?_⟩,
    hsel.allocated_merged h.allocated _, ?_, .inr ⟨by omega, rfl, codeOf_merged i j a b _ u⟩⟩
  · have hnodes : s.nodes ++ added = u.nodes := by rw [hu]
    rw [← List.append_assoc, hnodes, hu]
    rfl
  · rw [List.length_append, List.length_singleton]
    omega
  · rw [List.forall_mem_append]
    exact ⟨hnew, fun n hn => List.mem_singleton.1 hn ▸ ⟨rfl, rfl⟩⟩
  · rw [hsel.listWeights_merged h.allocated hsum rfl, ← h.sum, hsel.perm_weights.sum_eq]
    simp only [List.sum_append, List.sum_cons, List.sum_nil]
    omega

/-- No check of a round fails where the weights sum below 2^64 and the arena has room for every round. -/
theorem mergeRuns_reduced (hsum : (listWeights s.nodes s.list).sum < 2 ^ 64)
    (hroom : s.nodes.length + s.list.length ≤ s.cfg.nodeCap + 1) : MergeRuns (Reduced s) := by
  intro u h htwo
  obtain ⟨a, b, hsel⟩ := exists_selected htwo
  have hab : (weightAt u.nodes a).toNat + (weightAt u.nodes b).toNat < 2 ^ 64 := by
    have := hsel.perm_weights.sum_eq
    rw [h.sum, List.sum_cons, List.sum_cons] at this
    omega
  have hcap : u.nodes.length ≠ u.cfg.nodeCap := by
    obtain ⟨added, hu, hlen, -⟩ := h.frame
    have hcfg : u.cfg = s.cfg := by rw [hu]
    have hnodes : u.nodes.length = s.nodes.length + added.length := by rw [hu, List.length_append]
    rw [hcfg]
    omega
  rw [mergeStep_of_selected h.allocated hsel, if_neg (Nat.not_le.2 hab), if_neg hcap]
  exact ⟨_, rfl, h.merged hsel hab⟩

/-- Settles O16: every round completes, and keeps `Reduced`. -/
theorem buildLeavesOneRoot : Obligations.BuildLeavesOneRoot := by
  intro s ws hl hws hsum hroom
  obtain ⟨hall, rfl⟩ := weightsOf_eq_some.1 hws
  obtain ⟨u, k, hu, hk, hbuild⟩ := (mergeRuns_reduced hsum hroom).exec_build (Reduced.refl hall) hl
  obtain ⟨added, hframe, hlen, hnew⟩ := hu.frame
  have hone : u.list.length = 1 := by rw [hk, List.length_singleton]
  have hweights : weightsOf u.nodes [k] = some [(listWeights s.nodes s.list).sum] := by
    rw [← hu.sum, hk]
    exact weightsOf_eq_some.2 ⟨hk ▸ hu.allocated, rfl⟩
  refine ⟨setRoot k u, k, added, hbuild, ?_, by omega, hnew, hweights, ?_, ?_⟩
  · have hct : u.ctValid = (s.ctValid && decide (s.list.length = 1)) := by
      obtain ⟨hsame, -, hv⟩ | ⟨hless, hv, -⟩ := hu.table
      · rw [hv, decide_eq_true (by omega), Bool.and_true]
      · rw [hv, decide_eq_false (by omega), Bool.and_false]
    rw [← hct]
    conv_lhs => rw [hframe]
    rw [← hk]
    rfl
  · intro h
    exact (hu.table.resolve_right (by omega)).2.1
  · intro h
    exact (hu.table.resolve_left (by omega)).2.2

end Sys2Proof.Machine
end

section
/-! OBLIGATIONS. The trees of the listed entries through the rounds of BUILD: they are read the same in a larger arena,
and a round joins two of them (40_tree_builder R102, R106). -/

namespace Sys2Proof.Machine

variable {nodes : List Node} {fuel fuel' k i j a b : Nat} {n : Node} {l : List Nat} {tr : CodeTree}
  {trees : List CodeTree} {s t u : State}

/-! ### Reading a tree -/

theorem readTree_leaf (hn : nodes[k]? = some n) (hk : n.kind = .leaf) :
    readTree nodes (fuel + 1) k = some (.leaf n.sym) := by
  simp [readTree, hn, hk]

theorem readTree_internal (hn : nodes[k]? = some n) (hk : n.kind = .internal) {tl tr : CodeTree}
    (hl : readTree nodes fuel n.left = some tl) (hr : readTree nodes fuel n.right = some tr) :
    readTree nodes (fuel + 1) k = some (.node tl tr) := by
  simp [readTree, hn, hk, hl, hr]

/-- The tree of an entry is its leaf, or the trees of its two children joined. -/
theorem readTree_cases (h : readTree nodes (fuel + 1) k = some tr) :
    ∃ n, nodes[k]? = some n ∧
      (n.kind = .leaf ∧ tr = .leaf n.sym ∨
        n.kind = .internal ∧ ∃ tl tr', readTree nodes fuel n.left = some tl ∧
          readTree nodes fuel n.right = some tr' ∧ tr = .node tl tr') := by
  unfold readTree at h
  split at h
  · cases h
  · rename_i n hn
    refine ⟨n, hn, ?_⟩
    split at h
    · exact .inl ⟨‹_›, (Option.some.inj h).symm⟩
    · split at h
      · exact .inr ⟨‹_›, _, _, ‹_›, ‹_›, (Option.some.inj h).symm⟩
      · cases h

/-- A tree is read the same in a larger arena and with more fuel. -/
theorem readTree_append (h : readTree nodes fuel k = some tr) (hf : fuel ≤ fuel') (more : List Node) :
    readTree (nodes ++ more) fuel' k = some tr := by
  induction fuel generalizing fuel' k tr with
  | zero => cases h
  | succ fuel ih =>
    obtain ⟨fuel', rfl⟩ : ∃ f, fuel' = f + 1 := ⟨fuel' - 1, by omega⟩
    obtain ⟨n, hn, ⟨hk, rfl⟩ | ⟨hk, tl, tr', hl, hr, rfl⟩⟩ := readTree_cases h
    all_goals have hn' := List.getElem?_append_left (l₂ := more) (List.getElem?_eq_some_iff.1 hn).1 ▸ hn
    · exact readTree_leaf hn' hk
    · exact readTree_internal hn' hk (ih hl (by omega)) (ih hr (by omega))

/-! ### The trees of a list -/

/-- The tree of entry `k`, some leaf where it is not read as a tree. -/
def treeAt (nodes : List Node) (k : Nat) : CodeTree := (readTree nodes nodes.length k).getD (.leaf 0#8)

/-- Every entry of a list is read as a tree. -/
def AllRead (nodes : List Node) (l : List Nat) : Prop := ∀ k ∈ l, readTree nodes nodes.length k = some (treeAt nodes k)

/-- The trees of a list of entries. -/
def listTrees (nodes : List Node) (l : List Nat) : List CodeTree := l.map (treeAt nodes)

theorem treeAt_of_readTree (h : readTree nodes nodes.length k = some tr) : treeAt nodes k = tr := by
  rw [treeAt, h, Option.getD_some]

/-- A list is read as a forest exactly where each entry is read as a tree. -/
theorem forestOf_eq_some : forestOf nodes l = some trees ↔ AllRead nodes l ∧ trees = listTrees nodes l := by
  induction l generalizing trees with
  | nil => simp [forestOf, AllRead, listTrees, eq_comm]
  | cons k l ih =>
    simp only [AllRead, listTrees, List.forall_mem_cons, List.map_cons] at ih ⊢
    unfold forestOf
    constructor
    · intro h
      split at h
      · rename_i tr ts htr hts
        obtain ⟨hall, rfl⟩ := ih.1 hts
        have hk := treeAt_of_readTree htr
        exact ⟨⟨hk ▸ htr, hall⟩, by rw [hk, Option.some.inj h]⟩
      · cases h
    · rintro ⟨⟨hk, hall⟩, rfl⟩
      rw [hk, ih.2 ⟨hall, rfl⟩]

theorem AllRead.readTree_append (h : AllRead nodes l) (hk : k ∈ l) (n : Node) :
    readTree (nodes ++ [n]) (nodes ++ [n]).length k = some (treeAt nodes k) :=
  Machine.readTree_append (h k hk) (by simp) [n]

/-! ### The trees through a round -/

/-- After a round every entry of the list is read as a tree, and the trees are those of the rest and the two selected
joined. -/
theorem Selected.trees_merged (h : Selected s i j a b) (hall : AllRead s.nodes s.list) {w : Word}
    (ht : t = merged i j a b w s) :
    AllRead t.nodes t.list ∧ listTrees t.nodes t.list =
      listTrees s.nodes (eraseTwo s.list i j) ++ [.node (treeAt s.nodes a) (treeAt s.nodes b)] := by
  have hnodes : t.nodes = s.nodes ++ [⟨.internal, 0#8, w, a, b⟩] := by rw [ht]; rfl
  have hlist : t.list = eraseTwo s.list i j ++ [s.nodes.length] := by rw [ht]; rfl
  have hrest : ∀ k ∈ eraseTwo s.list i j, readTree t.nodes t.nodes.length k = some (treeAt s.nodes k) := by
    intro k hk
    rw [hnodes]
    exact hall.readTree_append (h.mem_of_mem_eraseTwo hk) _
  have hnew : readTree t.nodes t.nodes.length s.nodes.length = some (.node (treeAt s.nodes a) (treeAt s.nodes b)) := by
    rw [hnodes, List.length_append, List.length_singleton]
    exact readTree_internal List.getElem?_concat_length rfl (readTree_append (hall a h.fst_mem) (Nat.le_refl _) _)
      (readTree_append (hall b h.snd_mem) (Nat.le_refl _) _)
  rw [hlist]
  constructor
  · intro k hk
    obtain hk | hk := List.mem_append.1 hk
    · rw [treeAt_of_readTree (hrest k hk), hrest k hk]
    · rw [List.mem_singleton.1 hk, treeAt_of_readTree hnew, hnew]
  · rw [listTrees, List.map_append, List.map_singleton, treeAt_of_readTree hnew]
    congr 1
    exact List.map_congr_left fun k hk => treeAt_of_readTree (hrest k hk)

/-- The trees before a round: the two selected, and those of the rest. -/
theorem Selected.perm_trees (h : Selected s i j a b) :
    (listTrees s.nodes s.list).Perm (treeAt s.nodes a :: treeAt s.nodes b :: listTrees s.nodes (eraseTwo s.list i j)) :=
  h.perm.map _

/-- Every entry of the list of `u` is read as a tree, and the leaves are those of the trees of `s`. -/
def LeavesKept (s u : State) : Prop :=
  AllRead u.nodes u.list ∧ ((listTrees u.nodes u.list).flatMap leaves).Perm ((listTrees s.nodes s.list).flatMap leaves)

theorem mergeKeeps_leavesKept : MergeKeeps (LeavesKept s) := by
  rintro u t ⟨hall, hperm⟩ htwo h
  obtain ⟨i, j, a, b, -, hsel, -, ht⟩ := mergeStep_done_selected htwo h
  obtain ⟨hall', htrees⟩ := hsel.trees_merged hall ht
  refine ⟨hall', List.Perm.trans ?_ hperm⟩
  calc ((listTrees t.nodes t.list).flatMap leaves)
      = (listTrees u.nodes (eraseTwo u.list i j)).flatMap leaves ++
          (leaves (treeAt u.nodes a) ++ leaves (treeAt u.nodes b)) := by
        rw [htrees, List.flatMap_append, List.flatMap_singleton, leaves]
    List.Perm _ (leaves (treeAt u.nodes a) ++ (leaves (treeAt u.nodes b) ++
          (listTrees u.nodes (eraseTwo u.list i j)).flatMap leaves)) := by
        rw [← List.append_assoc (leaves _)]
        exact List.perm_append_comm
    List.Perm _ ((listTrees u.nodes u.list).flatMap leaves) := (hsel.perm_trees.flatMap_right leaves).symm

/-- The tree at ROOT where the only entry, read as a tree, has been made the root. -/
theorem treeOf_setRoot (hall : AllRead u.nodes u.list) (hk : u.list = [k]) :
    treeOf (setRoot k u) (setRoot k u).root = some (treeAt u.nodes k) :=
  hall k (by rw [hk]; exact List.mem_singleton_self k)

/-- Settles O17: every round keeps `LeavesKept`. -/
theorem buildKeepsEveryLeaf : Obligations.BuildKeepsEveryLeaf := by
  intro s t trees _ hl hforest hbuild herr
  obtain ⟨hall, rfl⟩ := forestOf_eq_some.1 hforest
  obtain ⟨u, k, ⟨hall', hperm⟩, hk, rfl⟩ :=
    exec_build_keeps mergeKeeps_leavesKept ⟨hall, List.Perm.refl _⟩ hl hbuild herr
  refine ⟨_, treeOf_setRoot hall' hk, ?_⟩
  rwa [hk, listTrees, List.map_singleton, List.flatMap_singleton] at hperm

end Sys2Proof.Machine
end

section
/-! SUPPORT. Huffman's theorem for the depths of a tree (40_tree_builder R107): over an assignment of weights to the
leaf depths of some tree, the two least weights can be merged into one, one level up, and the cost falls by their sum or
more. -/

namespace Sys2Proof.Machine

variable {v : CodeTree} {Q : Multiset (ℕ × ℕ)} {ds ws : Multiset ℕ} {a b D m : ℕ}

/-! ### The leaf depths of a tree -/

/-- The depths of the leaves of a tree, each as often as a leaf has it. -/
def depths : CodeTree → Multiset ℕ
  | .leaf _ => {0}
  | .node l r => (depths l + depths r).map (· + 1)

theorem depths_ne_zero (v : CodeTree) : depths v ≠ 0 := by
  induction v with
  | leaf => exact Multiset.singleton_ne_zero 0
  | node l r ihl _ => simp [depths, ihl]

/-- A tree with no leaf below its root is a leaf. -/
theorem depths_eq_of_le_zero (h : ∀ d ∈ depths v, d ≤ 0) : depths v = {0} := by
  cases v with
  | leaf => rfl
  | node l r =>
    obtain ⟨d, hd⟩ := Multiset.exists_mem_of_ne_zero (depths_ne_zero l)
    exact absurd (h (d + 1) (Multiset.mem_map_of_mem _ (Multiset.mem_add.2 (.inl hd)))) (by omega)

theorem exists_greatest_depth (v : CodeTree) : ∃ D ∈ depths v, ∀ d ∈ depths v, d ≤ D := by
  have hne : (depths v).toFinset.Nonempty := by simpa [Finset.nonempty_iff_ne_empty] using depths_ne_zero v
  obtain ⟨D, hD, hmax⟩ := (depths v).toFinset.exists_max_image id hne
  exact ⟨D, Multiset.mem_toFinset.1 hD, fun d hd => hmax d (Multiset.mem_toFinset.2 hd)⟩

/-- Two leaves of the greatest depth are siblings: without them, their parent is a leaf one level up. -/
theorem exists_deepest_siblings (hle : ∀ d ∈ depths v, d ≤ m + 1) (hm : m + 1 ∈ depths v) :
    ∃ v' ds, depths v = (m + 1) ::ₘ (m + 1) ::ₘ ds ∧ depths v' = m ::ₘ ds := by
  induction v generalizing m with
  | leaf => simp [depths] at hm
  | node l r ihl ihr =>
    simp only [depths, Multiset.mem_map, Multiset.mem_add, Nat.add_right_cancel_iff, exists_eq_right,
      forall_exists_index, and_imp, forall_apply_eq_imp_iff₂, Nat.add_le_add_iff_right] at hle hm ⊢
    cases m with
    | zero =>
      refine ⟨.leaf 0#8, 0, ?_, rfl⟩
      rw [depths_eq_of_le_zero fun d hd => hle d (.inl hd), depths_eq_of_le_zero fun d hd => hle d (.inr hd)]
      rfl
    | succ m =>
      obtain hm | hm := hm
      · obtain ⟨l', ds, hl, hl'⟩ := ihl (fun d hd => hle d (.inl hd)) hm
        exact ⟨.node l' r, (ds + depths r).map (· + 1), by simp [hl], by simp [depths, hl']⟩
      · obtain ⟨r', ds, hr, hr'⟩ := ihr (fun d hd => hle d (.inr hd)) hm
        exact ⟨.node l r', (depths l + ds).map (· + 1), by simp [hr], by simp [depths, hr']⟩

/-! ### Weights at depths -/

/-- The cost of weights at depths: the sum of depth times weight. -/
def cost (Q : Multiset (ℕ × ℕ)) : ℕ := (Q.map fun q => q.1 * q.2).sum

@[simp] theorem cost_cons (q : ℕ × ℕ) (Q : Multiset (ℕ × ℕ)) : cost (q ::ₘ Q) = q.1 * q.2 + cost Q := by
  simp [cost]

/-- Moving the least weight to the greatest depth, in exchange for the weight there, costs nothing. -/
theorem exists_exchange (hdepth : Q.map Prod.fst = D ::ₘ ds) (hweight : Q.map Prod.snd = a ::ₘ ws)
    (hD : ∀ d ∈ ds, d ≤ D) (ha : ∀ w ∈ ws, a ≤ w) :
    ∃ Q', Q'.map Prod.fst = ds ∧ Q'.map Prod.snd = ws ∧ D * a + cost Q' ≤ cost Q := by
  obtain ⟨q, hq, rfl, rfl⟩ := (Multiset.map_eq_cons ..).2 hweight
  obtain ⟨R, rfl⟩ := Multiset.exists_cons_of_mem hq
  rw [Multiset.erase_cons_head] at ha ⊢
  rw [Multiset.map_cons, Multiset.cons_eq_cons] at hdepth
  obtain ⟨rfl, hds⟩ | ⟨-, es, hR, rfl⟩ := hdepth
  · exact ⟨R, hds, rfl, (cost_cons ..).ge⟩
  · obtain ⟨q', hq', rfl, rfl⟩ := (Multiset.map_eq_cons ..).2 hR
    obtain ⟨R, rfl⟩ := Multiset.exists_cons_of_mem hq'
    refine ⟨(q.1, q'.2) ::ₘ R, by simp, by simp, ?_⟩
    have := mul_add_mul_le_mul_add_mul (hD q.1 (by simp)) (ha q'.2 (by simp))
    simp only [cost_cons]
    omega

/-- The two least weights merged into one, at a leaf of another tree, cost their sum less or better. -/
theorem exists_merged_assignment (hdepth : Q.map Prod.fst = depths v) (hweight : Q.map Prod.snd = a ::ₘ b ::ₘ ws)
    (hab : a ≤ b) (hb : ∀ w ∈ ws, b ≤ w) :
    ∃ v' Q', Q'.map Prod.fst = depths v' ∧ Q'.map Prod.snd = (a + b) ::ₘ ws ∧ cost Q' + (a + b) ≤ cost Q := by
  obtain ⟨D, hmem, hmax⟩ := exists_greatest_depth v
  cases D with
  | zero =>
    have hcard := congrArg Multiset.card (hdepth.trans (depths_eq_of_le_zero hmax))
    have hcard' := congrArg Multiset.card hweight
    simp at hcard hcard'
    omega
  | succ m =>
    obtain ⟨v', ds, hv, hv'⟩ := exists_deepest_siblings hmax hmem
    rw [hv] at hdepth hmax
    simp only [Multiset.forall_mem_cons] at hmax
    obtain ⟨-, hm, hds⟩ := hmax
    obtain ⟨Q1, hdepth1, hweight1, hcost1⟩ := exists_exchange hdepth hweight
      (Multiset.forall_mem_cons.2 ⟨hm, hds⟩) (Multiset.forall_mem_cons.2 ⟨hab, fun w hw => hab.trans (hb w hw)⟩)
    obtain ⟨Q2, hdepth2, hweight2, hcost2⟩ := exists_exchange hdepth1 hweight1 hds hb
    refine ⟨v', (m, a + b) ::ₘ Q2, by rw [Multiset.map_cons, hdepth2, hv'], by rw [Multiset.map_cons, hweight2], ?_⟩
    rw [cost_cons]
    linarith

/-! ### A tree as an assignment of its leaves' counts -/

/-- The weight of a tree: the counts of its leaves together. -/
def treeWeight (count : Byte → Nat) (v : CodeTree) : Nat := ((leaves v).map count).sum

theorem treeWeight_node (count : Byte → Nat) (l r : CodeTree) :
    treeWeight count (.node l r) = treeWeight count l + treeWeight count r := by
  rw [treeWeight, leaves, List.map_append, List.sum_append, treeWeight, treeWeight]

/-- Paths behind `p` are longer by its length. -/
theorem sum_leafPaths (count : Byte → Nat) (v : CodeTree) (p : Code) :
    ((leafPaths v p).map fun q => q.1.length * count q.2).sum =
      p.length * treeWeight count v + weightedLength count v := by
  induction v generalizing p with
  | leaf x => simp [leafPaths, treeWeight, leaves, weightedLength]
  | node l r ihl ihr =>
    rw [weightedLength, leafPaths, leafPaths, List.map_append, List.map_append, List.sum_append, List.sum_append,
      ihl, ihr, ihl, ihr, treeWeight_node]
    simp only [List.length_append, List.length_singleton, List.nil_append]
    ring

theorem weightedLength_node (count : Byte → Nat) (l r : CodeTree) :
    weightedLength count (.node l r) =
      weightedLength count l + weightedLength count r + (treeWeight count l + treeWeight count r) := by
  rw [weightedLength, leafPaths, List.map_append, List.sum_append, sum_leafPaths, sum_leafPaths]
  simp only [List.nil_append, List.length_singleton]
  omega

/-- The lengths of the paths to the leaves are their depths. -/
theorem leafPaths_depths (v : CodeTree) (p : Code) :
    (((leafPaths v p).map fun q => q.1.length : List ℕ) : Multiset ℕ) = (depths v).map (p.length + ·) := by
  induction v generalizing p with
  | leaf => simp [leafPaths, depths]
  | node l r ihl ihr =>
    rw [leafPaths, List.map_append, ← Multiset.coe_add, ihl, ihr]
    simp [depths, Nat.add_assoc, Nat.add_comm 1]

/-- The counts of a tree's leaves at their depths. -/
def assignment (count : Byte → Nat) (v : CodeTree) : Multiset (ℕ × ℕ) :=
  ((leafPaths v []).map fun q => (q.1.length, count q.2) : List (ℕ × ℕ))

theorem assignment_depths (count : Byte → Nat) (v : CodeTree) : (assignment count v).map Prod.fst = depths v := by
  rw [assignment, Multiset.map_coe, List.map_map]
  exact (leafPaths_depths v []).trans (by simp)

theorem assignment_weights (count : Byte → Nat) (v : CodeTree) :
    (assignment count v).map Prod.snd = ((leaves v).map count : List ℕ) := by
  rw [assignment, Multiset.map_coe, List.map_map, ← leafPaths_map_snd v [], List.map_map]
  rfl

theorem cost_assignment (count : Byte → Nat) (v : CodeTree) : cost (assignment count v) = weightedLength count v := by
  rw [cost, assignment, Multiset.map_coe, Multiset.sum_coe, List.map_map]
  rfl

end Sys2Proof.Machine
end

section
/-! OBLIGATIONS. The tree BUILD makes of leaves is optimal (40_tree_builder R107). -/

namespace Sys2Proof.Machine

variable {count : Byte → Nat} {nodes : List Node} {l : List Nat} {k : Nat} {n : Node} {s u : State}

/-! ### The leaves BUILD starts from -/

theorem treeAt_of_leaf (hn : nodes[k]? = some n) (hk : n.kind = .leaf) : treeAt nodes k = .leaf n.sym := by
  have hpos := (List.getElem?_eq_some_iff.1 hn).1
  refine treeAt_of_readTree ?_
  rw [← Nat.sub_add_cancel (Nat.one_le_of_lt hpos)]
  exact readTree_leaf hn hk

/-- Every entry of a list is a leaf whose weight is its symbol's count. -/
def CountedLeaves (count : Byte → Nat) (nodes : List Node) (l : List Nat) : Prop :=
  ∀ k ∈ l, ∃ x, treeAt nodes k = .leaf x ∧ (weightAt nodes k).toNat = count x

theorem CountedLeaves.listWeights_eq (h : CountedLeaves count nodes l) :
    listWeights nodes l = ((listTrees nodes l).flatMap leaves).map count := by
  induction l with
  | nil => rfl
  | cons k l ih =>
    obtain ⟨⟨x, htree, hweight⟩, hl⟩ := List.forall_mem_cons.1 h
    have hrest := ih hl
    simp only [listWeights, listTrees, List.map_cons, List.flatMap_cons, List.map_append] at hrest ⊢
    rw [← hrest, htree, hweight]
    rfl

/-! ### The invariant of the rounds -/

/-- `u` is `s` after some rounds of an optimal choice: what its trees have cost so far, with the cost of some assignment
of its weights to the leaf depths of a tree, is no more than any assignment of the weights of `s` costs. -/
structure Optimal (count : Byte → Nat) (s u : State) : Prop where
  read : AllRead u.nodes u.list
  weights : listWeights u.nodes u.list = (listTrees u.nodes u.list).map (treeWeight count)
  below : ∀ v Q, Q.map Prod.fst = depths v → Q.map Prod.snd = (listWeights s.nodes s.list : Multiset ℕ) →
    ∃ v' Q', Q'.map Prod.fst = depths v' ∧ Q'.map Prod.snd = (listWeights u.nodes u.list : Multiset ℕ) ∧
      ((listTrees u.nodes u.list).map (weightedLength count)).sum + cost Q' ≤ cost Q

theorem Optimal.of_leaves (hall : AllRead s.nodes s.list) (h : CountedLeaves count s.nodes s.list) :
    Optimal count s s := by
  refine ⟨hall, ?_, fun v Q hd hw => ⟨v, Q, hd, hw, ?_⟩⟩
  · rw [listWeights, listTrees, List.map_map]
    refine List.map_congr_left fun k hk => ?_
    obtain ⟨x, htree, hweight⟩ := h k hk
    rw [hweight, Function.comp_apply, htree]
    simp [treeWeight, leaves]
  · have hzero : ((listTrees s.nodes s.list).map (weightedLength count)).sum = 0 := by
      refine List.sum_eq_zero fun c hc => ?_
      simp only [listTrees, List.map_map, List.mem_map, Function.comp_apply] at hc
      obtain ⟨k, hk, rfl⟩ := hc
      obtain ⟨x, htree, -⟩ := h k hk
      rw [htree]
      simp [weightedLength, leafPaths]
    rw [hzero, Nat.zero_add]

theorem Optimal.weight_eq (h : Optimal count s u) (hk : k ∈ u.list) :
    (weightAt u.nodes k).toNat = treeWeight count (treeAt u.nodes k) := by
  have hweights := h.weights
  rw [listWeights, listTrees, List.map_map] at hweights
  exact List.map_inj_left.1 hweights k hk

/-- An entry that is lightest among positions with `p` is no heavier than an entry at one. -/
theorem LightestAt.weight_le {p : Nat → Prop} {i j a : Nat} (h : LightestAt (listWeights nodes l) p i)
    (ha : l[i]? = some a) (hp : p j) (hk : l[j]? = some k) :
    (weightAt nodes a).toNat ≤ (weightAt nodes k).toNat := by
  obtain ⟨-, w, hw, hleast⟩ := h
  obtain rfl : (weightAt nodes a).toNat = w := Option.some.inj ((listWeights_getElem? ha).symm.trans hw)
  exact (hleast j _ hp (listWeights_getElem? hk)).1

theorem exists_position_of_mem_eraseTwo {i j : Nat} (hij : i ≠ j) (hk : k ∈ eraseTwo l i j) :
    ∃ m, m ≠ i ∧ l[m]? = some k := by
  rw [← filterMap_range_eq_eraseTwo l hij, List.mem_filterMap] at hk
  obtain ⟨m, -, hm⟩ := hk
  split at hm
  · cases hm
  · next hne => exact ⟨m, fun h => hne (.inl h), hm⟩

/-- The second selected entry is no lighter than the first, and no heavier than the rest. -/
theorem Selected.lightest {i j a b : Nat} (h : Selected u i j a b) :
    (weightAt u.nodes a).toNat ≤ (weightAt u.nodes b).toNat ∧
      ∀ w ∈ listWeights u.nodes (eraseTwo u.list i j), (weightAt u.nodes b).toNat ≤ w := by
  refine ⟨h.fst.weight_le h.fst_entry trivial h.snd_entry, fun w hw => ?_⟩
  obtain ⟨k, hk, rfl⟩ := List.mem_map.1 hw
  obtain ⟨m, hm, hmk⟩ := exists_position_of_mem_eraseTwo h.ne hk
  exact h.snd.weight_le h.snd_entry hm hmk

theorem mergeKeeps_optimal : MergeKeeps (Optimal count s) := by
  intro u t h htwo hstep
  obtain ⟨i, j, a, b, hall, hsel, hsum, ht⟩ := mergeStep_done_selected htwo hstep
  obtain ⟨hread, htrees⟩ := hsel.trees_merged h.read ht
  have hweights := hsel.listWeights_merged hall hsum ht
  have ha := h.weight_eq hsel.fst_mem
  have hb := h.weight_eq hsel.snd_mem
  have hrest : listWeights u.nodes (eraseTwo u.list i j) =
      (listTrees u.nodes (eraseTwo u.list i j)).map (treeWeight count) := by
    rw [listWeights, listTrees, List.map_map]
    exact List.map_congr_left fun k hk => h.weight_eq (hsel.mem_of_mem_eraseTwo hk)
  refine ⟨hread, ?_, fun v Q hd hw => ?_⟩
  · rw [hweights, htrees, List.map_append, hrest, List.map_singleton, treeWeight_node, ha, hb]
  · obtain ⟨v', Q', hd', hw', hcost'⟩ := h.below v Q hd hw
    rw [Multiset.coe_eq_coe.2 hsel.perm_weights, ← Multiset.cons_coe, ← Multiset.cons_coe] at hw'
    obtain ⟨hab, hleast⟩ := hsel.lightest
    obtain ⟨v'', Q'', hd'', hw'', hcost''⟩ := exists_merged_assignment hd' hw' hab hleast
    refine ⟨v'', Q'', hd'', ?_, ?_⟩
    · rw [hw'', hweights]
      exact Multiset.coe_eq_coe.2 (List.perm_append_comm (l₁ := [_]))
    · have htotal := (hsel.perm_trees.map (weightedLength count)).sum_eq
      rw [List.map_cons, List.map_cons, List.sum_cons, List.sum_cons] at htotal
      rw [htrees, List.map_append, List.sum_append, List.map_singleton, List.sum_singleton, weightedLength_node,
        ← ha, ← hb]
      omega

/-- Settles O18: every round keeps `Optimal`, and the tree `v` is one assignment of the counts. -/
theorem builtTreeIsOptimal : Obligations.BuiltTreeIsOptimal := by
  intro s t count trees u v _ hl hforest _ hleaves hbuild herr hu hperm
  obtain ⟨hall, rfl⟩ := forestOf_eq_some.1 hforest
  have hne : s.list ≠ [] := List.ne_nil_of_length_pos (by omega)
  have hcounted : CountedLeaves count s.nodes s.list := by
    intro k hk
    obtain ⟨n, hn, hkind, hweight⟩ := hleaves k hk
    exact ⟨n.sym, treeAt_of_leaf hn hkind, by rw [weightAt_of_getElem? hn, hweight]⟩
  have hkeeps : MergeKeeps fun w => LeavesKept s w ∧ Optimal count s w := fun w w' hw htwo hstep =>
    ⟨mergeKeeps_leavesKept w w' hw.1 htwo hstep, mergeKeeps_optimal w w' hw.2 htwo hstep⟩
  obtain ⟨w, k, ⟨⟨hread, hkept⟩, hopt⟩, hk, rfl⟩ :=
    exec_build_keeps hkeeps ⟨⟨hall, List.Perm.refl _⟩, Optimal.of_leaves hall hcounted⟩ hne hbuild herr
  obtain rfl : treeAt w.nodes k = u := Option.some.inj ((treeOf_setRoot hread hk).symm.trans hu)
  rw [hk, listTrees, List.map_singleton, List.flatMap_singleton] at hkept
  have hcounts : (assignment count v).map Prod.snd = (listWeights s.nodes s.list : Multiset ℕ) := by
    rw [assignment_weights, hcounted.listWeights_eq]
    exact Multiset.coe_eq_coe.2 ((hperm.trans hkept).map count)
  obtain ⟨v', Q', -, -, hcost⟩ := hopt.below v _ (assignment_depths count v) hcounts
  rw [hk, listTrees, List.map_singleton, List.map_singleton, List.sum_singleton, cost_assignment] at hcost
  exact (Nat.le_add_right ..).trans hcost

end Sys2Proof.Machine
end

section
/-! OBLIGATIONS. Where GEN_CODES completes and where it stops (41_code_table R120, R121). A walk of a tree is the same as
a walk of its leaves, one after another in Walk's order, so what it comes to is read off the list `leafPaths`. -/

namespace Sys2Proof.Machine

variable {s t : State} {tr : CodeTree} {p q : Code} {x y : Byte} {n : Nat} {l : List (Code × Byte)}

/-! ### The walk, leaf by leaf -/

theorem walk_leaf_good (hlen : p.length ≤ 255) (hfree : codeOf s x = none) :
    walk (.leaf x) p n s = .done (n + 1) (setCode x p s) := by
  rw [walk, Config.maxCodeLen, if_neg (Nat.not_lt.2 hlen), if_neg (by simp [hfree])]

theorem walk_leaf_bad (h : 255 < p.length ∨ (codeOf s x).isSome = true) :
    walk (.leaf x) p n s =
      .raised (if 255 < p.length then .codeTooLong else .duplicateSymbol) (invalidateCT s) := by
  rw [walk, Config.maxCodeLen]
  by_cases hlen : 255 < p.length
  · rw [if_pos hlen, if_pos hlen]
  · rw [if_neg hlen, if_neg hlen, if_pos (h.resolve_left hlen)]

/-- The walks of single leaves, one after another, each leaf with its path. -/
def walkLeaves : List (Code × Byte) → Nat → State → Cmd Nat
  | [], n, s => .done n s
  | (p, x) :: l, n, s => (walk (.leaf x) p n s).andThen fun n' t => walkLeaves l n' t

theorem walkLeaves_append (l l' : List (Code × Byte)) (n : Nat) (s : State) :
    walkLeaves (l ++ l') n s = (walkLeaves l n s).andThen fun n' t => walkLeaves l' n' t := by
  induction l generalizing n s with
  | nil => rfl
  | cons q l ih =>
    rw [List.cons_append, walkLeaves, walkLeaves]
    cases walk (.leaf q.2) q.1 n s with
    | done m t => exact ih m t
    | raised e t => rfl
    | broken => rfl

theorem walk_eq_walkLeaves (tr : CodeTree) (p : Code) (n : Nat) (s : State) :
    walk tr p n s = walkLeaves (leafPaths tr p) n s := by
  induction tr generalizing p n s with
  | leaf x =>
    rw [leafPaths, walkLeaves]
    cases walk (.leaf x) p n s <;> rfl
  | node l r ihl ihr => simp only [walk, leafPaths, walkLeaves_append, ihl, ihr]

/-! ### A list of leaves without a bad one -/

/-- The state with the path of every leaf of a list written to the code table. -/
def recorded : List (Code × Byte) → State → State
  | [], s => s
  | (p, x) :: l, s => recorded l (setCode x p s)

theorem invalidateCT_recorded (l : List (Code × Byte)) (s : State) : invalidateCT (recorded l s) = invalidateCT s := by
  induction l generalizing s with
  | nil => rfl
  | cons q l ih => exact ih (setCode q.2 q.1 s)

theorem codeOf_recorded_isSome :
    (codeOf (recorded l s) y).isSome = true ↔ (codeOf s y).isSome = true ∨ y ∈ l.map Prod.snd := by
  induction l generalizing s with
  | nil => simp [recorded]
  | cons q l ih =>
    rw [recorded, ih, codeOf_setCode, List.map_cons, List.mem_cons]
    by_cases h : y = q.2 <;> simp [h]

/-- Leaves that are not too deep, with different symbols that have no code yet, are all written. -/
theorem walkLeaves_good (hlen : ∀ q ∈ l, q.1.length ≤ 255) (hdistinct : (l.map Prod.snd).Nodup)
    (hfree : ∀ y ∈ l.map Prod.snd, codeOf s y = none) :
    walkLeaves l n s = .done (n + l.length) (recorded l s) := by
  induction l generalizing n s with
  | nil => rfl
  | cons q l ih =>
    obtain ⟨hq, hl⟩ := List.forall_mem_cons.1 hlen
    rw [List.map_cons] at hdistinct hfree
    obtain ⟨hnew, hrest⟩ := List.nodup_cons.1 hdistinct
    obtain ⟨hqfree, hlfree⟩ := List.forall_mem_cons.1 hfree
    have hfree' : ∀ y ∈ l.map Prod.snd, codeOf (setCode q.2 q.1 s) y = none := fun y hy => by
      rw [codeOf_setCode, if_neg (ne_of_mem_of_not_mem hy hnew), hlfree y hy]
    rw [walkLeaves, walk_leaf_good hq hqfree, andThen_done, ih hl hrest hfree', List.length_cons]
    congr 1
    omega

/-! ### GEN_CODES -/

theorem exec_genCodes_of_tree (hv : s.rootValid = true) (htr : treeOf s s.root = some tr) :
    exec .genCodes s = finish Opcode.genCodes ((walk tr [] 0 (invalidateCT s)).andThen fun n u =>
      .done () (codesGenerated u.ct (BitVec.ofNat 64 n) u)) := by
  rw [exec, execGenCodes, if_neg (by simp [hv]), htr]
  rfl

/-- A walk that GEN_CODES completes has made the table of its tree, and has changed nothing else. -/
theorem walk_eq_done (h : walk tr [] 0 (invalidateCT s) = .done n t) :
    t = { invalidateCT s with ct := t.ct } ∧ ∀ x q, codeOf t x = some q ↔ LeafAt tr q x := by
  have hw := walk_spec tr [] 0 (invalidateCT s)
  rw [h] at hw
  obtain ⟨ht, hcodes⟩ := hw
  exact ⟨ht, fun x q => by simp [leafAt_iff_mem, hcodes]⟩

/-- Settles O21: no leaf of the tree is bad, so the walk of its leaves completes. -/
theorem genCodesRecordsThePaths : Obligations.GenCodesRecordsThePaths := by
  intro s tr hv htr hdistinct hdepth
  have hwalk : walk tr [] 0 (invalidateCT s) =
      .done (leaves tr).length (recorded (leafPaths tr []) (invalidateCT s)) := by
    rw [walk_eq_walkLeaves, walkLeaves_good (fun q hq => hdepth q.1 q.2 (leafAt_iff_mem.2 hq))
      (by rwa [leafPaths_map_snd]) (fun y _ => codeOf_invalidateCT s y), Nat.zero_add, ← leafPaths_map_snd tr [],
      List.length_map]
  have hexec := exec_genCodes_of_tree hv htr
  rw [hwalk, andThen_done, finish_done] at hexec
  obtain ⟨hframe, hcodes⟩ := walk_eq_done hwalk
  refine ⟨_, hexec, ?_, hcodes⟩
  rw [hframe]
  rfl

/-- Settles O22: the leaves before the bad one are written, so its symbol has a code exactly where it repeats one of
theirs, and the table that its failed check invalidates is the only thing they changed. -/
theorem genCodesStopsAtTheFirstBadLeaf : Obligations.GenCodesStopsAtTheFirstBadLeaf := by
  intro s tr good rest p x hv htr hpaths hlen hdistinct hbad
  have hbad' : 255 < p.length ∨ (codeOf (recorded good (invalidateCT s)) x).isSome = true :=
    hbad.imp_right fun hx => codeOf_recorded_isSome.2 (.inr hx)
  have hwalk : walk tr [] 0 (invalidateCT s) =
      .raised (if 255 < p.length then .codeTooLong else .duplicateSymbol) (invalidateCT s) := by
    rw [walk_eq_walkLeaves, hpaths, walkLeaves_append,
      walkLeaves_good hlen hdistinct (fun y _ => codeOf_invalidateCT s y), andThen_done, walkLeaves,
      walk_leaf_bad hbad', andThen_raised, invalidateCT_recorded]
    rfl
  have hexec := exec_genCodes_of_tree hv htr
  rw [hwalk, andThen_raised, finish_raised] at hexec
  exact ⟨_, hexec, rfl, codeOf_invalidateCT s⟩

end Sys2Proof.Machine
end

section
/-! OBLIGATIONS. What the table of a successful GEN_CODES is good for: its codes are free of prefixes (41_code_table R123),
and packing refuses the symbols that are not in the tree (R124). -/

namespace Sys2Proof.Machine

variable {s t : State} {tr : CodeTree} {p q : Code} {x y : Byte}

/-- A GEN_CODES that raised no error has made the table of the tree at ROOT, which it has not changed. -/
theorem exec_genCodes_completed (h : exec .genCodes s = .next t) (herr : t.err = none) :
    ∃ tr, treeOf t t.root = some tr ∧ ∀ x q, codeOf t x = some q ↔ LeafAt tr q x := by
  rw [exec, execGenCodes, finish_eq_next] at h
  obtain ⟨a, h⟩ | ⟨e, u, -, rfl⟩ := h
  · split at h
    · cases h
    · split at h
      · cases h
      · next tr htr =>
        obtain ⟨n, u, hwalk, h⟩ := andThen_eq_done.1 h
        obtain ⟨hframe, hcodes⟩ := walk_eq_done hwalk
        obtain rfl := (Cmd.done.inj h).2
        refine ⟨tr, ?_, hcodes⟩
        rw [hframe]
        exact htr
  · cases herr

/-- The path to a leaf goes no further, so it begins no path to a different symbol. -/
theorem LeafAt.sym_eq_of_isPrefix (hp : LeafAt tr p x) (hq : LeafAt tr q y) (hpq : p.IsPrefix q) : x = y := by
  obtain ⟨r, rfl⟩ := hpq
  rw [LeafAt, follow_append, hp, Option.bind_some] at hq
  cases r with
  | nil => cases hq; rfl
  | cons => cases hq

/-- Settles O23: the codes are paths to leaves of one tree. -/
theorem generatedCodesAreFreeOfPrefixes : Obligations.GeneratedCodesAreFreeOfPrefixes := by
  intro s t x y p q _ hexec herr hx hy hne hpq
  obtain ⟨tr, -, hcodes⟩ := exec_genCodes_completed hexec herr
  exact hne (LeafAt.sym_eq_of_isPrefix ((hcodes x p).1 hx) ((hcodes y q).1 hy) hpq)

/-! ### Packing a symbol without a code (43_bit_packer R153, R154) -/

theorem packSym_of_invalid (h : codeOf s x = none) : packSym x s = .raised .symbolNotInTable s := by
  rw [packSym, h]

theorem packLoop_of_invalid {n m : Nat} (hx : s.inBuf[s.rdPtr.toNat]? = some x) (h : codeOf s x = none) :
    packLoop (n + 1) m s = .raised .symbolNotInTable s := by
  rw [packLoop, inByte, hx]
  exact congrArg (Cmd.andThen · _) (packSym_of_invalid h)

/-- Settles O24: the symbols with codes are those with a path in the tree, and the others are the packer's invalid
entries. -/
theorem tableCoversTheLeaves : Obligations.TableCoversTheLeaves := by
  intro s t tr _ hexec herr htr x
  obtain ⟨tr', htr', hcodes⟩ := exec_genCodes_completed hexec herr
  obtain rfl : tr' = tr := Option.some.inj (htr'.symm.trans htr)
  have hvalid : (codeOf t x).isSome = true ↔ x ∈ leaves tr' := by
    simp only [Option.isSome_iff_exists, hcodes, mem_leaves]
  refine ⟨hvalid, fun hx => ?_⟩
  have hinvalid : codeOf t x = none := Option.not_isSome_iff_eq_none.1 (mt hvalid.1 hx)
  refine ⟨?_, fun harg hin => ?_⟩
  · rw [exec, execPackSymbol, packSym_of_invalid hinvalid]
    rfl
  · obtain ⟨n, hn⟩ : ∃ n, argNat t = n + 1 :=
      Nat.exists_eq_succ_of_ne_zero fun h => harg (BitVec.eq_of_toNat_eq h)
    rw [exec, execPackStream, hn, packLoop_of_invalid (s := { t with result := 0#64 }) hin hinvalid]
    rfl

end Sys2Proof.Machine
end

section
/-! SUPPORT. The tree strings under the scanner and Parse (42_tree_serdes R140, R145, R146, R150): each is cut at its
brackets, and Parse lays the one tree it stands for out behind the arena, or finds the arena full. -/

namespace Sys2Proof.Machine

variable {a b bs : List Byte} {t u l r : CodeTree} {s : State} {fuel : Nat} {x y : Byte}

/-! ### The scanner on tree strings (R145) -/

theorem not_special_iff : isSpecial x = false ↔ x ≠ byteLB ∧ x ≠ byteBS ∧ x ≠ byteRB := by
  simp [isSpecial, and_assoc]

theorem scanBracket_escape (d : Nat) (rest : List Byte) :
    scanBracket d (byteBS :: x :: rest) = (scanBracket d rest).map (· + 2) := by
  rw [scanBracket, if_pos rfl]

theorem scanBracket_open (d : Nat) (rest : List Byte) :
    scanBracket d (byteLB :: rest) = (scanBracket (d + 1) rest).map (· + 1) := by
  rw [scanBracket.eq_def]
  exact (if_neg (by decide)).trans (if_pos rfl)

theorem scanBracket_close (d : Nat) (rest : List Byte) :
    scanBracket d (byteRB :: rest) = if d - 1 = 0 then some 1 else (scanBracket (d - 1) rest).map (· + 1) := by
  rw [scanBracket.eq_def]
  exact (if_neg (by decide)).trans ((if_neg (by decide)).trans (if_pos rfl))

theorem scanBracket_plain (h : isSpecial x = false) (d : Nat) (rest : List Byte) :
    scanBracket d (x :: rest) = (scanBracket d rest).map (· + 1) := by
  obtain ⟨hlb, hbs, hrb⟩ := not_special_iff.1 h
  rw [scanBracket.eq_def]
  exact (if_neg hbs).trans ((if_neg hlb).trans (if_neg hrb))

/-- Inside a bracket the scan passes over a whole tree string at the depth it meets it. -/
theorem scanBracket_treeString (h : TreeString a t) (d : Nat) (rest : List Byte) :
    scanBracket (d + 1) (a ++ rest) = (scanBracket (d + 1) rest).map (· + a.length) := by
  induction h generalizing d rest with
  | plain x hx => exact scanBracket_plain hx _ _
  | escaped x => exact scanBracket_escape _ _
  | internal a b l r _ _ iha ihb =>
    have hassoc : byteLB :: (a ++ b) ++ [byteRB] ++ rest = byteLB :: (a ++ (b ++ byteRB :: rest)) := by simp
    rw [hassoc, scanBracket_open, iha, ihb, scanBracket_close, if_neg (by omega), Nat.add_sub_cancel]
    simp only [Option.map_map]
    congr 1
    funext n
    simp only [Function.comp_apply, List.length_append, List.length_cons, List.length_nil]
    omega

theorem scanToken_open (rest : List Byte) : scanToken (byteLB :: rest) = scanBracket 0 (byteLB :: rest) := by
  rw [scanToken.eq_def]
  exact (if_neg (by decide)).trans ((if_neg (by decide)).trans (if_neg (by simp)))

/-- A token that starts with a tree string is that tree string. -/
theorem scanToken_treeString (h : TreeString a t) (rest : List Byte) : scanToken (a ++ rest) = some a.length := by
  cases h with
  | plain x hx =>
    obtain ⟨hlb, hbs, hrb⟩ := not_special_iff.1 hx
    rw [List.singleton_append, scanToken.eq_def]
    exact (if_neg hbs).trans ((if_neg hrb).trans (if_pos hlb))
  | escaped x => rfl
  | internal a b l r ha hb =>
    have hassoc : byteLB :: (a ++ b) ++ [byteRB] ++ rest = byteLB :: (a ++ (b ++ byteRB :: rest)) := by simp
    rw [hassoc, scanToken_open, scanBracket_open, scanBracket_treeString ha, scanBracket_treeString hb,
      scanBracket_close, if_pos rfl]
    simp only [Option.map_some, List.length_append, List.length_cons, List.length_nil, Option.some_inj]
    omega

theorem TreeString.exists_cons (h : TreeString a t) : ∃ x a', a = x :: a' := by
  cases h <;> exact ⟨_, _, rfl⟩

theorem TreeString.length_pos (h : TreeString a t) : 1 ≤ a.length := by
  cases h <;> simp

/-! ### The range checks on tree strings (R146) -/

/-- A tree string at the front of a range is its first token. -/
theorem tokenise_treeString (h : TreeString a t) (n : Nat) (rest : List Byte) :
    tokenise (n + 1) (a ++ rest) = (tokenise n rest).map (a :: ·) := by
  have hscan := scanToken_treeString h rest
  obtain ⟨x, a', rfl⟩ := h.exists_cons
  rw [List.cons_append] at hscan
  simp only [List.cons_append, tokenise, hscan]
  rw [← List.cons_append, List.drop_left, List.take_left]

theorem tokenise_pair (ha : TreeString a l) (hb : TreeString b r) :
    tokenise (a ++ b).length (a ++ b) = some [a, b] := by
  obtain ⟨n, hn⟩ : ∃ n, (a ++ b).length = n + 2 := by
    obtain ⟨x, a', rfl⟩ := ha.exists_cons
    obtain ⟨y, b', rfl⟩ := hb.exists_cons
    exact ⟨a'.length + b'.length, by simp only [List.length_append, List.length_cons]; omega⟩
  have htail : tokenise (n + 1) b = some [b] := by
    rw [← List.append_nil b, tokenise_treeString hb, tokenise, List.append_nil]
    rfl
  rw [hn, tokenise_treeString ha, htail]
  rfl

theorem rangeForm_internal (ha : TreeString a l) (hb : TreeString b r) :
    rangeForm (byteLB :: (a ++ b) ++ [byteRB]) = .pair a b := by
  have htoks := tokenise_pair ha hb
  obtain ⟨x, a', rfl⟩ := ha.exists_cons
  have hdrop : (x :: (a' ++ b ++ [byteRB])).dropLast = x :: a' ++ b := by
    rw [← List.cons_append, List.dropLast_concat, List.cons_append]
  have hlast : (byteLB :: x :: (a' ++ b ++ [byteRB])).getLast? = some byteRB := by
    rw [← List.cons_append, ← List.cons_append, List.getLast?_concat]
  simp only [List.cons_append, rangeForm] at hdrop hlast htoks ⊢
  rw [if_neg (fun h => absurd h.1 (by decide)), if_neg (fun h => h.elim (· rfl) (· hlast)), hdrop, htoks]

theorem length_of_rangeForm_pair (h : rangeForm bs = .pair a b) : bs.length = a.length + b.length + 2 := by
  simp [rangeForm_pair h, Nat.add_assoc]

/-- The leaf form is the two leaf productions of the grammar (R140, R150). -/
theorem rangeForm_eq_leaf : rangeForm bs = .leaf x ↔ TreeString bs (.leaf x) := by
  constructor
  · intro h
    unfold rangeForm at h
    split at h
    · cases h
    · split at h
      · cases h
      · cases h
        exact .plain _ (eq_false_of_ne_true ‹_›)
    · split at h
      · next hescape =>
        obtain ⟨rfl, rfl⟩ := hescape
        cases h
        exact .escaped _
      · split at h
        · cases h
        · split at h <;> cases h
  · intro h
    cases h with
    | plain _ hx => simp [rangeForm, hx]
    | escaped _ => rfl

/-- The string of an internal node has the pair form, its two tokens the strings of the children. -/
theorem TreeString.rangeForm_node (h : TreeString bs (.node l r)) :
    ∃ a b, rangeForm bs = .pair a b ∧ TreeString a l ∧ TreeString b r := by
  cases h with
  | internal a b _ _ ha hb => exact ⟨a, b, rangeForm_internal ha hb, ha, hb⟩

/-- Parse completes on tree strings alone. -/
theorem treeString_of_parse_eq_done {k : Nat} {v : State} (h : parse fuel bs s = .done k v) :
    ∃ t, TreeString bs t := by
  induction fuel generalizing bs s k v with
  | zero => cases h
  | succ fuel ih =>
    cases hf : rangeForm bs with
    | malformed => simp [parse, hf] at h
    | leaf x => exact ⟨_, rangeForm_eq_leaf.1 hf⟩
    | pair a b =>
      simp only [parse, hf, andThen_eq_done] at h
      obtain ⟨_, _, -, _, _, ha, _, _, hb, -⟩ := h
      obtain ⟨l, hl⟩ := ih ha
      obtain ⟨r, hr⟩ := ih hb
      exact ⟨.node l r, rangeForm_pair hf ▸ TreeString.internal a b l r hl hr⟩

/-! ### Parse of a tree string (R146) -/

/-- SYM_PRESENT set for every symbol of a list (10_state R48). -/
def markAll (xs : List Byte) (s : State) : State :=
  { s with symPresent := xs.foldl (fun m x => m ||| BitVec.twoPow 256 x.toNat) s.symPresent }

theorem isPresent_markAll (xs : List Byte) (s : State) (y : Byte) :
    isPresent (markAll xs s) y = (isPresent s y || decide (y ∈ xs)) := by
  induction xs generalizing s with
  | nil => simp [markAll]
  | cons x xs ih =>
    have hcons : markAll (x :: xs) s = markAll xs (markPresent x s) := rfl
    rw [hcons, ih, isPresent_markPresent, Bool.or_assoc]
    congr 1
    by_cases h : y = x <;> simp [h]

/-- What a completed Parse leaves: the tree in preorder behind the arena, and its symbols marked. -/
def planted (t : CodeTree) (s : State) : State :=
  { markAll (leaves t) s with nodes := s.nodes ++ preorder t s.nodes.length }

@[simp] theorem planted_cfg (t : CodeTree) (s : State) : (planted t s).cfg = s.cfg := rfl
@[simp] theorem planted_nodes_length (t : CodeTree) (s : State) :
    (planted t s).nodes.length = s.nodes.length + treeSize t := by
  simp [planted]

/-- In an empty arena the planted tree stands at entry 0. -/
theorem treeOf_planted (h : s.nodes = []) : treeOf (planted t s) 0 = some t := by
  simpa [treeOf, planted, h] using readTree_preorder t [] [] (treeSize t) le_rfl

/-- The arena with the entry Parse allocates for an internal node before it knows the children. -/
def opened (s : State) : State := { s with nodes := s.nodes ++ [⟨.internal, 0#8, 0#64, 0, 0⟩] }

@[simp] theorem opened_cfg (s : State) : (opened s).cfg = s.cfg := rfl
@[simp] theorem opened_nodes_length (s : State) : (opened s).nodes.length = s.nodes.length + 1 := by
  simp [opened]

/-- Two subtrees planted behind an opened entry are the tree of that entry, once it is given its children. -/
theorem setChildren_planted (l r : CodeTree) (s : State) :
    setChildren s.nodes.length (s.nodes.length + 1) (s.nodes.length + 1 + treeSize l)
      (planted r (planted l (opened s))) = planted (.node l r) s := by
  simp only [setChildren, planted, markAll, opened, leaves, preorder, List.foldl_append]
  congr 1
  simp [List.modify_eq_take_drop, Nat.add_comm 1, Nat.add_assoc]

theorem parse_leaf (hf : rangeForm bs = .leaf x) :
    parse (fuel + 1) bs s = allocNode .leaf x 0#64 0 0 (markPresent x s) := by
  rw [parse, hf]

theorem parse_pair (hf : rangeForm bs = .pair a b) (hroom : s.nodes.length ≠ s.cfg.nodeCap) :
    parse (fuel + 1) bs s = (parse fuel a (opened s)).andThen fun i u => (parse fuel b u).andThen fun j v =>
      .done s.nodes.length (setChildren s.nodes.length i j v) := by
  rw [parse, hf]
  simp only [allocNode_eq_done.2 ⟨hroom, rfl, rfl⟩, andThen_done]
  rfl

theorem parse_pair_full (hf : rangeForm bs = .pair a b) (hfull : s.nodes.length = s.cfg.nodeCap) :
    parse (fuel + 1) bs s = .raised .capacityExceeded s := by
  rw [parse, hf]
  simp only [allocNode_eq_raised.2 ⟨hfull, rfl, rfl⟩, andThen_raised]

/-- Parse of a tree string whose tree fits the arena. -/
theorem parse_treeString (h : TreeString bs t) (hfuel : bs.length ≤ fuel)
    (hfit : s.nodes.length + treeSize t ≤ s.cfg.nodeCap) : parse fuel bs s = .done s.nodes.length (planted t s) := by
  induction t generalizing bs s fuel with
  | leaf x =>
    have hf := rangeForm_eq_leaf.2 h
    obtain ⟨fuel, rfl⟩ := Nat.exists_eq_add_of_le' (h.length_pos.trans hfuel)
    simp only [treeSize] at hfit
    rw [parse_leaf hf]
    exact allocNode_eq_done.2 ⟨by simp only [markPresent_nodes, markPresent_cfg]; omega, rfl, rfl⟩
  | node l r ihl ihr =>
    obtain ⟨a, b, hf, ha, hb⟩ := h.rangeForm_node
    obtain ⟨fuel, rfl⟩ := Nat.exists_eq_add_of_le' (h.length_pos.trans hfuel)
    have hlen := length_of_rangeForm_pair hf
    simp only [treeSize] at hfit
    have hleft : (opened s).nodes.length + treeSize l ≤ (opened s).cfg.nodeCap := by
      rw [opened_nodes_length, opened_cfg]; omega
    have hright : (planted l (opened s)).nodes.length + treeSize r ≤ (planted l (opened s)).cfg.nodeCap := by
      rw [planted_nodes_length, planted_cfg, opened_nodes_length, opened_cfg]; omega
    rw [parse_pair hf (by omega), ihl ha (by omega) hleft, andThen_done, ihr hb (by omega) hright, andThen_done,
      planted_nodes_length, opened_nodes_length, setChildren_planted]

/-- Parse of a tree string whose tree does not fit the arena. -/
theorem parse_treeString_full (h : TreeString bs t) (hfuel : bs.length ≤ fuel)
    (hcap : s.nodes.length ≤ s.cfg.nodeCap) (hfull : s.cfg.nodeCap < s.nodes.length + treeSize t) :
    ∃ v, parse fuel bs s = .raised .capacityExceeded v := by
  induction t generalizing bs s fuel with
  | leaf x =>
    have hf := rangeForm_eq_leaf.2 h
    obtain ⟨fuel, rfl⟩ := Nat.exists_eq_add_of_le' (h.length_pos.trans hfuel)
    simp only [treeSize] at hfull
    rw [parse_leaf hf]
    exact ⟨_, allocNode_eq_raised.2 ⟨by simp only [markPresent_nodes, markPresent_cfg]; omega, rfl, rfl⟩⟩
  | node l r ihl ihr =>
    obtain ⟨a, b, hf, ha, hb⟩ := h.rangeForm_node
    obtain ⟨fuel, rfl⟩ := Nat.exists_eq_add_of_le' (h.length_pos.trans hfuel)
    have hlen := length_of_rangeForm_pair hf
    simp only [treeSize] at hfull
    obtain hroom | hroom := ne_or_eq s.nodes.length s.cfg.nodeCap
    · rw [parse_pair hf hroom]
      have hopened : (opened s).nodes.length ≤ (opened s).cfg.nodeCap := by
        rw [opened_nodes_length, opened_cfg]; omega
      obtain hleft | hleft := le_or_gt ((opened s).nodes.length + treeSize l) (opened s).cfg.nodeCap
      · rw [parse_treeString ha (by omega) hleft, andThen_done]
        obtain ⟨v, hv⟩ := ihr (s := planted l (opened s)) (fuel := fuel) hb (by omega)
          (by rwa [planted_nodes_length, planted_cfg])
          (by rw [planted_nodes_length, planted_cfg, opened_nodes_length, opened_cfg]; omega)
        exact ⟨v, by rw [hv, andThen_raised]⟩
      · obtain ⟨v, hv⟩ := ihl (s := opened s) (fuel := fuel) ha (by omega) hopened hleft
        exact ⟨v, by rw [hv, andThen_raised]⟩
    · exact ⟨s, parse_pair_full hf hroom⟩

/-- A string is the tree string of one tree: in an arena with room for both trees, Parse lays out one. -/
theorem TreeString.unique (ht : TreeString bs t) (hu : TreeString bs u) : t = u := by
  let s := State.resetWith { Config.defaultParams with nodeCap := treeSize t + treeSize u }
  have hparse := (parse_treeString (s := s) ht le_rfl (by simp [s, State.resetWith])).symm.trans
    (parse_treeString hu le_rfl (by simp [s, State.resetWith]))
  have hread := congrArg (treeOf · 0) (Cmd.done.inj hparse).2
  simpa only [treeOf_planted (s := s) rfl, Option.some_inj] using hread

end Sys2Proof.Machine
end

section
/-! OBLIGATIONS. The tree string of a tree, and the serializer and the deserializer on it (42_tree_serdes R141 to
R148). -/

namespace Sys2Proof.Machine

variable {bs : List Byte} {t l r : CodeTree} {s : State} {x : Byte}

/-! ### The tree string (R141, R142) -/

theorem isSpecial_iff_mem : isSpecial x = true ↔ x ∈ [0x5B#8, 0x5C#8, 0x5D#8] := by
  simp only [isSpecial, Bool.or_eq_true, decide_eq_true_eq, or_assoc, List.mem_cons, List.not_mem_nil, or_false]
  rfl

theorem ite_isSpecial {α : Type} (a b : α) :
    (if isSpecial x = true then a else b) = if x ∈ [0x5B#8, 0x5C#8, 0x5D#8] then a else b :=
  if_congr isSpecial_iff_mem rfl rfl

/-- The serializer emits strings of the grammar (R140). -/
theorem treeString_serBytes (t : CodeTree) : TreeString (serBytes t) t := by
  induction t with
  | leaf x =>
    rw [serBytes]
    split
    · exact .escaped x
    · exact .plain x (eq_false_of_ne_true ‹_›)
  | node l r ihl ihr => exact .internal _ _ l r ihl ihr

theorem serBytes_length (t : CodeTree) : (serBytes t).length = serLength t := by
  induction t with
  | leaf x =>
    rw [serBytes, serLength]
    split <;> rfl
  | node l r ihl ihr =>
    simp only [serBytes, serLength, List.length_append, List.length_cons, List.length_nil, ihl, ihr]
    omega

theorem serLength_eq (t : CodeTree) :
    serLength t =
      (leaves t).length + ((leaves t).filter fun x => isSpecial x).length + 2 * ((leaves t).length - 1) := by
  induction t with
  | leaf x => cases hx : isSpecial x <;> simp [serLength, leaves, hx]
  | node l r ihl ihr =>
    have hl := List.length_pos_of_ne_nil (leaves_ne_nil l)
    have hr := List.length_pos_of_ne_nil (leaves_ne_nil r)
    simp only [serLength, leaves, List.filter_append, List.length_append, ihl, ihr]
    omega

/-- There are 256 bytes. -/
theorem length_le_of_nodup {xs : List Byte} (h : xs.Nodup) : xs.length ≤ 256 := by
  have hsub : xs.map BitVec.toNat ⊆ List.range 256 := fun n hn => by
    obtain ⟨x, -, rfl⟩ := List.mem_map.1 hn
    exact List.mem_range.2 x.isLt
  simpa using ((h.map fun _ _ => BitVec.eq_of_toNat_eq).subperm hsub).length_le

/-- Three of them are special. -/
theorem length_special_le_of_nodup {xs : List Byte} (h : xs.Nodup) : (xs.filter fun x => isSpecial x).length ≤ 3 :=
  ((h.filter _).subperm fun _ hx => isSpecial_iff_mem.1 (List.mem_filter.1 hx).2).length_le

/-- Settles O25: by induction over the tree; the tree string has one tree because Parse reads it back. -/
theorem treeStringHasItsLengthAndOneTree : Obligations.TreeStringHasItsLengthAndOneTree := by
  refine ⟨fun x => ite_isSpecial _ _, fun l r => by simp [serBytes, byteLB, byteRB], fun x => ite_isSpecial _ _,
    fun _ _ => rfl, fun t => ⟨serBytes_length t, serLength_eq t, fun hdistinct => ?_⟩, fun t u h => ?_⟩
  · have hall := length_le_of_nodup hdistinct
    have hspecial := length_special_le_of_nodup hdistinct
    rw [serLength_eq]
    omega
  · exact (treeString_serBytes t).unique (h ▸ treeString_serBytes u)

/-! ### SER_LEN and SERIALIZE (R143, R144) -/

theorem exec_serLen_of_tree (hv : s.rootValid = true) (ht : treeOf s s.root = some t) :
    exec .serLen s = .next { s with result := regWord (serLength t) } := by
  rw [exec, execSerLen, if_neg (by simp [hv]), ht]
  rfl

theorem exec_serialize_of_room (hv : s.rootValid = true) (ht : treeOf s s.root = some t)
    (hroom : outRoom s (serBytes t).length = true) :
    exec .serialize s = .next { s with out := s.out ++ serBytes t, result := regWord (serLength t) } := by
  rw [exec, execSerialize, if_neg (by simp [hv]), ht]
  simp only [← serBytes_length, hroom, outAppend_of_room hroom]
  rfl

theorem exec_serialize_of_full (hv : s.rootValid = true) (ht : treeOf s s.root = some t)
    (hfull : outRoom s (serBytes t).length = false) :
    exec .serialize s = .next (raiseError .capacityExceeded Opcode.serialize s) := by
  rw [exec, execSerialize, if_neg (by simp [hv]), ht]
  simp only [← serBytes_length, hfull]
  rfl

/-- Settles O26: the tree string is as long as the room SERIALIZE asks for. -/
theorem serializeAppendsTheTreeString : Obligations.SerializeAppendsTheTreeString := by
  intro s t hv ht
  rw [serBytes_length]
  refine ⟨treeString_serBytes t, exec_serLen_of_tree hv ht, fun hroom => ?_, fun hfull => ?_⟩
  · exact exec_serialize_of_room hv ht (by rwa [serBytes_length])
  · exact exec_serialize_of_full hv ht (by rwa [serBytes_length])

/-! ### DESERIALIZE (R147) -/

theorem exec_deserialize_of_done {u : State} (hin : memRead s s.rdPtr.toNat (argNat s) = some bs)
    (hparse : parse bs.length bs (treeClearState s) = .done 0 u) :
    exec .deserialize s = .next { setRoot 0 { u with list := [0] } with rdPtr := s.rdPtr + s.arg } := by
  rw [exec, execDeserialize, hin]
  simp only [hparse]
  rfl

/-- An error of Parse is latched over the cleared tree. -/
theorem exec_deserialize_of_raised {e : ErrorCode} {u : State} (hin : memRead s s.rdPtr.toNat (argNat s) = some bs)
    (hparse : parse bs.length bs (treeClearState s) = .raised e u) :
    exec .deserialize s = .next (raiseError e Opcode.deserialize (treeClearState s)) := by
  have hframe := parse_layout bs.length bs (treeClearState s) (Nat.zero_le _)
  rw [hparse] at hframe
  rw [exec, execDeserialize, hin]
  simp only [hparse, clearOnError, andThen_raised, finish_raised]
  rw [hframe]
  rfl

/-- Settles O27: Parse plants the tree in the cleared arena. -/
theorem deserializeLaysOutTheTree : Obligations.DeserializeLaysOutTheTree := by
  intro s bs t hstring hfit hlen hbytes
  have hin : memRead s s.rdPtr.toNat (argNat s) = some bs := memRead_eq_some.2 ⟨hlen, hbytes.symm⟩
  have hparse := parse_treeString (s := treeClearState s) hstring le_rfl (by simpa using hfit)
  refine ⟨_, exec_deserialize_of_done hin hparse, rfl,
    treeOf_planted (treeClearState_nodes s), fun x => ?_, codeOf_treeClearState s⟩
  exact (isPresent_markAll (leaves t) (treeClearState s) x).trans (by simp)

/-- Settles O28: Parse completes on tree strings alone, and its CAPACITY_EXCEEDED needs an arena with fewer entries
than the range has bytes. -/
theorem deserializeRefusesEverythingElse : Obligations.DeserializeRefusesEverythingElse := by
  refine ⟨fun s hlen => ?_, fun s bs hlen hbytes => ?_⟩
  · rw [exec, execDeserialize, argNat, memRead_eq_none.2 hlen]
    rfl
  have hin : memRead s s.rdPtr.toNat (argNat s) = some bs := memRead_eq_some.2 ⟨hlen, hbytes.symm⟩
  have hbad (hno : ∀ t, ¬ TreeString bs t) : ∃ e,
      exec .deserialize s = .next (raiseError e 0x32#8 (treeClearState s)) ∧
      (e = .malformedTreeString ∨ e = .capacityExceeded ∧ s.cfg.nodeCap < bs.length) := by
    have hspec := parse_spec bs.length bs (treeClearState s)
    cases hparse : parse bs.length bs (treeClearState s) with
    | done k u =>
      obtain ⟨t, ht⟩ := treeString_of_parse_eq_done hparse
      exact absurd ht (hno t)
    | raised e u => exact ⟨e, exec_deserialize_of_raised hin hparse, by simpa [hparse] using hspec⟩
    | broken => simp [hparse] at hspec
  refine ⟨fun hno hfit => ?_, fun hno _ => ?_, fun t hstring hfull => ?_⟩
  · obtain ⟨e, hexec, rfl | ⟨-, hcap⟩⟩ := hbad hno
    · exact hexec
    · omega
  · obtain ⟨e, hexec, rfl | ⟨rfl, -⟩⟩ := hbad hno
    · exact .inl hexec
    · exact .inr hexec
  · obtain ⟨u, hparse⟩ := parse_treeString_full (s := treeClearState s) hstring le_rfl (Nat.zero_le _)
      (by simpa using hfull)
    exact exec_deserialize_of_raised hin hparse

theorem preorder_weight (t : CodeTree) (k : Nat) : ∀ n ∈ preorder t k, n.weight = 0#64 := by
  induction t generalizing k with
  | leaf x => simp [preorder]
  | node l r ihl ihr =>
    rw [preorder, List.forall_mem_cons, List.forall_mem_append]
    exact ⟨rfl, ihl _, ihr _⟩

/-- Settles O29: what SERIALIZE emits is a string of the grammar for the same tree. -/
theorem deserializeOfSerializedIsTheTree : Obligations.DeserializeOfSerializedIsTheTree := by
  intro s u t _ _ _ hlen hbytes hfit
  obtain ⟨v, hexec, hv, htree, -⟩ := deserializeLaysOutTheTree u _ t (treeString_serBytes t) hfit hlen hbytes
  exact ⟨v, hexec, by rw [hv], by rw [hv], htree, by rw [hv]; exact preorder_weight t 0⟩

end Sys2Proof.Machine
end

section
/-! SUPPORT. The packer on bit sequences (43_bit_packer R151, R156, 10_state R37): the bytes a sequence is cut into, and
`packed`, which pushes a sequence at once, against PushBit. -/

namespace Sys2Proof.Machine

variable {s : State} {bits a b : Code} {i k n : Nat}

/-! ### Bits cut into bytes (R156) -/

theorem getLsbD_packedByte (bits : Code) (k : Nat) (hi : i < 8) :
    (packedByte bits k).getLsbD (7 - i) = bits.getD (8 * k + i) false := by
  rw [packedByte, BitVec.getLsbD_ofNat, testBit_foldl_bits (fun j => bits.getD (8 * k + j) false) hi]
  simp [show 7 - i < 8 by omega]

/-- A byte is the one cut from a sequence where the sequence holds its bits, its 0x80 bit first. -/
theorem eq_packedByte {acc : Byte} (h : ∀ i < 8, acc.getLsbD (7 - i) = bits.getD (8 * k + i) false) :
    acc = packedByte bits k := by
  refine BitVec.eq_of_getLsbD_eq fun j hj => ?_
  rw [show j = 7 - (7 - j) by omega, h (7 - j) (by omega), getLsbD_packedByte _ _ (by omega)]

theorem packedByte_of_length_le (h : bits.length ≤ 8 * k) : packedByte bits k = 0#8 := by
  refine (eq_packedByte fun i _ => ?_).symm
  rw [List.getD_eq_default _ _ (by omega), BitVec.getLsbD_zero]

theorem packedByte_append_of_lt (hk : 8 * (k + 1) ≤ a.length) : packedByte (a ++ b) k = packedByte a k := by
  refine eq_packedByte fun i hi => ?_
  rw [getLsbD_packedByte _ _ hi, List.getD_append _ _ _ _ (by omega)]

theorem packedByte_drop (bits : Code) (q k : Nat) : packedByte (bits.drop (8 * q)) k = packedByte bits (q + k) := by
  refine eq_packedByte fun i hi => ?_
  rw [getLsbD_packedByte _ _ hi, List.getD, List.getElem?_drop, Nat.mul_add, Nat.add_assoc]
  rfl

theorem packedPrefix_length (bits : Code) (n : Nat) : (packedPrefix bits n).length = n := by
  simp [packedPrefix]

theorem packedPrefix_succ (bits : Code) (n : Nat) :
    packedPrefix bits (n + 1) = packedPrefix bits n ++ [packedByte bits n] := by
  simp [packedPrefix, List.range_succ]

theorem packedPrefix_append_of_le (h : 8 * n ≤ a.length) : packedPrefix (a ++ b) n = packedPrefix a n := by
  refine List.map_congr_left fun k hk => packedByte_append_of_lt ?_
  have := List.mem_range.1 hk
  omega

theorem packedPrefix_add (bits : Code) (q n : Nat) :
    packedPrefix bits (q + n) = packedPrefix bits q ++ packedPrefix (bits.drop (8 * q)) n := by
  simp [packedPrefix, List.range_add, packedByte_drop]

/-! ### The bits the packer holds (10_state R37) -/

@[simp] theorem accBits_length (s : State) : (accBits s).length = s.cnt.val := by
  simp [accBits]

theorem getD_accBits (hs : PackerInvariant s) (hi : i < 8) : (accBits s).getD i false = s.acc.getLsbD (7 - i) := by
  by_cases hc : i < s.cnt.val
  · simp [accBits, List.getD, hc]
  · rw [List.getD_eq_default _ _ (by simpa using hc), hs _ (by omega)]

/-- With its unwritten bits 0, ACC is the byte its bits are cut into. -/
theorem acc_eq_packedByte (hs : PackerInvariant s) : s.acc = packedByte (accBits s) 0 :=
  eq_packedByte fun i hi => by rw [Nat.mul_zero, Nat.zero_add, getD_accBits hs hi]

/-- ACC with the next bit written is the byte the bits with the next one are cut into. -/
theorem writeBit_eq_packedByte (hs : PackerInvariant s) (b : Bool) :
    writeBit s.acc (7 - s.cnt.val) b = packedByte (accBits s ++ [b]) 0 := by
  refine eq_packedByte fun i hi => ?_
  rw [getLsbD_writeBit _ _ (by omega) (by omega), Nat.mul_zero, Nat.zero_add, ← getD_accBits hs hi]
  obtain hlt | rfl | hgt := Nat.lt_trichotomy i s.cnt.val
  · rw [if_neg (by omega), List.getD_append _ _ _ _ (by simpa using hlt)]
  · simp [List.getD]
  · rw [if_neg (by omega), List.getD_eq_default _ _ (by simpa using hgt.le),
      List.getD_eq_default _ _ (by simpa using hgt)]

/-! ### Pushing a sequence at once -/

@[simp] theorem packed_out (bits : Code) (s : State) :
    (packed bits s).out = s.out ++ packedPrefix (accBits s ++ bits) ((s.cnt.val + bits.length) / 8) := by
  simp [packed]
@[simp] theorem packed_acc (bits : Code) (s : State) :
    (packed bits s).acc = packedByte (accBits s ++ bits) ((s.cnt.val + bits.length) / 8) := by
  simp [packed]
@[simp] theorem packed_cnt (bits : Code) (s : State) :
    (packed bits s).cnt.val = (s.cnt.val + bits.length) % 8 := by
  simp [packed]

/-- Where a sequence's bits are pushed one after another, the packer holds those behind its last whole byte. -/
theorem accBits_packed (bits : Code) (s : State) :
    accBits (packed bits s) = (accBits s ++ bits).drop (8 * ((s.cnt.val + bits.length) / 8)) := by
  refine List.ext_getElem (by simp; omega) fun i hi _ => ?_
  rw [accBits_length, packed_cnt] at hi
  rw [List.getElem_drop, ← List.getD_eq_getElem (accBits s ++ bits) false, ← getLsbD_packedByte _ _ (by omega),
    ← packed_acc]
  simp [accBits]

theorem packed_nil (hs : PackerInvariant s) : packed [] s = s := by
  have hq : s.cnt.val / 8 = 0 := Nat.div_eq_of_lt s.cnt.isLt
  simp [packed, hq, ← acc_eq_packedByte hs, packedPrefix]

theorem packed_append (a b : Code) (s : State) : packed (a ++ b) s = packed b (packed a s) := by
  have hle : 8 * ((s.cnt.val + a.length) / 8) ≤ (accBits s ++ a).length := by simp; omega
  have hq : (s.cnt.val + (a ++ b).length) / 8 =
      (s.cnt.val + a.length) / 8 + ((s.cnt.val + a.length) % 8 + b.length) / 8 := by
    rw [List.length_append]
    omega
  have hout : (packed (a ++ b) s).out = (packed b (packed a s)).out := by
    rw [packed_out, packed_out, packed_out, packed_cnt, accBits_packed, hq, packedPrefix_add,
      ← List.append_assoc (accBits s), packedPrefix_append_of_le hle, List.drop_append_of_le_length hle, List.append_assoc]
  have hacc : (packed (a ++ b) s).acc = (packed b (packed a s)).acc := by
    rw [packed_acc, packed_acc, packed_cnt, accBits_packed, hq, ← packedByte_drop, ← List.append_assoc (accBits s),
      List.drop_append_of_le_length hle]
  have hcnt : (packed (a ++ b) s).cnt = (packed b (packed a s)).cnt := by
    refine Fin.ext ?_
    rw [packed_cnt, packed_cnt, packed_cnt, List.length_append]
    omega
  calc packed (a ++ b) s
      = { s with out := (packed (a ++ b) s).out, acc := (packed (a ++ b) s).acc, cnt := (packed (a ++ b) s).cnt } := rfl
    _ = packed b (packed a s) := by
      rw [hout, hacc, hcnt]
      rfl

theorem packerInvariant_packed (bits : Code) (s : State) : PackerInvariant (packed bits s) := by
  intro j hj
  rw [packed_cnt] at hj
  rw [packed_acc, show j = 7 - (7 - j) by omega, getLsbD_packedByte _ _ (by omega), List.getD_eq_default]
  rw [List.length_append, accBits_length]
  omega

/-- What OUT must have room for behind the bits `a`, counted before them. -/
theorem outRoom_packed (a : Code) (s : State) (n : Nat) :
    outRoom (packed a s) (((packed a s).cnt.val + n) / 8) = outRoom s ((s.cnt.val + a.length + n) / 8) := by
  refine outRoom_congr rfl ?_
  rw [packed_out, packed_cnt, List.length_append, packedPrefix_length]
  omega

end Sys2Proof.Machine
end

section
/-! OBLIGATIONS. The Bit Packer's commands (43_bit_packer R151 to R156). -/

namespace Sys2Proof.Machine

variable {s : State} {x : Byte} {xs : List Byte} {bits c : Code} {m n : Nat}

/-! ### PACK_BIT (R151, R152) -/

theorem pushBit_eq_packed {b : Bool} (hs : PackerInvariant s) (hr : s.cnt = 7 → outRoom s 1 = true) :
    pushBit b s = .done () (packed [b] s) := by
  by_cases hc : s.cnt = 7
  · have hlen : (accBits s ++ [b]).length = 8 := by simp [hc]
    have hbyte := writeBit_eq_packedByte hs b
    rw [hc] at hbyte
    rw [pushBit_of_room hc (hr hc), packed, hlen, packedByte_of_length_le (k := 8 / 8) hlen.le]
    exact congrArg (fun y => Cmd.done () { s with out := s.out ++ [y], acc := 0#8, cnt := 0 }) hbyte
  · have hq : (s.cnt.val + 1) / 8 = 0 := by omega
    rw [pushBit_of_lt hc, writeBit_eq_packedByte hs b]
    simp only [packed, List.length_append, accBits_length, List.length_singleton, hq, packedPrefix, List.range_zero,
      List.map_nil, List.append_nil]
    rfl

theorem exec_packBit_of_bit (b : Bool) (s : State) :
    exec (.packBit (if b then 1#8 else 0#8)) s = finish Opcode.packBit (pushBit b s) := by
  cases b <;> rfl

/-- Settles O30: a pushed bit is the packer's sequence with one bit more. -/
theorem packBitAddsTheBit : Obligations.PackBitAddsTheBit := by
  refine ⟨fun s b hs hr => ?_, fun s x hx hc hr => ?_, fun s x hx => ?_⟩
  · rw [exec_packBit_of_bit, pushBit_eq_packed hs hr, finish_done]
  · have hle : ¬ 1#8 < x := by simpa [BitVec.lt_def] using hx
    rw [exec, execPackBit, if_neg hle, pushBit_of_full hc hr]
    rfl
  · have hlt : 1#8 < x := by simpa [BitVec.lt_def] using hx
    rw [exec, execPackBit, if_pos hlt]
    rfl

/-! ### PACK_SYMBOL (R153) -/

theorem pushBits_eq_packed (hs : PackerInvariant s) (hr : outRoom s ((s.cnt.val + bits.length) / 8) = true) :
    pushBits bits s = .done () (packed bits s) := by
  induction bits generalizing s with
  | nil => rw [packed_nil hs, pushBits]
  | cons b bits ih =>
    have hbit : s.cnt = 7 → outRoom s 1 = true := fun hc => outRoom_mono (by rw [hc, List.length_cons]; omega) hr
    have hrest : outRoom (packed [b] s) (((packed [b] s).cnt.val + bits.length) / 8) = true := by
      rwa [outRoom_packed, Nat.add_assoc, ← List.length_append, List.singleton_append]
    rw [pushBits, pushBit_eq_packed hs hbit, andThen_done, ih (packerInvariant_packed _ _) hrest, ← packed_append,
      List.singleton_append]

theorem packSym_of_room (hs : PackerInvariant s) (hc : codeOf s x = some c)
    (hr : outRoom s ((s.cnt.val + c.length) / 8) = true) : packSym x s = .done () (packed c s) := by
  rw [packSym, hc]
  simp only [hr, Bool.true_eq_false, if_false, pushBits_eq_packed hs hr]

theorem packSym_of_full (hc : codeOf s x = some c) (hr : outRoom s ((s.cnt.val + c.length) / 8) = false) :
    packSym x s = .raised .capacityExceeded s := by
  rw [packSym, hc]
  simp only [hr, if_true]

/-- Settles O31, from what PackSym comes to in each of its three cases. -/
theorem packSymbolAddsTheCode : Obligations.PackSymbolAddsTheCode := by
  refine fun s x => ⟨fun c hs hc hr => ?_, fun c hc hr => ?_, fun hc => ?_⟩ <;> rw [exec, execPackSymbol]
  · rw [packSym_of_room hs hc hr, finish_done]
  · rw [packSym_of_full hc hr]
    rfl
  · rw [packSym_of_invalid hc]
    rfl

/-! ### PACK_STREAM (R154) -/

/-- PACK_STREAM with `m` symbols packed, whose codes are `bits`. -/
def streamed (bits : Code) (m : Nat) (s : State) : State :=
  { packed bits s with rdPtr := s.rdPtr + BitVec.ofNat 64 m, result := BitVec.ofNat 64 m }

theorem packerInvariant_streamed (bits : Code) (m : Nat) (s : State) : PackerInvariant (streamed bits m s) :=
  packerInvariant_packed bits s

theorem outRoom_streamed (bits : Code) (m : Nat) (s : State) (n : Nat) :
    outRoom (streamed bits m s) (((streamed bits m s).cnt.val + n) / 8) =
      outRoom s ((s.cnt.val + bits.length + n) / 8) :=
  outRoom_packed bits s n

theorem streamed_zero (hs : PackerInvariant s) : streamed [] 0 s = { s with result := 0#64 } := by
  rw [streamed, packed_nil hs, BitVec.add_zero]

/-- RD_PTR does not wrap within an IN that fits its capacity. -/
theorem inByte_streamed (h : s.rdPtr.toNat + m < 2 ^ 64) :
    inByte (streamed bits m s) (streamed bits m s).rdPtr.toNat = s.inBuf[s.rdPtr.toNat + m]? := by
  have hptr : (streamed bits m s).rdPtr.toNat = s.rdPtr.toNat + m := by
    rw [streamed, BitVec.toNat_add, BitVec.toNat_ofNat, Nat.add_mod_mod, Nat.mod_eq_of_lt h]
  rw [hptr]
  rfl

/-- One round of PACK_STREAM packs one more symbol. -/
theorem packLoop_streamed (hin : InBounded s) (hx : s.inBuf[s.rdPtr.toNat + m]? = some x)
    (hc : codeOf s x = some c) (hr : outRoom s ((s.cnt.val + bits.length + c.length) / 8) = true) :
    packLoop (n + 1) m (streamed bits m s) = packLoop n (m + 1) (streamed (bits ++ c) (m + 1) s) := by
  have hlt := (List.getElem?_eq_some_iff.1 hx).1
  have hsym : packSym x (streamed bits m s) = .done () (packed c (streamed bits m s)) :=
    packSym_of_room (packerInvariant_streamed _ _ _) hc (by rwa [outRoom_streamed])
  have hnext : streamed (bits ++ c) (m + 1) s = { packed c (streamed bits m s) with
      rdPtr := (streamed bits m s).rdPtr + 1#64, result := BitVec.ofNat 64 (m + 1) } := by
    rw [streamed, packed_append, BitVec.ofNat_add, ← BitVec.add_assoc]
    rfl
  rw [packLoop, inByte_streamed (by omega), hx, hnext]
  simp only [hsym, andThen_done]
  rfl

theorem codesOf_cons : codesOf s (x :: xs) = some bits ↔
    ∃ b bs, codeOf s x = some b ∧ codesOf s xs = some bs ∧ bits = b ++ bs := by
  rw [codesOf]
  cases codeOf s x <;> cases codesOf s xs <;> simp [eq_comm]

/-- PACK_STREAM's loop over symbols `xs` of IN that have codes and room. -/
theorem packLoop_of_codes (hin : InBounded s) (hxs : xs <+: s.inBuf.drop (s.rdPtr.toNat + m))
    (hc : codesOf s xs = some c) (hr : outRoom s ((s.cnt.val + bits.length + c.length) / 8) = true) :
    packLoop (xs.length + n) m (streamed bits m s) =
      packLoop n (m + xs.length) (streamed (bits ++ c) (m + xs.length) s) := by
  induction xs generalizing bits c m with
  | nil =>
    cases hc
    rw [List.append_nil, List.length_nil, Nat.zero_add, Nat.add_zero]
  | cons x xs ih =>
    obtain ⟨b, bs, hb, hbs, rfl⟩ := codesOf_cons.1 hc
    obtain ⟨rest, hrest⟩ := hxs
    have hx : s.inBuf[s.rdPtr.toNat + m]? = some x := by
      rw [← Nat.add_zero (_ + m), ← List.getElem?_drop, ← hrest]
      rfl
    have htail : xs <+: s.inBuf.drop (s.rdPtr.toNat + (m + 1)) :=
      ⟨rest, by rw [← Nat.add_assoc, ← List.drop_drop, ← hrest]; rfl⟩
    rw [List.length_append, ← Nat.add_assoc] at hr
    rw [List.length_cons, Nat.add_right_comm, packLoop_streamed hin hx hb (outRoom_mono (by omega) hr),
      ih htail hbs (by rwa [List.length_append, ← Nat.add_assoc]), List.append_assoc, Nat.add_assoc m, Nat.add_comm 1]

/-- PACK_STREAM, `n` symbols behind the first `xs`, which have codes and room. -/
theorem exec_packStream_of_codes (hs : PackerInvariant s) (hin : InBounded s) (hn : s.arg.toNat = xs.length + n)
    (hxs : (s.inBuf.drop s.rdPtr.toNat).take xs.length = xs) (hc : codesOf s xs = some bits)
    (hr : outRoom s ((s.cnt.val + bits.length) / 8) = true) :
    exec .packStream s = finish Opcode.packStream (packLoop n xs.length (streamed bits xs.length s)) := by
  have hloop := packLoop_of_codes (m := 0) (bits := []) (n := n) hin (hxs ▸ List.take_prefix _ _) hc hr
  rw [List.nil_append, Nat.zero_add] at hloop
  rw [exec, execPackStream, argNat, hn, ← streamed_zero hs, hloop]

theorem exec_packStream_completes (hs : PackerInvariant s) (hin : InBounded s) (hlen : xs.length = s.arg.toNat)
    (hxs : (s.inBuf.drop s.rdPtr.toNat).take s.arg.toNat = xs) (hc : codesOf s xs = some bits)
    (hr : outRoom s ((s.cnt.val + bits.length) / 8) = true) :
    exec .packStream s = .next (streamed bits xs.length s) := by
  rw [exec_packStream_of_codes hs hin (n := 0) hlen.symm (hlen ▸ hxs) hc hr, packLoop, finish_done]

/-- Settles O32: the loop has no symbol left. -/
theorem packStreamAddsTheCodes : Obligations.PackStreamAddsTheCodes := by
  intro s xs bits hs hin hlen _ hxs hc hr
  rw [exec_packStream_completes hs hin hlen hxs hc hr, streamed, hlen, BitVec.ofNat_toNat, BitVec.setWidth_eq]

/-- Settles O33: the loop reaches the failing symbol with the others packed. -/
theorem packStreamStopsAtTheFailingSymbol : Obligations.PackStreamStopsAtTheFailingSymbol := by
  intro s xs bits e hs hin hlt hbound hxs hc hr hfail
  obtain ⟨n, hn⟩ : ∃ n, s.arg.toNat = xs.length + (n + 1) := ⟨s.arg.toNat - xs.length - 1, by omega⟩
  have hptr : s.rdPtr.toNat + xs.length < 2 ^ 64 := by
    cases xs with
    | nil => exact s.rdPtr.isLt
    | cons x xs =>
      have := hbound (List.cons_ne_nil x xs)
      omega
  have hstop : packLoop (n + 1) xs.length (streamed bits xs.length s) = .raised e (streamed bits xs.length s) := by
    rw [packLoop, inByte_streamed hptr]
    obtain ⟨rfl, hx⟩ | ⟨rfl, y, hx, hy⟩ | ⟨rfl, y, c, hx, hy, hfull⟩ := hfail <;> rw [hx]
    · exact congrArg (Cmd.andThen · _) (packSym_of_invalid (s := streamed bits xs.length s) hy)
    · rw [← outRoom_streamed bits xs.length] at hfull
      exact congrArg (Cmd.andThen · _) (packSym_of_full (s := streamed bits xs.length s) hy hfull)
  rw [exec_packStream_of_codes hs hin hn hxs hc hr, hstop]
  rfl

/-! ### FLUSH (R155) -/

theorem exec_flush_of_room (h : 0 < s.cnt.val) (hr : outRoom s 1 = true) :
    exec (.flush 1#8) s = .next { s with out := s.out ++ [s.acc], acc := 0#8, cnt := 0 } := by
  rw [exec, execFlush, if_pos ⟨rfl, h⟩, outAppend_of_room (bs := [s.acc]) hr, andThen_done, finish_done]

theorem exec_flush_of_full (h : 0 < s.cnt.val) (hr : outRoom s 1 = false) :
    exec (.flush 1#8) s = .next (raiseError .capacityExceeded Opcode.flush s) := by
  rw [exec, execFlush, if_pos ⟨rfl, h⟩, outAppend_of_full (bs := [s.acc]) hr, andThen_raised, finish_raised]

theorem exec_flush_of_empty (h : s.cnt.val = 0) : exec (.flush x) s = .next s := by
  rw [exec, execFlush, if_neg (by omega), finish_done]

/-- Settles O34 by the checks of FLUSH. -/
theorem flushWritesAPartialByte : Obligations.FlushWritesAPartialByte :=
  fun _ => ⟨exec_flush_of_room, exec_flush_of_full, exec_flush_of_empty, rfl⟩

/-! ### PACK_STREAM and FLUSH 1 (R156) -/

theorem packedBytes_of_whole (h : bits.length % 8 = 0) : packedBytes bits = packedPrefix bits (bits.length / 8) := by
  rw [packedBytes, show (bits.length + 7) / 8 = bits.length / 8 by omega]

theorem packedBytes_of_partial (h : 0 < bits.length % 8) :
    packedBytes bits = packedPrefix bits (bits.length / 8) ++ [packedByte bits (bits.length / 8)] := by
  rw [packedBytes, show (bits.length + 7) / 8 = bits.length / 8 + 1 by omega, packedPrefix_succ]

/-- From an empty packer, FLUSH 1 behind a stream of codes completes the bytes they are cut into: ACC holds the bits
behind the last whole byte, padded with 0. -/
theorem exec_flush_streamed (hcnt : s.cnt = 0) (hr : outRoom s ((bits.length + 7) / 8) = true) :
    exec (.flush 1#8) (streamed bits m s) =
      .next { streamed bits m s with out := s.out ++ packedBytes bits, acc := 0#8, cnt := 0 } := by
  have hempty : accBits s = [] := by simp [accBits, hcnt]
  have hout : (streamed bits m s).out = s.out ++ packedPrefix bits (bits.length / 8) :=
    (packed_out bits s).trans (by simp [hempty, hcnt])
  have hacc : (streamed bits m s).acc = packedByte bits (bits.length / 8) :=
    (packed_acc bits s).trans (by simp [hempty, hcnt])
  have hheld : (streamed bits m s).cnt.val = bits.length % 8 :=
    (packed_cnt bits s).trans (by simp [hcnt])
  obtain hwhole | hpart := Nat.eq_zero_or_pos (bits.length % 8)
  · rw [packedByte_of_length_le (by omega)] at hacc
    rw [exec_flush_of_empty (hheld.trans hwhole), packedBytes_of_whole hwhole, ← hout, ← hacc,
      show (0 : Fin 8) = (streamed bits m s).cnt from Fin.ext (hheld.trans hwhole).symm]
  · have hroom : outRoom (streamed bits m s) 1 = true := by
      rw [← hr]
      refine outRoom_congr rfl ?_
      rw [hout, List.length_append, packedPrefix_length]
      omega
    rw [exec_flush_of_room (hheld ▸ hpart) hroom, packedBytes_of_partial hpart, hout, hacc, List.append_assoc]

/-- Settles O35: PACK_STREAM completes, and FLUSH 1 writes out what is left. -/
theorem packedStreamIsThePaddedCodes : Obligations.PackedStreamIsThePaddedCodes := by
  intro s xs bits hcnt hacc hin hlen _ hxs hc hr
  have hstream := exec_packStream_completes (packerInvariant_of_empty hacc) hin hlen hxs hc
    (outRoom_mono (by rw [hcnt, Fin.val_zero]; omega) hr)
  exact ⟨_, hstream, _, exec_flush_streamed hcnt hr, rfl, rfl, rfl, rfl⟩

end Sys2Proof.Machine
end

section
/-! OBLIGATIONS. The frames of the packer's and the unpacker's commands, the latch named beside them (43_bit_packer R152
to R155, 44_bit_unpacker R161, R163). -/

namespace Sys2Proof.Machine

variable {s t : State} {i : Instr}

/-- The error latch at `l`. -/
def withErr (l : Option ErrLatch) (s : State) : State := { s with err := l }

/-- A command that answers a next state, its latch put back, comes to its frame. -/
theorem exec_frame_but_err (h : exec i s = .next t) : frameOf i s (withErr s.err t) := by
  obtain ht | ⟨e, -, u, hu, rfl⟩ := exec_frame i s t h
  · rwa [← err_of_frameOf ht]
  · rwa [← err_of_frameOf hu]

/-- Settles O55: the frames of `exec_frame`, with the latch as the command leaves it. -/
theorem streamCommandFrames : Obligations.StreamCommandFrames := by
  refine fun s t => ⟨fun x h => ?_, fun h => ?_, fun h => ?_, fun h => ?_⟩
  · obtain ⟨ht, hout⟩ : frameOf (.packBit x) s (withErr s.err t) :=
      h.elim exec_frame_but_err fun h => h.elim exec_frame_but_err exec_frame_but_err
    exact ⟨congrArg (withErr t.err) ht, hout⟩
  · obtain ⟨ht, hout⟩ := exec_frame_but_err h
    exact ⟨congrArg (withErr t.err) ht, hout⟩
  · exact congrArg (withErr t.err) (exec_frame_but_err h)
  · obtain ⟨ht, hout⟩ := exec_frame_but_err h
    exact ⟨congrArg (withErr t.err) ht, hout⟩

end Sys2Proof.Machine
end

section
/-! OBLIGATIONS. The Bit Unpacker's commands (44_bit_unpacker R160 to R164). -/

namespace Sys2Proof.Machine

variable {s : State} {t c d l r : CodeTree} {x : Byte} {xs ys : List Byte} {p bits rest : Code} {k n m fuel : Nat}

/-! ### READ_BIT (R160, R161) -/

/-- A stream bit by arithmetic on its byte (20_memory R59). -/
theorem ofNat_streamBitOf (x : Byte) (i : Nat) :
    (if streamBitOf x i then 1#64 else 0#64) = BitVec.ofNat 64 (x.toNat / 2 ^ (7 - i % 8) % 2) := by
  rw [streamBitOf, BitVec.getLsbD, ← Nat.toNat_testBit]
  cases x.toNat.testBit (7 - i % 8) <;> rfl

/-- Settles O36: the byte at BIT_IDX is there, or it is not. -/
theorem readBitIsMostSignificantFirst : Obligations.ReadBitIsMostSignificantFirst := by
  refine fun s => ⟨fun x hx => ?_, fun hend => ?_⟩
  · have hbit : readStreamBit s s.bitIdx = some (streamBitOf x s.bitIdx) := readStreamBit_eq_some.2 ⟨x, hx, rfl⟩
    rw [exec, execReadBit, hbit, ← ofNat_streamBitOf]
    rfl
  · rw [exec, execReadBit, readStreamBit_eq_none.2 hend]
    rfl

/-! ### The stream bits of IN (20_memory R59) -/

theorem StreamHolds.of_append (h : StreamHolds s (bits ++ rest)) : StreamHolds s bits := fun i hi => by
  rw [h i (by rw [List.length_append]; omega), List.getElem_append_left hi]

theorem StreamHolds.next {b : Bool} (h : StreamHolds s (bits ++ b :: rest)) :
    readStreamBit s (s.bitIdx + bits.length) = some b := by
  rw [h bits.length (by simp)]
  simp

/-- No more bits stand in IN than its bytes have. -/
theorem StreamHolds.length_le (h : StreamHolds s bits) : bits.length ≤ 8 * s.inBuf.length := by
  obtain hnil | hpos := Nat.eq_zero_or_pos bits.length
  · omega
  · obtain ⟨y, hy, -⟩ := readStreamBit_eq_some.1 (h (bits.length - 1) (by omega))
    have := (List.getElem?_eq_some_iff.1 hy).1
    omega

/-- The bytes a bit sequence is cut into hold its bits in order, behind any whole number of bytes (43_bit_packer R156). -/
theorem streamHolds_packedBytes {before after : List Byte} (hin : s.inBuf = before ++ packedBytes bits ++ after)
    (hidx : s.bitIdx = 8 * before.length) : StreamHolds s bits := by
  intro i hi
  have hlen : (packedBytes bits).length = (bits.length + 7) / 8 := packedPrefix_length _ _
  have hbyte : s.inBuf[(s.bitIdx + i) / 8]? = some (packedByte bits (i / 8)) := by
    rw [hin, hidx, Nat.mul_add_div (by omega), List.append_assoc, List.getElem?_append_right (by omega),
      Nat.add_sub_cancel_left, List.getElem?_append_left (by omega), packedBytes, packedPrefix, List.getElem?_map,
      List.getElem?_range (by omega)]
    rfl
  refine readStreamBit_eq_some.2 ⟨_, hbyte, ?_⟩
  rw [streamBitOf, hidx, Nat.mul_add_mod, getLsbD_packedByte _ _ (Nat.mod_lt i (by omega)), Nat.div_add_mod,
    List.getD_eq_getElem _ _ hi]

/-! ### The entry of a tree -/

/-- `readTree_cases` with the children's trees read to the depth of the whole arena again. -/
theorem treeOf_cases (h : treeOf s k = some t) :
    ∃ e, s.nodes[k]? = some e ∧
      (e.kind = .leaf ∧ t = .leaf e.sym ∨
        e.kind = .internal ∧ ∃ l r, treeOf s e.left = some l ∧ treeOf s e.right = some r ∧ t = .node l r) := by
  have hle {f j : Nat} {v : CodeTree} (hj : readTree s.nodes f j = some v) (hf : f ≤ s.nodes.length) :
      treeOf s j = some v := by
    have hread := readTree_append hj hf []
    rwa [List.append_nil] at hread
  unfold treeOf at h
  cases hlen : s.nodes.length with
  | zero =>
    rw [hlen] at h
    cases h
  | succ f =>
    rw [hlen] at h
    obtain ⟨e, he, hleaf | ⟨hkind, l, r, hl, hr, rfl⟩⟩ := readTree_cases h
    · exact ⟨e, he, .inl hleaf⟩
    · exact ⟨e, he, .inr ⟨hkind, l, r, hle hl (by omega), hle hr (by omega), rfl⟩⟩

theorem treeOf_leaf (h : treeOf s k = some (.leaf x)) : ∃ e, s.nodes[k]? = some e ∧ e.kind = .leaf ∧ e.sym = x := by
  obtain ⟨e, he, ⟨hkind, hx⟩ | ⟨-, _, _, -, -, hx⟩⟩ := treeOf_cases h
  · exact ⟨e, he, hkind, (CodeTree.leaf.inj hx).symm⟩
  · cases hx

theorem treeOf_node (h : treeOf s k = some (.node l r)) :
    ∃ e, s.nodes[k]? = some e ∧ e.kind = .internal ∧
      ∀ b : Bool, treeOf s (if b then e.right else e.left) = some (if b then r else l) := by
  obtain ⟨e, he, ⟨-, hx⟩ | ⟨hkind, _, _, hl, hr, hx⟩⟩ := treeOf_cases h
  · cases hx
  · cases hx
    refine ⟨e, he, hkind, fun b => ?_⟩
    cases b
    · exact hl
    · exact hr

/-! ### The decode walk (R162) -/

/-- DECODE with the symbols `xs` emitted and the bits `bits` consumed, standing at entry `k`. -/
def decoded (xs : List Byte) (bits : Code) (k : Nat) (s : State) : State :=
  { s with out := s.out ++ xs, result := BitVec.ofNat 64 xs.length, bitIdx := s.bitIdx + bits.length, cursor := k }

theorem decoded_nil (s : State) : decoded [] [] s.cursor s = { s with result := 0#64 } := by
  simp [decoded]

theorem outRoom_decoded (xs : List Byte) (bits : Code) (k : Nat) (s : State) (n : Nat) :
    outRoom (decoded xs bits k s) n = outRoom s (xs.length + n) := by
  refine outRoom_congr rfl ?_
  rw [decoded, List.length_append, Nat.add_assoc]

/-- A step at an internal node follows the edge of the next bit. -/
theorem decodeStep_decoded_node {b : Bool} (hk : treeOf s k = some (.node l r)) (hs : StreamHolds s (bits ++ b :: rest)) :
    ∃ k', treeOf s k' = some (if b then r else l) ∧
      decodeStep xs.length (decoded xs bits k s) = .done xs.length (decoded xs (bits ++ [b]) k' s) := by
  obtain ⟨e, he, hkind, hchild⟩ := treeOf_node hk
  refine ⟨_, hchild b, ?_⟩
  rw [decodeStep_bit (s := decoded xs bits k s) he hkind hs.next, decoded, decoded, List.length_append]
  rfl

/-- A step at a leaf emits its symbol and returns to the root. -/
theorem decodeStep_decoded_leaf (hk : treeOf s k = some (.leaf x)) (hr : outRoom s (xs.length + 1) = true) :
    decodeStep xs.length (decoded xs bits k s) =
      .done (xs ++ [x]).length (decoded (xs ++ [x]) bits s.root s) := by
  obtain ⟨e, he, hkind, rfl⟩ := treeOf_leaf hk
  rw [decodeStep_leaf (s := decoded xs bits k s) he hkind ((outRoom_decoded ..).trans hr), decoded, decoded,
    List.length_append, ← List.append_assoc]
  rfl

theorem decodeLoop_of_lt (h : m < n) :
    decodeLoop n (fuel + 1) m s = (decodeStep m s).andThen fun m' u => decodeLoop n fuel m' u := by
  rw [decodeLoop, if_pos h]

theorem decodeLoop_of_le (h : n ≤ m) : decodeLoop n fuel m s = .done () s := by
  cases fuel <;> rw [decodeLoop, if_neg (Nat.not_lt.2 h)]

/-- The walk follows a path whose bits are next in IN, and emits nothing on it. -/
theorem decodeLoop_of_path (hn : xs.length < n) (hc : treeOf s k = some c) (hp : follow c p = some d)
    (hs : StreamHolds s (bits ++ p)) :
    ∃ k', treeOf s k' = some d ∧
      decodeLoop n (fuel + p.length) xs.length (decoded xs bits k s) =
        decodeLoop n fuel xs.length (decoded xs (bits ++ p) k' s) := by
  induction p generalizing bits k c with
  | nil =>
    obtain rfl := Option.some.inj hp
    exact ⟨k, hc, by rw [List.append_nil]; rfl⟩
  | cons b p ih =>
    cases c with
    | leaf => cases hp
    | node l r =>
      obtain ⟨j, hj, hstep⟩ := decodeStep_decoded_node (xs := xs) hc hs
      rw [List.append_cons] at hs ⊢
      obtain ⟨k', hk', hloop⟩ := ih hj hp hs
      refine ⟨k', hk', ?_⟩
      rw [List.length_cons, ← Nat.add_assoc, decodeLoop_of_lt hn, hstep, andThen_done, hloop]

/-- The walk follows a path to a leaf, emits its symbol and is back at the root. -/
theorem decodeLoop_of_leafAt (hn : xs.length < n) (hc : treeOf s k = some c) (hp : LeafAt c p x)
    (hs : StreamHolds s (bits ++ p)) (hr : outRoom s (xs.length + 1) = true) :
    decodeLoop n (fuel + 1 + p.length) xs.length (decoded xs bits k s) =
      decodeLoop n fuel (xs ++ [x]).length (decoded (xs ++ [x]) (bits ++ p) s.root s) := by
  obtain ⟨k', hk', hloop⟩ := decodeLoop_of_path (fuel := fuel + 1) hn hc hp hs
  rw [hloop, decodeLoop_of_lt hn, decodeStep_decoded_leaf hk' hr, andThen_done]

/-- From the root the walk emits the symbols whose paths are next in IN. -/
theorem decodeLoop_of_spells (ht : treeOf s s.root = some t) (hn : xs.length + ys.length ≤ n) (hsp : Spells t ys rest)
    (hs : StreamHolds s (bits ++ rest)) (hr : outRoom s (xs.length + ys.length) = true) :
    decodeLoop n (fuel + (rest.length + ys.length)) xs.length (decoded xs bits s.root s) =
      decodeLoop n fuel (xs ++ ys).length (decoded (xs ++ ys) (bits ++ rest) s.root s) := by
  induction ys generalizing xs bits rest with
  | nil =>
    obtain rfl := hsp
    rw [List.append_nil, List.append_nil]
    rfl
  | cons x ys ih =>
    obtain ⟨p, rest, rfl, hp, hrest⟩ := hsp
    rw [← List.append_assoc] at hs ⊢
    rw [List.length_cons] at hn hr
    have hlen : (xs ++ [x]).length + ys.length = xs.length + (ys.length + 1) := by
      rw [List.length_append, List.length_singleton]
      omega
    have htail := ih (hlen ▸ hn) hrest hs (hlen ▸ hr)
    rw [List.append_cons xs, ← htail, ← decodeLoop_of_leafAt (by omega) ht hp hs.of_append (outRoom_mono (by omega) hr),
      List.length_append, List.length_cons]
    congr 1
    omega

/-- From any CURSOR the walk emits the symbols the bits spell, and stands where the next symbol's walk starts. -/
theorem decodeLoop_of_spellsFrom (ht : treeOf s s.root = some t) (hc : treeOf s s.cursor = some c) (hn : xs.length ≤ n)
    (hsp : SpellsFrom t c xs bits d) (hs : StreamHolds s bits) (hr : outRoom s xs.length = true) :
    ∃ k, treeOf s k = some d ∧ (xs ≠ [] → k = s.root) ∧
      decodeLoop n (fuel + (bits.length + xs.length)) 0 (decoded [] [] s.cursor s) =
        decodeLoop n fuel xs.length (decoded xs bits k s) := by
  cases xs with
  | nil =>
    obtain ⟨rfl, rfl⟩ := hsp
    exact ⟨s.cursor, hc, fun h => absurd rfl h, rfl⟩
  | cons x xs =>
    obtain ⟨rfl, p, rest, rfl, hp, hrest⟩ := hsp
    rw [List.length_cons] at hn hr
    have hfirst := decodeLoop_of_leafAt (xs := []) (bits := []) (fuel := fuel + (rest.length + xs.length))
      (Nat.lt_of_lt_of_le (Nat.succ_pos _) hn) hc hp hs.of_append (outRoom_mono (by simp) hr)
    have htail := decodeLoop_of_spells (xs := [x]) (fuel := fuel) ht (by simpa [Nat.add_comm] using hn) hrest hs
      (by simpa [Nat.add_comm] using hr)
    refine ⟨s.root, ht, fun _ => rfl, Eq.trans ?_ (hfirst.trans htail)⟩
    rw [List.length_append, List.length_cons]
    congr 1
    omega

/-! ### DECODE (R163) -/

theorem exec_decode_of_root (hv : s.rootValid = true) :
    exec .decode s =
      finish Opcode.decode (decodeLoop (argNat s) (decodeFuel (argNat s) s) 0 (decoded [] [] s.cursor s)) := by
  rw [exec, execDecode, if_neg (by rw [hv]; decide), decoded_nil]

/-- DECODE of exactly the symbols the bits spell. -/
theorem exec_decode_completes (hv : s.rootValid = true) (ht : treeOf s s.root = some t) (hc : treeOf s s.cursor = some c)
    (hlen : xs.length = s.arg.toNat) (hne : xs ≠ []) (hsp : SpellsFrom t c xs bits d) (hs : StreamHolds s bits)
    (hr : outRoom s xs.length = true) :
    exec .decode s =
      .next { s with out := s.out ++ xs, result := s.arg, bitIdx := s.bitIdx + bits.length, cursor := s.root } := by
  have hfuel : decodeFuel (argNat s) s = 8 * s.inBuf.length - bits.length + (bits.length + xs.length) := by
    have := hs.length_le
    rw [decodeFuel, argNat]
    omega
  obtain ⟨k, -, hk, hloop⟩ := decodeLoop_of_spellsFrom ht hc hlen.le hsp hs hr
  obtain rfl := hk hne
  rw [exec_decode_of_root hv, hfuel, argNat, hloop, decodeLoop_of_le hlen.ge, finish_done, decoded, hlen,
    BitVec.ofNat_toNat, BitVec.setWidth_eq]

/-- Settles O37: no symbol is asked for, or exactly those the bits spell. -/
theorem decodeEmitsTheSpelledSymbols : Obligations.DecodeEmitsTheSpelledSymbols := by
  refine fun s hv => ⟨fun harg => ?_, fun t c x xs p rest ht hc hlen hp hsp hs hr => ?_⟩
  · rw [exec_decode_of_root hv, decoded_nil, decodeLoop_of_le (by rw [argNat, harg]; decide), finish_done]
  · exact exec_decode_completes (xs := x :: xs) hv ht hc hlen.symm (List.cons_ne_nil x xs)
      ⟨rfl, p, rest, rfl, hp, hsp⟩ hs hr

/-- Settles O38: the walk emits `xs` and follows `q`, and the step after it raises. -/
theorem decodeKeepsWhatItEmitted : Obligations.DecodeKeepsWhatItEmitted := by
  intro s t c d xs bits q e hv ht hc hlt hsp hs hr hstop
  have hfuel : decodeFuel (argNat s) s =
      s.arg.toNat - xs.length - 1 + (8 * s.inBuf.length - (bits ++ q).length) + 1 + q.length +
        (bits.length + xs.length) := by
    have := hs.length_le
    rw [decodeFuel, argNat]
    rw [List.length_append] at this ⊢
    omega
  obtain ⟨v, hv'⟩ : ∃ v, follow d q = some v := by
    obtain ⟨-, ⟨l, r, h⟩, -⟩ | ⟨-, ⟨x, h⟩, -⟩ := hstop
    · exact ⟨_, h⟩
    · exact ⟨_, h⟩
  obtain ⟨k, hk, -, hemit⟩ := decodeLoop_of_spellsFrom ht hc hlt.le hsp hs.of_append hr
  obtain ⟨k', hk', hwalk⟩ := decodeLoop_of_path hlt hk hv' hs
  have hraise : decodeStep xs.length (decoded xs (bits ++ q) k' s) = .raised e (decoded xs (bits ++ q) k' s) := by
    obtain ⟨rfl, ⟨l, r, hnode⟩, hend⟩ | ⟨rfl, ⟨x, hleaf⟩, hfull⟩ := hstop
    · obtain ⟨n, hn, hkind, -⟩ := treeOf_node (hk'.trans (hv'.symm.trans hnode))
      exact decodeStep_truncated (s := decoded xs (bits ++ q) k' s) hn hkind hend
    · obtain ⟨n, hn, hkind, -⟩ := treeOf_leaf (hk'.trans (hv'.symm.trans hleaf))
      exact decodeStep_full (s := decoded xs (bits ++ q) k' s) hn hkind ((outRoom_decoded ..).trans hfull)
  refine ⟨raiseError e Opcode.decode (decoded xs (bits ++ q) k' s), ?_, rfl, hk'.trans hv'.symm⟩
  rw [exec_decode_of_root hv, hfuel, argNat, hemit, hwalk, decodeLoop_of_lt hlt, hraise, andThen_raised, finish_raised]

/-! ### DECODE behind PACK_STREAM and FLUSH 1 (R164) -/

theorem spells_of_codesOf (hcode : ∀ x p, codeOf s x = some p → LeafAt t p x) (hc : codesOf s xs = some bits) :
    Spells t xs bits := by
  induction xs generalizing bits with
  | nil => exact (Option.some.inj hc).symm
  | cons x xs ih =>
    obtain ⟨b, bs, hb, hbs, rfl⟩ := codesOf_cons.1 hc
    exact ⟨b, bs, rfl, hcode x b hb, ih hbs⟩

/-- From the root the walk starts as for every further symbol. -/
theorem Spells.spellsFrom (h : Spells t xs bits) : SpellsFrom t t xs bits t := by
  cases xs with
  | nil => exact ⟨h, rfl⟩
  | cons x xs => exact ⟨rfl, h⟩

/-- Settles O39: what is packed is the codes cut into bytes, and they hold the paths DECODE walks. -/
theorem decodeOfEncodeIsTheInput : Obligations.DecodeOfEncodeIsTheInput := by
  intro s u t xs bits before after hne hcnt hacc hin hlen _ hxs hcode hc hr hv ht hcur harg hidx hroom
  have hstream := exec_packStream_completes (packerInvariant_of_empty hacc) hin hlen hxs hc
    (outRoom_mono (by rw [hcnt, Fin.val_zero]; omega) hr)
  refine ⟨_, _, packedBytes bits, hstream, exec_flush_streamed hcnt hr, rfl, fun hbuf => ?_⟩
  rw [← harg] at hlen
  exact exec_decode_completes hv ht (hcur ▸ ht) hlen hne (spells_of_codesOf hcode hc).spellsFrom
    (streamHolds_packedBytes hbuf hidx) hroom

end Sys2Proof.Machine
end

section
/-! OBLIGATIONS. The control and framing commands, and the frames they share with the serializer's (45_control_framing
R170 to R174, 42_tree_serdes R143, R144, R147). -/

namespace Sys2Proof.Machine

variable {s t : State} {i : Instr} {x : Byte} {xs : List Byte} {w : Nat}

/-! ### LOAD_U64 (R173) -/

/-- A byte below a little-endian number is the next byte of the list before it. -/
theorem toNat_append_eq_leNat {v : BitVec w} (h : v.toNat = leNat xs) : (v ++ x).toNat = leNat (x :: xs) := by
  rw [toNat_append_eq_add, h, leNat]
  omega

theorem append_eq_ofNat_leNat (x0 x1 x2 x3 x4 x5 x6 x7 : Byte) :
    x7 ++ x6 ++ x5 ++ x4 ++ x3 ++ x2 ++ x1 ++ x0 = BitVec.ofNat 64 (leNat [x0, x1, x2, x3, x4, x5, x6, x7]) := by
  have htop : x7.toNat = leNat [x7] := rfl
  refine eq_ofNat_of_toNat ?_
  iterate 7 refine toNat_append_eq_leNat ?_
  exact htop

theorem exec_loadU64_of_bytes (hin : memRead s s.rdPtr.toNat 8 = some xs) :
    exec .loadU64 s = .next { s with result := BitVec.ofNat 64 (leNat xs), rdPtr := s.rdPtr + 8#64 } := by
  rw [exec, execLoadU64, hin]
  rfl

theorem exec_loadU64_of_end (hin : memRead s s.rdPtr.toNat 8 = none) :
    exec .loadU64 s = .next (raiseError .truncatedInput Opcode.loadU64 s) := by
  rw [exec, execLoadU64, hin]
  rfl

/-- Settles O9: eight bytes cut from IN at RD_PTR show that eight stand there. -/
theorem loadReadsEightLittleEndianBytes : Obligations.LoadReadsEightLittleEndianBytes := by
  refine fun s => ⟨fun x0 x1 x2 x3 x4 x5 x6 x7 hbytes => ?_, fun hend => exec_loadU64_of_end (memRead_eq_none.2 hend)⟩
  have hlen := congrArg List.length hbytes
  simp only [List.length_take, List.length_drop, List.length_cons, List.length_nil] at hlen
  rw [exec_loadU64_of_bytes (memRead_eq_some.2 ⟨by omega, hbytes.symm⟩), append_eq_ofNat_leNat]

/-! ### The frames -/

/-- A command that raises no error comes to its frame. -/
theorem exec_frame_of_no_errors (hno : errorsOf i = []) (h : exec i s = .next t) : frameOf i s t := by
  obtain ht | ⟨e, he, -⟩ := exec_frame i s t h
  · exact ht
  · simp [hno] at he

/-- Settles O54: the frames of `exec_frame`, with the latch as the command leaves it. -/
theorem controlAndSerdesFrames : Obligations.ControlAndSerdesFrames := by
  refine fun s t => ⟨exec_frame_of_no_errors rfl, fun h => ?_, fun h => ?_, fun h => ?_, exec_frame_of_no_errors rfl,
    fun h => ?_, fun h => ?_, fun h => ?_⟩
  · obtain rfl : t = treeClearState s := exec_frame_of_no_errors rfl h
    rfl
  · obtain ⟨ht, hout⟩ := exec_frame_but_err h
    exact ⟨congrArg (withErr t.err) ht, hout⟩
  · exact congrArg (withErr t.err) (exec_frame_but_err h)
  · exact congrArg (withErr t.err) (exec_frame_but_err h)
  · obtain ⟨ht, hout⟩ := exec_frame_but_err h
    exact ⟨congrArg (withErr t.err) ht, hout⟩
  · exact congrArg (withErr t.err) (exec_frame_but_err h)

/-! ### NOP, TREE_CLEAR, EMIT_U64 and BITS_FROM_PTR (R170, R171, R172, R174) -/

/-- Settles O6: NOP's word and meaning, by evaluation. -/
theorem nopHasNoEffect : Obligations.NopHasNoEffect :=
  ⟨rfl, fun _ => rfl⟩

/-- Settles O7: TREE_CLEAR is TreeClearState, which leaves no valid code. -/
theorem treeClearDiscardsTreeAndTable : Obligations.TreeClearDiscardsTreeAndTable :=
  fun s => ⟨treeClearState s, rfl, rfl, codeOf_treeClearState s⟩

/-- OUT has room where OUT_CAP is UNBOUNDED or is not exceeded (20_memory R55). -/
theorem outRoom_eq_true_iff (s : State) (n : Nat) :
    outRoom s n = true ↔ s.cfg.outCap = none ∨ ∃ cap, s.cfg.outCap = some cap ∧ s.out.length + n ≤ cap := by
  rw [outRoom_iff]
  cases s.cfg.outCap <;> simp

/-- Settles O8: EMIT_U64 is OutAppend of the 8 bytes of ARG. -/
theorem emitAppendsEightLittleEndianBytes : Obligations.EmitAppendsEightLittleEndianBytes := by
  refine fun s => ⟨outRoom_eq_true_iff s, fun hroom => ?_, fun hfull => ?_⟩
  · rw [exec, execEmitU64, outAppend_of_room (bs := leBytes s.arg) hroom]
    rfl
  · rw [exec, execEmitU64, outAppend_of_full (bs := leBytes s.arg) hfull]
    rfl

/-- Settles O10: BIT_IDX is the remainder, and the quotient counts the wraps. -/
theorem bitsFromPtrWrapsModulo64Bits : Obligations.BitsFromPtrWrapsModulo64Bits :=
  ⟨rfl, fun s => ⟨8 * s.rdPtr.toNat % 2 ^ 64, rfl, Nat.mod_lt _ (Nat.two_pow_pos 64), 8 * s.rdPtr.toNat / 2 ^ 64,
    (Nat.mod_add_div _ _).symm⟩⟩

end Sys2Proof.Machine
end

section
/-! OBLIGATIONS. Errors: what the core's turn does under the lock and with nothing pending, which commands are all or
nothing, which error a command latches, and what clears one (60_exceptions R191 to R197, R205). -/

namespace Sys2Proof.Machine

variable {α : Type} {c : Cmd α} {s t : State} {op : Byte} {l : ErrLatch} {w v : Word} {width addr : Nat} {r : Reg}
  {ts : List Turn}

/-! ### The core's turn (R193, R205) -/

/-- Settles O4: the turn of a legal word with no error latched. -/
theorem stepRunsTheDecodedCommand : Obligations.StepRunsTheDecodedCommand :=
  fun _ _ _ => step_of_decodeWord_ok

theorem step_locked (hc : CoreNext s) (hp : s.pending = some w) (hl : s.err = some l) : step s = .next (taken s) := by
  simp [step, nextMove_core hc, coreMove, hp, errorLatched, hl, taken]

theorem step_idle (hc : CoreNext s) (hp : s.pending = none) : step s = .next { s with turns := s.turns.tail } := by
  simp [step, nextMove_core hc, coreMove, hp]

/-- Settles O5: the core's turn under the error lock, and its turn with nothing pending. -/
theorem lockedOrIdleCoreDoesNothing : Obligations.LockedOrIdleCoreDoesNothing :=
  ⟨fun _ _ _ => step_locked, fun _ => step_idle⟩

/-! ### All or nothing (R195) -/

/-- `c`, run on `s`, completes with the latch of `s`, or raises an error with nothing of `s` changed. -/
def Cmd.AllOrNothing (s : State) : Cmd α → Prop
  | .done _ t => t.err = s.err
  | .raised _ t => t = s
  | .broken => True

/-- Where the outcome `o` of a command run on `s` is a next state, the latch is as it was, or nothing else has changed
(60_exceptions R195). -/
def AllOrNothing (s : State) (o : Host.Outcome State Fault Refusal) : Prop :=
  ∀ t, o = .next t → t.err = s.err ∨ ∃ l, t = withErr (some l) s

theorem finish_allOrNothing (hc : c.AllOrNothing s) : AllOrNothing s (finish op c) := by
  intro t h
  obtain ⟨a, rfl⟩ | ⟨e, u, rfl, rfl⟩ := finish_eq_next.1 h
  · exact .inl hc
  · obtain rfl : u = s := hc
    exact .inr ⟨⟨e, op⟩, rfl⟩

/-- What follows raises nothing and latches nothing. -/
theorem Cmd.AllOrNothing.andThen_done {f : α → State → State} (hc : c.AllOrNothing s)
    (hf : ∀ a u, (f a u).err = u.err) : (c.andThen fun a u => .done () (f a u)).AllOrNothing s := by
  cases c with
  | done a u => exact (hf a u).trans hc
  | raised e u => exact hc
  | broken => trivial

theorem outAppend_allOrNothing (bs : List Byte) (s : State) : (outAppend bs s).AllOrNothing s := by
  cases hr : outRoom s bs.length with
  | true =>
    rw [outAppend_of_room hr]
    rfl
  | false =>
    rw [outAppend_of_full hr]
    rfl

theorem allocNode_allOrNothing (kind : NodeKind) (x : Byte) (w : Word) (l r : Nat) (s : State) :
    (allocNode kind x w l r s).AllOrNothing s := by
  unfold allocNode
  split <;> rfl

theorem mergeStep_allOrNothing (s : State) : (mergeStep s).AllOrNothing s := by
  cases h : mergeStep s with
  | done _ t => exact mergeStep_done_err h
  | raised e t => exact (mergeStep_eq_raised h).2
  | broken => trivial

theorem pushBit_done_err {b : Bool} {a : Unit} (h : pushBit b s = .done a t) : t.err = s.err := by
  rw [(pushBit_eq_done h).1]

theorem pushBit_allOrNothing (b : Bool) (s : State) : (pushBit b s).AllOrNothing s := by
  cases h : pushBit b s with
  | done _ t => exact pushBit_done_err h
  | raised e t => exact (pushBit_eq_raised h).2
  | broken => trivial

/-- A bit pushed ahead of `n` more, with room for the bytes they complete, leaves room for the rest. -/
theorem pushBit_done_of_room {b : Bool} {n : Nat} (hr : outRoom s ((s.cnt.val + (n + 1)) / 8) = true) :
    ∃ u, pushBit b s = .done () u ∧ outRoom u ((u.cnt.val + n) / 8) = true := by
  by_cases hc : s.cnt = 7
  · have h7 : s.cnt.val = 7 := congrArg Fin.val hc
    refine ⟨_, pushBit_of_room hc (outRoom_mono (by omega) hr), (outRoom_congr (s := s) ?_ ?_).trans hr⟩
    · rfl
    · simp only [List.length_append, List.length_singleton, Fin.val_zero]
      omega
  · refine ⟨_, pushBit_of_lt hc, (outRoom_congr (s := s) ?_ ?_).trans hr⟩
    · rfl
    · have hcnt : (s.cnt + 1).val = s.cnt.val + 1 := Fin.val_add_one_of_lt (Fin.lt_last_iff_ne_last.2 hc)
      simp only [hcnt]
      omega

/-- With room for every byte they complete, the bits of a code are all pushed, from whatever the packer holds. -/
theorem pushBits_done_of_room {bits : Code} (hr : outRoom s ((s.cnt.val + bits.length) / 8) = true) :
    ∃ u, pushBits bits s = .done () u ∧ u.err = s.err := by
  induction bits generalizing s with
  | nil => exact ⟨s, rfl, rfl⟩
  | cons b bits ih =>
    obtain ⟨u, hu, hru⟩ := pushBit_done_of_room (b := b) hr
    obtain ⟨t, ht, herr⟩ := ih hru
    exact ⟨t, by rw [pushBits, hu, andThen_done, ht], herr.trans (pushBit_done_err hu)⟩

theorem packSym_allOrNothing (x : Byte) (s : State) : (packSym x s).AllOrNothing s := by
  cases hc : codeOf s x with
  | none =>
    rw [packSym_of_invalid hc]
    rfl
  | some bits =>
    cases hr : outRoom s ((s.cnt.val + bits.length) / 8) with
    | false =>
      rw [packSym_of_full hc hr]
      rfl
    | true =>
      obtain ⟨u, hu, herr⟩ := pushBits_done_of_room hr
      simp only [packSym, hc, hr, Bool.true_eq_false, if_false, hu]
      exact herr

theorem execLeafPush_allOrNothing (x : Byte) (s : State) : AllOrNothing s (execLeafPush x s) := by
  refine finish_allOrNothing ?_
  split
  · rfl
  · split
    · rfl
    · exact (allocNode_allOrNothing ..).andThen_done fun _ _ => rfl

theorem execMerge_allOrNothing (s : State) : AllOrNothing s (execMerge s) := by
  refine finish_allOrNothing ?_
  split
  · rfl
  · refine Cmd.AllOrNothing.andThen_done ?_ fun _ _ => rootFromList_err
    split
    · exact mergeStep_allOrNothing s
    · rfl

theorem execSerLen_allOrNothing (s : State) : AllOrNothing s (execSerLen s) := by
  refine finish_allOrNothing ?_
  split
  · rfl
  · split
    · trivial
    · rfl

theorem execSerialize_allOrNothing (s : State) : AllOrNothing s (execSerialize s) := by
  refine finish_allOrNothing ?_
  split
  · rfl
  · split
    · trivial
    · split
      · rfl
      · exact (outAppend_allOrNothing ..).andThen_done fun _ _ => rfl

theorem execPackBit_allOrNothing (x : Byte) (s : State) : AllOrNothing s (execPackBit x s) := by
  refine finish_allOrNothing ?_
  split
  · rfl
  · exact pushBit_allOrNothing _ s

theorem execFlush_allOrNothing (x : Byte) (s : State) : AllOrNothing s (execFlush x s) := by
  refine finish_allOrNothing ?_
  split
  · exact (outAppend_allOrNothing ..).andThen_done fun _ _ => rfl
  · rfl

theorem execReadBit_allOrNothing (s : State) : AllOrNothing s (execReadBit s) := by
  refine finish_allOrNothing ?_
  split <;> rfl

theorem execLoadU64_allOrNothing (s : State) : AllOrNothing s (execLoadU64 s) := by
  refine finish_allOrNothing ?_
  split <;> rfl

/-- Settles O40: each of the ten commands raises before it has changed anything. -/
theorem singleStepCommandsAreAllOrNothing : Obligations.SingleStepCommandsAreAllOrNothing := by
  intro i s t l hi hs h hl
  have hall : AllOrNothing s (exec i s) := by
    obtain rfl | rfl | rfl | rfl | rfl | rfl | ⟨x, rfl | rfl | rfl | rfl⟩ := hi
    · exact execMerge_allOrNothing s
    · exact execSerLen_allOrNothing s
    · exact execSerialize_allOrNothing s
    · exact execReadBit_allOrNothing s
    · exact finish_allOrNothing (outAppend_allOrNothing ..)
    · exact execLoadU64_allOrNothing s
    · exact execLeafPush_allOrNothing x s
    · exact execPackBit_allOrNothing x s
    · exact finish_allOrNothing (packSym_allOrNothing x s)
    · exact execFlush_allOrNothing x s
  obtain herr | ⟨l', rfl⟩ := hall t h
  · exact nomatch hs.symm.trans (herr.symm.trans hl)
  · exact congrArg (withErr · s) hl

/-! ### The errors a command latches (R191, R192) -/

/-- Settles O41, as a command that has kept the latch leaves none where none was. -/
theorem errorsAreThoseOfTheCommand : Obligations.ErrorsAreThoseOfTheCommand := by
  intro i s t l hs h hl
  obtain herr | ⟨e, he, herr⟩ := exec_err h
  · exact nomatch hs.symm.trans (herr.symm.trans hl)
  · obtain rfl : ErrLatch.mk e i.opcode = l := Option.some.inj (herr.symm.trans hl)
    exact ⟨he, rfl⟩

/-! ### What clears an error (R196, R197, R211) -/

theorem step_core_locked (hc : CoreNext s) (hl : s.err = some l) (h : step s = .next t) : t.err = some l := by
  cases hp : s.pending with
  | none =>
    obtain rfl := Host.Outcome.next.inj ((step_idle hc hp).symm.trans h)
    exact hl
  | some w =>
    obtain rfl := Host.Outcome.next.inj ((step_locked hc hp hl).symm.trans h)
    exact hl

theorem step_read_eq_next (ht : s.turns = .read width addr :: ts) (h : step s = .next t) :
    ∃ r, t = hostRead r { s with turns := ts } := by
  have hstep : step { s with turns := .read width addr :: ts } = .next t := by rwa [← ht]
  cases hr : regAt s.cfg width addr with
  | none => exact nomatch (step_read_refused hr).symm.trans hstep
  | some r => exact ⟨r, Host.Outcome.next.inj (hstep.symm.trans (step_read hr))⟩

theorem step_write_eq_next (ht : s.turns = .write width addr v :: ts) (h : step s = .next t) :
    ∃ r, regAt s.cfg width addr = some r ∧ t = hostWrite r v { s with turns := ts } := by
  have hstep : step { s with turns := .write width addr v :: ts } = .next t := by rwa [← ht]
  cases hr : regAt s.cfg width addr with
  | none => exact nomatch (step_write_refused hr).symm.trans hstep
  | some r => exact ⟨r, rfl, Host.Outcome.next.inj (hstep.symm.trans (step_write hr))⟩

@[simp] theorem hostRead_err (r : Reg) (s : State) : (hostRead r s).err = s.err := by
  simp only [hostRead, readEffect]
  split
  · exact outPop_err s
  · rfl

theorem writeCtrl_err (v : Word) (s : State) :
    (writeCtrl v s).err = if v.getLsbD 0 = true ∨ v.getLsbD 1 = true then none else s.err := by
  cases h : v.getLsbD 0 with
  | true => simp [writeCtrl, h]
  | false => simp [writeCtrl_of_no_reset h]

/-- Of the registers only CTRL reaches the latch (10_state R25). -/
theorem writeIdle_err_of_ne_ctrl (h : r ≠ .ctrl) (v : Word) (s : State) : (writeIdle v s r).err = s.err := by
  cases r with
  | ctrl => exact absurd rfl h
  | inData =>
    simp only [writeIdle, inAppend]
    split <;> rfl
  | _ => rfl

/-- A write leaves the latch as it was, or is one of CTRL that clears it. -/
theorem hostWrite_err_cases (r : Reg) (v : Word) (s : State) :
    (hostWrite r v s).err = s.err ∨
      (hostWrite r v s).err = none ∧ r = .ctrl ∧ (v.getLsbD 0 = true ∨ v.getLsbD 1 = true) := by
  unfold hostWrite
  split
  · split
    · rename_i hreset
      exact .inr ⟨softReset_err s, hreset.1, .inl hreset.2⟩
    · exact .inl rfl
  · by_cases hr : r = .ctrl
    · subst hr
      by_cases hv : v.getLsbD 0 = true ∨ v.getLsbD 1 = true
      · exact .inr ⟨(writeCtrl_err v s).trans (if_pos hv), rfl, hv⟩
      · exact .inl ((writeCtrl_err v s).trans (if_neg hv))
    · exact .inl (writeIdle_err_of_ne_ctrl hr v s)

/-- CTRL stands at offset 0x08 only (10_state R22). -/
theorem regAt_eq_ctrl {p : Config.Params} (h : regAt p width addr = some .ctrl) : width = 64 ∧ addr = p.base + 8 := by
  obtain ⟨hw, off, h8, rfl, hmap⟩ := regAt_eq_some.1 h
  obtain ⟨hlt, hget⟩ := List.getElem?_eq_some_iff.1 hmap
  have hoff : off / 8 = 1 := (registerMap_ctrl_status ⟨off / 8, hlt⟩).1.1 hget
  exact ⟨hw, by omega⟩

/-- Settles O42: the core's turn and a read leave the latch, and a write clears it through CTRL alone. -/
theorem errorsDoNotNest : Obligations.ErrorsDoNotNest := by
  intro s t l hl h
  cases hturns : s.turns with
  | nil => exact .inl (step_core_locked (.inl hturns) hl h)
  | cons a ts =>
    cases a with
    | core => exact .inl (step_core_locked (.inr (by simp [hturns])) hl h)
    | read width addr =>
      obtain ⟨r, rfl⟩ := step_read_eq_next hturns h
      exact .inl ((hostRead_err ..).trans hl)
    | write width addr v =>
      obtain ⟨r, hr, rfl⟩ := step_write_eq_next hturns h
      obtain herr | ⟨herr, rfl, hv⟩ := hostWrite_err_cases r v { s with turns := ts }
      · exact .inl (herr.trans hl)
      · obtain ⟨rfl, rfl⟩ := regAt_eq_ctrl hr
        exact .inr ⟨herr, v, ts, rfl, hv⟩

end Sys2Proof.Machine
end

section
/-! OBLIGATIONS. The state after power-on reset: its values, and that it is good (70_reset_and_hazards R210). -/

namespace Sys2Proof.Machine

variable {s : State}

/-! ### What reset leaves in the two tables and in STATUS -/

@[simp] theorem isPresent_resetWith (p : Config.Params) (x : Byte) : isPresent (State.resetWith p) x = false :=
  BitVec.getLsbD_zero

@[simp] theorem codeOf_resetWith (p : Config.Params) (x : Byte) : codeOf (State.resetWith p) x = none :=
  Vector.getElem_replicate ..

/-- STATUS reads 0 where all its flags are clear (10_state R26). -/
theorem statusWord_eq_zero (h : ∀ b ∈ statusFlags s, b = false) : statusWord s = 0#64 := by
  refine BitVec.eq_of_getLsbD_eq fun i _ => ?_
  rw [getLsbD_statusWord, BitVec.getLsbD_zero]
  by_cases hi : i < (statusFlags s).length
  · rw [List.getD_eq_getElem _ _ hi]
    exact h _ (List.getElem_mem hi)
  · exact List.getD_eq_default _ _ (Nat.not_lt.1 hi)

/-- An empty IN is full only where IN_CAP is 0, which 00_scope R13 rules out. -/
theorem inFull_resetWith {p : Config.Params} (h : 1 ≤ p.inCap) : inFull (State.resetWith p) = false :=
  decide_eq_false (Nat.ne_of_lt h)

theorem statusWord_resetWith {p : Config.Params} (h : 1 ≤ p.inCap) : statusWord (State.resetWith p) = 0#64 := by
  refine statusWord_eq_zero ?_
  simp only [statusFlags, List.forall_mem_cons]
  exact ⟨rfl, rfl, rfl, rfl, rfl, rfl, rfl, inFull_resetWith h, fun _ hb => (nomatch hb)⟩

/-- Settles O51: the fields by their values, and the two accesses by the rules of an idle core. -/
theorem resetEmptiesEverything : Obligations.ResetEmptiesEverything := by
  rintro p _ rfl
  exact ⟨rfl, rfl, rfl, rfl, rfl, rfl, rfl, rfl, rfl, rfl, rfl, rfl, rfl, rfl, rfl, rfl, isPresent_resetWith p,
    codeOf_resetWith p, rfl, rfl, rfl, rfl, statusWord_resetWith, readStep_idle .id rfl rfl,
    fun _ => writeStep_idle .cmd rfl rfl⟩

/-- Settles O56: an empty tree, an invalid table, an empty packer and empty stores each meet their invariant. -/
theorem resetIsGood : Obligations.ResetIsGood :=
  fun p hp => ⟨hp, treeInvariant_of_empty rfl rfl rfl, tableInvariant_of_invalid rfl (codeOf_resetWith p),
    packerInvariant_of_empty rfl, ⟨Nat.zero_le _, Nat.zero_le _, resetWith_wf p⟩, fun _ herr => (nomatch herr),
    Nat.zero_le _⟩

end Sys2Proof.Machine
end
